-- ==== Sys2Proof/Word.lean ====
section
/-! DEFINITION. The word type of HERA: every register value, memory cell, address and instruction is a
16-bit vector (spec/00_scope.md R7, spec/30_encoding.md R80). -/

namespace Sys2Proof

/-- A 16-bit vector: a register value, a cell of either memory, a cell address or an instruction word
(R7). `BitVec.toNat` is the spec's `u(v)` and `BitVec.toInt` its `s(v)`. -/
abbrev Word := BitVec 16

end Sys2Proof
end

