-- ==== Sys2Proof/Syntax.lean ====
section
/-! DEFINITION. The instruction set as syntax: register names, one constructor per row of
spec/opcode_table.json in the table's order, and the classes of instruction words that the spec gives no
meaning (spec/30_encoding.md R100). -/

namespace Sys2Proof

/-- The sixteen user-addressable registers (spec/10_state.md R20). -/
inductive Reg where
  | r0 | r1 | r2 | r3 | r4 | r5 | r6 | r7 | r8 | r9 | r10 | r11 | r12 | r13 | r14 | r15
  deriving DecidableEq, Repr

/-- Assembler synonym Rt of R11, the temporary register (R22). -/
abbrev Reg.rt : Reg := .r11
/-- Assembler synonym FP_alt of R12 (R22). -/
abbrev Reg.fpAlt : Reg := .r12
/-- Assembler synonym PC_ret of R13 (R22). -/
abbrev Reg.pcRet : Reg := .r13
/-- FP, the frame pointer R14: the one register besides R0 with a role in hardware (R22, R260). -/
abbrev Reg.fp : Reg := .r14
/-- SP, the stack pointer R15: a convention of software only (R22). -/
abbrev Reg.sp : Reg := .r15

/-- The branch conditions of spec/46_branch.md R210; code 0001 is unused and has no name here. -/
inductive Cond where
  | always | l | ge | le | g | ule | ug | z | nz | c | nc | s | ns | v | nv
  deriving DecidableEq, Repr

/-- A HERA instruction: one constructor per row of spec/opcode_table.json. `d`, `a`, `b` are the register
fields of spec/30_encoding.md R81. INC and DEC carry the amount δ the programmer writes, not the field ε
(R94); LOAD and STORE carry their offset 0..31; the four flag operations carry the 5-bit mask
`{ir[8], ir[3:0]}`; relative branches carry the signed 8-bit offset. -/
inductive Instr where
  | setlo (d : Reg) (v : BitVec 8)
  | sethi (d : Reg) (v : BitVec 8)
  | and (d a b : Reg)
  | or (d a b : Reg)
  | add (d a b : Reg)
  | sub (d a b : Reg)
  | mul (d a b : Reg)
  | xor (d a b : Reg)
  | inc (d : Reg) (delta : Nat)
  | dec (d : Reg) (delta : Nat)
  | lsl (d b : Reg)
  | lsr (d b : Reg)
  | lsl8 (d b : Reg)
  | lsr8 (d b : Reg)
  | asl (d b : Reg)
  | asr (d b : Reg)
  | savef (d : Reg)
  | rstrf (d : Reg)
  | fon (mask : BitVec 5)
  | foff (mask : BitVec 5)
  | fset5 (mask : BitVec 5)
  | fset4 (mask : BitVec 5)
  | load (d : Reg) (o : Nat) (b : Reg)
  | store (d : Reg) (o : Nat) (b : Reg)
  | br (b : Reg)
  | brr (o : BitVec 8)
  | bl (b : Reg)
  | blr (o : BitVec 8)
  | bge (b : Reg)
  | bger (o : BitVec 8)
  | ble (b : Reg)
  | bler (o : BitVec 8)
  | bg (b : Reg)
  | bgr (o : BitVec 8)
  | bule (b : Reg)
  | buler (o : BitVec 8)
  | bug (b : Reg)
  | bugr (o : BitVec 8)
  | bz (b : Reg)
  | bzr (o : BitVec 8)
  | bnz (b : Reg)
  | bnzr (o : BitVec 8)
  | bc (b : Reg)
  | bcr (o : BitVec 8)
  | bnc (b : Reg)
  | bncr (o : BitVec 8)
  | bs (b : Reg)
  | bsr (o : BitVec 8)
  | bns (b : Reg)
  | bnsr (o : BitVec 8)
  | bv (b : Reg)
  | bvr (o : BitVec 8)
  | bnv (b : Reg)
  | bnvr (o : BitVec 8)
  | call (a b : Reg)
  | ret (a b : Reg)
  | swi (i : Nat)
  | rti
  deriving DecidableEq, Repr

/-- The five classes of words that decode to no instruction, under the spec's names (R96, R100). -/
inductive WordClass where
  /-- `0000 0001 xxxx xxxx` and `0001 0001 xxxx xxxx`: branch condition 0001 is "(unused)" (U1). -/
  | unusedCondition
  /-- A register-mode branch whose bits 7:4 are not 0000 (U2). -/
  | bregBits7to4
  /-- A word of major opcode 0010 that is not CALL, RETURN, SWI or RTI (U3). -/
  | opcode0010
  /-- A flag-operation word with bit 9 set (U4). -/
  | flagop
  /-- A SAVEF or RSTRF word whose bits 2:0 are not 000 (U5). -/
  | saverstrLowBits
  deriving DecidableEq, Repr

end Sys2Proof
end

