-- ==== Sys2Proof/WellFormed.lean ====
section
/-! DEFINITION. Which instruction terms an instruction word can express (spec/30_encoding.md R94): the numeric
operands that the syntax holds as natural numbers must fit their fields. -/

namespace Sys2Proof

/-- δ of INC and DEC is 1..64: "there is no increment or decrement by zero" (R94, R150, R151). -/
def wfDelta (delta : Nat) : Bool := decide (1 ≤ delta) && decide (delta ≤ 64)

/-- The offset of LOAD and STORE is a 5-bit unsigned number, 0..31 (R88). -/
def wfOffset (o : Nat) : Bool := decide (o ≤ 31)

/-- The interrupt number of SWI is a 4-bit unsigned number, 0..15 (R92). -/
def wfSwi (i : Nat) : Bool := decide (i ≤ 15)

/-- Well-formed: every operand has an encoding. Register fields, immediates and masks fit by their types. -/
def Instr.wf : Instr → Bool
  | .setlo _ _ => true
  | .sethi _ _ => true
  | .and _ _ _ => true
  | .or _ _ _ => true
  | .add _ _ _ => true
  | .sub _ _ _ => true
  | .mul _ _ _ => true
  | .xor _ _ _ => true
  | .inc _ delta => wfDelta delta
  | .dec _ delta => wfDelta delta
  | .lsl _ _ => true
  | .lsr _ _ => true
  | .lsl8 _ _ => true
  | .lsr8 _ _ => true
  | .asl _ _ => true
  | .asr _ _ => true
  | .savef _ => true
  | .rstrf _ => true
  | .fon _ => true
  | .foff _ => true
  | .fset5 _ => true
  | .fset4 _ => true
  | .load _ o _ => wfOffset o
  | .store _ o _ => wfOffset o
  | .br _ => true
  | .brr _ => true
  | .bl _ => true
  | .blr _ => true
  | .bge _ => true
  | .bger _ => true
  | .ble _ => true
  | .bler _ => true
  | .bg _ => true
  | .bgr _ => true
  | .bule _ => true
  | .buler _ => true
  | .bug _ => true
  | .bugr _ => true
  | .bz _ => true
  | .bzr _ => true
  | .bnz _ => true
  | .bnzr _ => true
  | .bc _ => true
  | .bcr _ => true
  | .bnc _ => true
  | .bncr _ => true
  | .bs _ => true
  | .bsr _ => true
  | .bns _ => true
  | .bnsr _ => true
  | .bv _ => true
  | .bvr _ => true
  | .bnv _ => true
  | .bnvr _ => true
  | .call _ _ => true
  | .ret _ _ => true
  | .swi i => wfSwi i
  | .rti => true

end Sys2Proof
end

