-- ==== Sys2Proof/Decode.lean ====
section
/-! DEFINITION. The decoder and the encoder (spec/30_encoding.md R80 to R101). `decode` is the decision
procedure of R96, total on the 65536 words: a word is an instruction (a defined one, or one of the reserved
names SWI and RTI) or belongs to one of the classes of R100. Where a match on a 4-bit field ends in `_`, fifteen
values stand above it and `_` is the sixteenth, 1111. `encode` writes an instruction in the formats of
R82 to R93. -/

namespace Sys2Proof

/-- What a word decodes to. -/
inductive Decoded where
  /-- An instruction with its operands. -/
  | instr (i : Instr)
  /-- A word the spec gives no meaning, by its class (R100). -/
  | unspecified (c : WordClass)
  deriving DecidableEq, Repr

/-- The register a 4-bit field names: its unsigned value is the register's number (R20, R81). -/
def Reg.ofBits (n : BitVec 4) : Reg :=
  match n with
  | 0 => .r0
  | 1 => .r1
  | 2 => .r2
  | 3 => .r3
  | 4 => .r4
  | 5 => .r5
  | 6 => .r6
  | 7 => .r7
  | 8 => .r8
  | 9 => .r9
  | 10 => .r10
  | 11 => .r11
  | 12 => .r12
  | 13 => .r13
  | 14 => .r14
  | _ => .r15

/-- The 4-bit field that names a register (R20, R81). -/
def Reg.toBits : Reg → BitVec 4
  | .r0 => 0
  | .r1 => 1
  | .r2 => 2
  | .r3 => 3
  | .r4 => 4
  | .r5 => 5
  | .r6 => 6
  | .r7 => 7
  | .r8 => 8
  | .r9 => 9
  | .r10 => 10
  | .r11 => 11
  | .r12 => 12
  | .r13 => 13
  | .r14 => 14
  | .r15 => 15

/-- The major opcode `ir[15:12]` (R81). -/
def fieldOp (w : Word) : BitVec 4 := w.extractLsb' 12 4

/-- The field `ir[11:8]`: d, or the branch condition (R81). -/
def fieldD (w : Word) : BitVec 4 := w.extractLsb' 8 4

/-- The field `ir[7:4]`: a (R81). -/
def fieldA (w : Word) : BitVec 4 := w.extractLsb' 4 4

/-- The field `ir[3:0]`: b (R81). -/
def fieldB (w : Word) : BitVec 4 := w.extractLsb' 0 4

/-- The 8-bit immediate `ir[7:0]` of SETLO, SETHI and the relative branches (R94). -/
def fieldV (w : Word) : BitVec 8 := w.extractLsb' 0 8

/-- The 6-bit field ε = `ir[5:0]` of INC and DEC (R84). -/
def fieldEps (w : Word) : BitVec 6 := w.extractLsb' 0 6

/-- The amount δ = ε + 1 of INC and DEC (R84, R94). -/
def fieldDelta (w : Word) : Nat := (fieldEps w).toNat + 1

/-- The 5-bit flag mask `{ir[8], ir[3:0]}` (R87). -/
def fieldMask (w : Word) : BitVec 5 := ((w.extractLsb' 8 1).setWidth 5 <<< 4) ||| (w.extractLsb' 0 4).setWidth 5

/-- The 5-bit unsigned offset `{ir[12], ir[7:4]}` of LOAD and STORE (R88). -/
def fieldOffset (w : Word) : Nat := (w.extractLsb' 12 1).toNat * 16 + (w.extractLsb' 4 4).toNat

/-- Major opcode 0000: the relative branch on condition `ir[11:8]` with offset `ir[7:0]` (R90, R99). -/
def decodeRelative (cond : BitVec 4) (o : BitVec 8) : Decoded :=
  match cond with
  | 0b0000 => .instr (.brr o)
  | 0b0001 => .unspecified .unusedCondition
  | 0b0010 => .instr (.blr o)
  | 0b0011 => .instr (.bger o)
  | 0b0100 => .instr (.bler o)
  | 0b0101 => .instr (.bgr o)
  | 0b0110 => .instr (.buler o)
  | 0b0111 => .instr (.bugr o)
  | 0b1000 => .instr (.bzr o)
  | 0b1001 => .instr (.bnzr o)
  | 0b1010 => .instr (.bcr o)
  | 0b1011 => .instr (.bncr o)
  | 0b1100 => .instr (.bsr o)
  | 0b1101 => .instr (.bnsr o)
  | 0b1110 => .instr (.bvr o)
  | _ => .instr (.bnvr o)

/-- Major opcode 0001 with `ir[7:4] = 0000`: the register-mode branch on condition `ir[11:8]` (R89, R99). -/
def decodeRegister (cond : BitVec 4) (b : Reg) : Decoded :=
  match cond with
  | 0b0000 => .instr (.br b)
  | 0b0001 => .unspecified .unusedCondition
  | 0b0010 => .instr (.bl b)
  | 0b0011 => .instr (.bge b)
  | 0b0100 => .instr (.ble b)
  | 0b0101 => .instr (.bg b)
  | 0b0110 => .instr (.bule b)
  | 0b0111 => .instr (.bug b)
  | 0b1000 => .instr (.bz b)
  | 0b1001 => .instr (.bnz b)
  | 0b1010 => .instr (.bc b)
  | 0b1011 => .instr (.bnc b)
  | 0b1100 => .instr (.bs b)
  | 0b1101 => .instr (.bns b)
  | 0b1110 => .instr (.bv b)
  | _ => .instr (.bnv b)

/-- Major opcode 0010: CALL, RETURN, SWI, RTI; everything else is unspecified (R91 to R93, R98). -/
def decode0010 (n2 n1 n0 : BitVec 4) : Decoded :=
  if n2 = 0b0000 then .instr (.call (Reg.ofBits n1) (Reg.ofBits n0))
  else if n2 = 0b0001 then .instr (.ret (Reg.ofBits n1) (Reg.ofBits n0))
  else if n2 = 0b0010 ∧ n1 = 0b0000 then .instr (.swi n0.toNat)
  else if n2 = 0b0011 ∧ n1 = 0b0000 ∧ n0 = 0b0000 then .instr .rti
  else .unspecified .opcode0010

/-- `ir[7:4] = 0110` of major opcode 0011: `ir[11:9]` selects the flag operation (R87, R97). -/
def decodeFlagOp (op : BitVec 3) (mask : BitVec 5) : Decoded :=
  match op with
  | 0b000 => .instr (.fon mask)
  | 0b100 => .instr (.foff mask)
  | 0b010 => .instr (.fset5 mask)
  | 0b110 => .instr (.fset4 mask)
  | 0b001 => .unspecified .flagop
  | 0b011 => .unspecified .flagop
  | 0b101 => .unspecified .flagop
  | 0b111 => .unspecified .flagop

/-- `ir[7:4] = 0111` of major opcode 0011: SAVEF and RSTRF, bits 2:0 being 000 (R86). -/
def decodeSaveRestore (d : Reg) (n0 : BitVec 4) : Decoded :=
  if n0 = 0b0000 then .instr (.savef d)
  else if n0 = 0b1000 then .instr (.rstrf d)
  else .unspecified .saverstrLowBits

/-- Major opcode 0011: `ir[7:4]` selects among INC, DEC, the shifts and the flag instructions (R97). -/
def decode0011 (w : Word) : Decoded :=
  match fieldA w with
  | 0b0000 => .instr (.lsl (Reg.ofBits (fieldD w)) (Reg.ofBits (fieldB w)))
  | 0b0001 => .instr (.lsr (Reg.ofBits (fieldD w)) (Reg.ofBits (fieldB w)))
  | 0b0010 => .instr (.lsl8 (Reg.ofBits (fieldD w)) (Reg.ofBits (fieldB w)))
  | 0b0011 => .instr (.lsr8 (Reg.ofBits (fieldD w)) (Reg.ofBits (fieldB w)))
  | 0b0100 => .instr (.asl (Reg.ofBits (fieldD w)) (Reg.ofBits (fieldB w)))
  | 0b0101 => .instr (.asr (Reg.ofBits (fieldD w)) (Reg.ofBits (fieldB w)))
  | 0b0110 => decodeFlagOp (w.extractLsb' 9 3) (fieldMask w)
  | 0b0111 => decodeSaveRestore (Reg.ofBits (fieldD w)) (fieldB w)
  | 0b1000 => .instr (.inc (Reg.ofBits (fieldD w)) (fieldDelta w))
  | 0b1001 => .instr (.inc (Reg.ofBits (fieldD w)) (fieldDelta w))
  | 0b1010 => .instr (.inc (Reg.ofBits (fieldD w)) (fieldDelta w))
  | 0b1011 => .instr (.inc (Reg.ofBits (fieldD w)) (fieldDelta w))
  | 0b1100 => .instr (.dec (Reg.ofBits (fieldD w)) (fieldDelta w))
  | 0b1101 => .instr (.dec (Reg.ofBits (fieldD w)) (fieldDelta w))
  | 0b1110 => .instr (.dec (Reg.ofBits (fieldD w)) (fieldDelta w))
  | _ => .instr (.dec (Reg.ofBits (fieldD w)) (fieldDelta w))

/-- The complete decode of R96, by the major opcode (R95). The condition of a register-mode branch is looked
at before its bits 7:4, as R96 orders them, so that a word `0001 0001 …` is of class unused_condition. -/
def decode (w : Word) : Decoded :=
  match fieldOp w with
  | 0b0000 => decodeRelative (fieldD w) (fieldV w)
  | 0b0001 =>
    if fieldD w = 0b0001 then .unspecified .unusedCondition
    else if fieldA w = 0b0000 then decodeRegister (fieldD w) (Reg.ofBits (fieldB w))
    else .unspecified .bregBits7to4
  | 0b0010 => decode0010 (fieldD w) (fieldA w) (fieldB w)
  | 0b0011 => decode0011 w
  | 0b0100 => .instr (.load (Reg.ofBits (fieldD w)) (fieldOffset w) (Reg.ofBits (fieldB w)))
  | 0b0101 => .instr (.load (Reg.ofBits (fieldD w)) (fieldOffset w) (Reg.ofBits (fieldB w)))
  | 0b0110 => .instr (.store (Reg.ofBits (fieldD w)) (fieldOffset w) (Reg.ofBits (fieldB w)))
  | 0b0111 => .instr (.store (Reg.ofBits (fieldD w)) (fieldOffset w) (Reg.ofBits (fieldB w)))
  | 0b1000 => .instr (.and (Reg.ofBits (fieldD w)) (Reg.ofBits (fieldA w)) (Reg.ofBits (fieldB w)))
  | 0b1001 => .instr (.or (Reg.ofBits (fieldD w)) (Reg.ofBits (fieldA w)) (Reg.ofBits (fieldB w)))
  | 0b1010 => .instr (.add (Reg.ofBits (fieldD w)) (Reg.ofBits (fieldA w)) (Reg.ofBits (fieldB w)))
  | 0b1011 => .instr (.sub (Reg.ofBits (fieldD w)) (Reg.ofBits (fieldA w)) (Reg.ofBits (fieldB w)))
  | 0b1100 => .instr (.mul (Reg.ofBits (fieldD w)) (Reg.ofBits (fieldA w)) (Reg.ofBits (fieldB w)))
  | 0b1101 => .instr (.xor (Reg.ofBits (fieldD w)) (Reg.ofBits (fieldA w)) (Reg.ofBits (fieldB w)))
  | 0b1110 => .instr (.setlo (Reg.ofBits (fieldD w)) (fieldV w))
  | _ => .instr (.sethi (Reg.ofBits (fieldD w)) (fieldV w))

/-- The instruction read from a table row's bits `w`, of which the row gives `nbits`. Every HERA instruction is
one 16-bit word (R80), so the word is the bits themselves, and those above `nbits` are 0. -/
def decodeTableWord (nbits w : Nat) : Option Instr :=
  match decode (BitVec.ofNat 16 (w % 2 ^ nbits)) with
  | .instr i => some i
  | .unspecified _ => none

/-! ### The encoder -/

/-- A word of four 4-bit fields, the first the most significant (R81). -/
def ofFields (op d a b : BitVec 4) : Word :=
  (op.setWidth 16 <<< 12) ||| (d.setWidth 16 <<< 8) ||| (a.setWidth 16 <<< 4) ||| b.setWidth 16

/-- Format SET: `op dddd vvvvvvvv` (R82). Format BREL has the same layout, the condition in place of d (R90). -/
def encodeSet (op d : BitVec 4) (v : BitVec 8) : Word :=
  (op.setWidth 16 <<< 12) ||| (d.setWidth 16 <<< 8) ||| v.setWidth 16

/-- Format INCDEC: `0011 dddd 1 i/d eeeeee` with ε = δ - 1 (R84). -/
def encodeIncDec (op : BitVec 2) (d : Reg) (delta : Nat) : Word :=
  0x3000 ||| (d.toBits.setWidth 16 <<< 8) ||| (op.setWidth 16 <<< 6) ||| (BitVec.ofNat 6 (delta - 1)).setWidth 16

/-- Format FLAGOP: `0011 flag-op v4 0110 v3 v2 v1 v0` (R87). -/
def encodeFlagOp (op : BitVec 3) (mask : BitVec 5) : Word :=
  0x3060 ||| (op.setWidth 16 <<< 9) ||| ((mask.extractLsb' 4 1).setWidth 16 <<< 8) |||
    (mask.extractLsb' 0 4).setWidth 16

/-- Format MEM: `01 l/s o4 dddd o3 o2 o1 o0 bbbb` (R88). -/
def encodeMem (op : BitVec 3) (d : Reg) (o : Nat) (b : Reg) : Word :=
  (op.setWidth 16 <<< 13) ||| (((BitVec.ofNat 5 o).extractLsb' 4 1).setWidth 16 <<< 12) |||
    (d.toBits.setWidth 16 <<< 8) ||| (((BitVec.ofNat 5 o).extractLsb' 0 4).setWidth 16 <<< 4) |||
    b.toBits.setWidth 16

/-- Format BREG: `0001 cond 0000 bbbb` (R89). -/
def encodeBreg (cond : BitVec 4) (b : Reg) : Word := ofFields 0b0001 cond 0b0000 b.toBits

/-- The word of a well-formed instruction (R82 to R93). -/
def encode : Instr → Word
  | .setlo d v => encodeSet 0b1110 d.toBits v
  | .sethi d v => encodeSet 0b1111 d.toBits v
  | .and d a b => ofFields 0b1000 d.toBits a.toBits b.toBits
  | .or d a b => ofFields 0b1001 d.toBits a.toBits b.toBits
  | .add d a b => ofFields 0b1010 d.toBits a.toBits b.toBits
  | .sub d a b => ofFields 0b1011 d.toBits a.toBits b.toBits
  | .mul d a b => ofFields 0b1100 d.toBits a.toBits b.toBits
  | .xor d a b => ofFields 0b1101 d.toBits a.toBits b.toBits
  | .inc d delta => encodeIncDec 0b10 d delta
  | .dec d delta => encodeIncDec 0b11 d delta
  | .lsl d b => ofFields 0b0011 d.toBits 0b0000 b.toBits
  | .lsr d b => ofFields 0b0011 d.toBits 0b0001 b.toBits
  | .lsl8 d b => ofFields 0b0011 d.toBits 0b0010 b.toBits
  | .lsr8 d b => ofFields 0b0011 d.toBits 0b0011 b.toBits
  | .asl d b => ofFields 0b0011 d.toBits 0b0100 b.toBits
  | .asr d b => ofFields 0b0011 d.toBits 0b0101 b.toBits
  | .savef d => ofFields 0b0011 d.toBits 0b0111 0b0000
  | .rstrf d => ofFields 0b0011 d.toBits 0b0111 0b1000
  | .fon mask => encodeFlagOp 0b000 mask
  | .foff mask => encodeFlagOp 0b100 mask
  | .fset5 mask => encodeFlagOp 0b010 mask
  | .fset4 mask => encodeFlagOp 0b110 mask
  | .load d o b => encodeMem 0b010 d o b
  | .store d o b => encodeMem 0b011 d o b
  | .br b => encodeBreg 0b0000 b
  | .brr o => encodeSet 0b0000 0b0000 o
  | .bl b => encodeBreg 0b0010 b
  | .blr o => encodeSet 0b0000 0b0010 o
  | .bge b => encodeBreg 0b0011 b
  | .bger o => encodeSet 0b0000 0b0011 o
  | .ble b => encodeBreg 0b0100 b
  | .bler o => encodeSet 0b0000 0b0100 o
  | .bg b => encodeBreg 0b0101 b
  | .bgr o => encodeSet 0b0000 0b0101 o
  | .bule b => encodeBreg 0b0110 b
  | .buler o => encodeSet 0b0000 0b0110 o
  | .bug b => encodeBreg 0b0111 b
  | .bugr o => encodeSet 0b0000 0b0111 o
  | .bz b => encodeBreg 0b1000 b
  | .bzr o => encodeSet 0b0000 0b1000 o
  | .bnz b => encodeBreg 0b1001 b
  | .bnzr o => encodeSet 0b0000 0b1001 o
  | .bc b => encodeBreg 0b1010 b
  | .bcr o => encodeSet 0b0000 0b1010 o
  | .bnc b => encodeBreg 0b1011 b
  | .bncr o => encodeSet 0b0000 0b1011 o
  | .bs b => encodeBreg 0b1100 b
  | .bsr o => encodeSet 0b0000 0b1100 o
  | .bns b => encodeBreg 0b1101 b
  | .bnsr o => encodeSet 0b0000 0b1101 o
  | .bv b => encodeBreg 0b1110 b
  | .bvr o => encodeSet 0b0000 0b1110 o
  | .bnv b => encodeBreg 0b1111 b
  | .bnvr o => encodeSet 0b0000 0b1111 o
  | .call a b => ofFields 0b0010 0b0000 a.toBits b.toBits
  | .ret a b => ofFields 0b0010 0b0001 a.toBits b.toBits
  | .swi i => ofFields 0b0010 0b0010 0b0000 (BitVec.ofNat 4 i)
  | .rti => ofFields 0b0010 0b0011 0b0000 0b0000

end Sys2Proof
end

