-- ==== Sys2Proof/Config.lean ====
section
/-! DEFINITION. What a HERA system fixes and the ISA leaves open: the initial contents of the two memories
(free values, spec/00_scope.md R5) and the three addresses the spec fixes (R5, R58, R372). -/

namespace Sys2Proof

/-- INIT_DMEM: what a data cell holds that neither a data statement nor a STORE of the run has written
(spec/20_memory.md R57, spec/92_eei_decisions.md D10, D21). DESIGN CHOICE (log entry 3): a free value. It has
no body, so nothing can be proved of it but that a cell reads the same until it is stored to. Safe. -/
opaque Config.initDMem : Word → Word

/-- What an instruction cell holds that the loader has not filled (spec/70_reset_and_hazards.md R372,
spec/93_implementation_defined.md U12). DESIGN CHOICE (log entry 4): a free value, as `initDMem`. Safe. -/
opaque Config.initIMem : Word → Word

/-- RESET_PC, the address of the first instruction executed (spec/00_scope.md R5; D8). -/
def Config.resetPc : Word := 0x0000

/-- CODE_BASE, the instruction address where the loader puts a program's first word (R5; D22). -/
def Config.codeBase : Word := 0x0000

/-- DATA_BASE, the data address of a program's first data statement (R5; D22). -/
def Config.dataBase : Word := 0xC001

end Sys2Proof
end

