-- ==== Sys2Proof/Machine/State.lean ====
section
/-! DEFINITION. The state of a HERA machine as plain data (spec/10_state.md R20 to R33), the reasons a step has
no next state, and the state after reset (R33, spec/70_reset_and_hazards.md R370). -/

namespace Sys2Proof.Machine

/-- The fifteen registers that hold a value. R0 is the constant 0 and has no storage (R20, R21, R33). -/
structure Regs where
  /-- R1 -/
  r1 : Word
  /-- R2 -/
  r2 : Word
  /-- R3 -/
  r3 : Word
  /-- R4 -/
  r4 : Word
  /-- R5 -/
  r5 : Word
  /-- R6 -/
  r6 : Word
  /-- R7 -/
  r7 : Word
  /-- R8 -/
  r8 : Word
  /-- R9 -/
  r9 : Word
  /-- R10 -/
  r10 : Word
  /-- R11, Rt by convention -/
  r11 : Word
  /-- R12, FP_alt by convention -/
  r12 : Word
  /-- R13, PC_ret by convention -/
  r13 : Word
  /-- R14, FP: CALL and RETURN exchange it with Ra -/
  r14 : Word
  /-- R15, SP by convention -/
  r15 : Word
  deriving DecidableEq, Repr

/-- The flags register F: five one-bit flags, all 32 values legal, no reserved bit (R26, R29). -/
structure Flags where
  /-- F0, sign -/
  s : Bool
  /-- F1, zero -/
  z : Bool
  /-- F2, overflow -/
  v : Bool
  /-- F3, carry; after SUB and DEC, no borrow -/
  c : Bool
  /-- F4, carry-block -/
  cb : Bool
  deriving DecidableEq, Repr

/-- A memory of 16-bit cells (spec/20_memory.md R50, R51): the cells that have been written or loaded, as pairs
of cell address and value in strictly rising address order. The cell is the smallest unit: there are no bytes
(R54). A cell that is not listed holds its initial content, a free value of `Config` (log entries 3 and 4). -/
abbrev Memory := List (Nat × Word)

/-- The whole state of the machine (R20 to R32). The instruction memory is a parameter of a run in the spec
(R51); it is a field here because a step takes nothing but the state, and no step changes it (log entry 2). -/
structure State where
  /-- R1 to R15. -/
  regs : Regs
  /-- PC: the address of the instruction that the next step executes (R24). -/
  pc : Word
  /-- F (R26). -/
  flags : Flags
  /-- The data memory DMem (R50). -/
  dmem : Memory
  /-- The instruction memory IMem (R51). -/
  imem : Memory
  deriving DecidableEq, Repr

/-- Faults. There are none: no instruction raises an exception and there is no trap state (spec/60_exceptions.md
R341, R355), so this type has no constructor and no step can end in a fault. Safe: it claims less than the
hardware might do nowhere, since the spec gives the machine no fault at all. -/
inductive Fault where
  deriving DecidableEq, Repr

/-- Why a step has no next state (spec/00_scope.md R12: the step is refused and the run is not final). All are
safe: the model claims nothing of what the hardware does there. -/
inductive Refusal where
  /-- An instruction without a meaning in this model. Raised by nothing: every instruction has one. Safe. -/
  | notModelled (mnemonic : String)
  /-- Raised by `step` when the fetched word decodes to no instruction; the class is R100's. Safe. -/
  | unspecifiedWord (c : WordClass)
  /-- UNSPECIFIED(mul_flag_mode): raised by MUL when carry-block is off and the other flags select none of the
  defined modes (spec/41_alu.md R136). Safe. -/
  | mulFlagMode
  /-- UNSPECIFIED(call_register_clash): raised by CALL and RETURN when their simultaneous assignments give one
  register two values (spec/47_call_return.md R263). Safe. -/
  | callRegisterClash
  /-- UNSPECIFIED(swi): raised by SWI, a reserved name whose behaviour no rule gives (spec/48_swi_rti.md R280).
  Safe. -/
  | swi (i : Nat)
  /-- UNSPECIFIED(rti): raised by RTI, a reserved name whose behaviour no rule gives (R281). Safe. -/
  | rti
  deriving DecidableEq, Repr

/-- What a step or an instruction answers. -/
abbrev Result := Host.Outcome State Fault Refusal

/-- R1 to R15 all 0x0000 (R33; D8). -/
def Regs.zero : Regs := ⟨0, 0, 0, 0, 0, 0, 0, 0, 0, 0, 0, 0, 0, 0, 0⟩

/-- The state after reset with the parameter RESET_FLAGS = `f` (R33, R370; D9): PC at RESET_PC, every register 0,
nothing written to either memory. -/
def State.resetWith (f : Flags) : State :=
  { regs := Regs.zero, pc := Config.resetPc, flags := f, dmem := [], imem := [] }

/-- The state after reset. DESIGN CHOICE (log entry 1), unsafe: the spec leaves the five flags open
(RESET_FLAGS, D9); here they are all false. `State.resetWith` gives the other 31 cases. -/
def State.reset : State := State.resetWith ⟨false, false, false, false, false⟩

end Sys2Proof.Machine
end

