-- ==== Sys2Proof/Machine/Ops.lean ====
section
/-! DEFINITION. The named operations over registers, flags, PC and the two memories (spec/00_scope.md R8, R10,
R11). Every read and write of the machine goes through them. There is no operation that takes an exception: the
spec defines no trap entry and no trap return (spec/60_exceptions.md R341, R344, R345). -/

namespace Sys2Proof.Machine

/-! ### Registers -/

/-- `x[i]`: R0 reads 0, every other register its value (R8, R21). -/
def Regs.get (x : Regs) : Reg → Word
  | .r0 => 0
  | .r1 => x.r1
  | .r2 => x.r2
  | .r3 => x.r3
  | .r4 => x.r4
  | .r5 => x.r5
  | .r6 => x.r6
  | .r7 => x.r7
  | .r8 => x.r8
  | .r9 => x.r9
  | .r10 => x.r10
  | .r11 => x.r11
  | .r12 => x.r12
  | .r13 => x.r13
  | .r14 => x.r14
  | .r15 => x.r15

/-- `x[i] <- v`: a write to R0 has no effect (R8, R21). -/
def Regs.set (x : Regs) (i : Reg) (v : Word) : Regs :=
  match i with
  | .r0 => x
  | .r1 => { x with r1 := v }
  | .r2 => { x with r2 := v }
  | .r3 => { x with r3 := v }
  | .r4 => { x with r4 := v }
  | .r5 => { x with r5 := v }
  | .r6 => { x with r6 := v }
  | .r7 => { x with r7 := v }
  | .r8 => { x with r8 := v }
  | .r9 => { x with r9 := v }
  | .r10 => { x with r10 := v }
  | .r11 => { x with r11 := v }
  | .r12 => { x with r12 := v }
  | .r13 => { x with r13 := v }
  | .r14 => { x with r14 := v }
  | .r15 => { x with r15 := v }

/-- `x[i]` in a state. -/
def State.reg (s : State) (i : Reg) : Word := s.regs.get i

/-- `x[i] <- v` in a state. -/
def State.setReg (s : State) (i : Reg) (v : Word) : State := { s with regs := s.regs.set i v }

/-- `F <- f`. -/
def State.setFlags (s : State) (f : Flags) : State := { s with flags := f }

/-! ### Program counter -/

/-- `pc <- target`. -/
def State.setPc (s : State) (target : Word) : State := { s with pc := target }

/-- `(pc + 1) mod 2^16`, "the usual update PC ← PC + 1" (R11, R24; the wrap is D3, log entry 5). -/
def State.nextPc (s : State) : Word := s.pc + 1

/-- The end of an instruction that writes no register and does not branch: the flags, then the usual PC update. -/
def State.retireFlags (s : State) (f : Flags) : State := (s.setFlags f).setPc s.nextPc

/-- The end of an instruction that writes Rd and does not branch: Rd, the flags, then the usual PC update (R11). -/
def State.retire (s : State) (d : Reg) (r : Word) (f : Flags) : State := (s.setReg d r).retireFlags f

/-! ### Memories -/

/-- The value recorded for cell `a`, if the cell has been written or loaded. -/
def Memory.find (m : Memory) (a : Nat) : Option Word :=
  match m with
  | [] => none
  | (k, v) :: rest => if a = k then some v else Memory.find rest a

/-- Record `v` for cell `a`, in its place in the address order; a value recorded before is replaced. -/
def Memory.write (m : Memory) (a : Nat) (v : Word) : Memory :=
  match m with
  | [] => [(a, v)]
  | (k, u) :: rest =>
    if a < k then (a, v) :: (k, u) :: rest
    else if a = k then (a, v) :: rest
    else (k, u) :: Memory.write rest a v

/-- Addresses at least `lo`, strictly rising, all below 2^16. -/
def Memory.wfFrom (lo : Nat) (m : Memory) : Bool :=
  match m with
  | [] => true
  | (k, _) :: rest => decide (lo ≤ k) && decide (k < 65536) && Memory.wfFrom (k + 1) rest

/-- The canonical form: addresses strictly rising, each one of the 2^16 cells (R50, R51). Two memories in this
form that record the same values are equal. -/
def Memory.wf (m : Memory) : Bool := Memory.wfFrom 0 m

/-- `MemRead(a, 1)`: the content of data cell `a` (R10, R53). A cell that nothing has written holds its INIT_DMEM
content (R57). -/
def State.dataCell (s : State) (a : Word) : Word := (Memory.find s.dmem a.toNat).getD (Config.initDMem a)

/-- `MemWrite(a, 1, v)`: data cell `a` holds `v` from now on (R10, R53). -/
def State.writeData (s : State) (a v : Word) : State := { s with dmem := Memory.write s.dmem a.toNat v }

/-- `IMem[a]`: the instruction word at instruction address `a` (R10, R51). A cell that the loader has not filled
holds an arbitrary word (R372). -/
def State.instrCell (s : State) (a : Word) : Word := (Memory.find s.imem a.toNat).getD (Config.initIMem a)

/-- The loader's write of one instruction cell: no instruction does this (R51, R372). -/
def State.writeInstr (s : State) (a v : Word) : State := { s with imem := Memory.write s.imem a.toNat v }

/-- `ir <- IMem[pc]` (R11). -/
def State.fetch (s : State) : Word := s.instrCell s.pc

end Sys2Proof.Machine
end

