-- ==== Sys2Proof/Machine/Operands.lean ====
section
/-! DEFINITION. The operand forms: how each immediate of spec/30_encoding.md R94 becomes a value, the one
addressing mode of LOAD and STORE (spec/45_loadstore.md R202) and the two kinds of branch target
(spec/46_branch.md R210). -/

namespace Sys2Proof.Machine

/-- `sext_8(v)`: bits 15:8 all become bit 7 (spec/00_scope.md R7). -/
def sext8 (v : BitVec 8) : Word := v.signExtend 16

/-- SETHI's result: `v` in bits 15:8 over the low byte of `x` (spec/40_set.md R121). -/
def withHighByte (v : BitVec 8) (x : Word) : Word := (v.setWidth 16 <<< 8) ||| (x &&& 0x00FF)

/-- The effective address `(x[b] + o) mod 2^16` (spec/20_memory.md R56; the wrap is D4, log entry 6). -/
def State.effAddr (s : State) (b : Reg) (o : Nat) : Word := s.reg b + BitVec.ofNat 16 o

/-- The target of a register-mode branch: the value of Rb (R210). -/
def State.regTarget (s : State) (b : Reg) : Word := s.reg b

/-- The target of a relative branch: `(pc + sext_8(o)) mod 2^16`, counted from the branch itself (R210, R242). -/
def State.relTarget (s : State) (o : BitVec 8) : Word := s.pc + sext8 o

end Sys2Proof.Machine
end

