-- ==== Sys2Proof/Machine/Flags.lean ====
section
/-! DEFINITION. Every flag computation: F as a 5-bit value, the carry and borrow taken in, s and z from a result,
c and v of the arithmetic instructions from exact integers (spec/41_alu.md R130 to R135), MUL's modes (R134) and
the branch conditions (spec/46_branch.md R210). -/

namespace Sys2Proof.Machine

/-! ### F as a 5-bit value -/

/-- F as a number: bit 0 = s, 1 = z, 2 = v, 3 = c, 4 = carry-block (spec/10_state.md R26). -/
def Flags.toBits (f : Flags) : BitVec 5 :=
  BitVec.ofNat 5 (f.s.toNat + 2 * f.z.toNat + 4 * f.v.toNat + 8 * f.c.toNat + 16 * f.cb.toNat)

/-- The flags a 5-bit value stands for (R26). -/
def Flags.ofBits (n : BitVec 5) : Flags :=
  { s := n.getLsbD 0, z := n.getLsbD 1, v := n.getLsbD 2, c := n.getLsbD 3, cb := n.getLsbD 4 }

/-! ### Flags taken in -/

/-- `cin = F.c & !F.cb`, the carry that ADD, LSL, LSR and ASL take in (spec/00_scope.md R9, R28). -/
def Flags.carryIn (f : Flags) : Bool := f.c && !f.cb

/-- `bin = !F.c & !F.cb`, the borrow that SUB takes in (R9, R28). -/
def Flags.borrowIn (f : Flags) : Bool := !f.c && !f.cb

/-! ### Flags given out -/

/-- `setSZ(r)`: s is bit 15 of the result, z whether the result is 0 (R9, R130). -/
def Flags.setSZ (f : Flags) (r : Word) : Flags := { f with s := r.msb, z := decide (r = 0) }

/-- A result and the flags after it. -/
structure Computed where
  /-- The 16-bit result. -/
  result : Word
  /-- The flags the instruction leaves. -/
  flags : Flags
  deriving DecidableEq, Repr

/-- The exact signed value does not fit in -32768..32767 (R131, R132, R135). -/
def signedOverflow (n : Int) : Bool := decide (n < -32768) || decide (32767 < n)

/-- s and z from `r`, c and v as given, carry-block kept: the flags of the arithmetic instructions (R130). -/
def Flags.arith (f : Flags) (r : Word) (c v : Bool) : Flags := { f.setSZ r with c := c, v := v }

/-- A sum, from its exact unsigned value `usum` and its exact signed value `ssum`: the formulas that ADD and INC
share (R131, R133, R150). -/
def computeSum (f : Flags) (usum : Nat) (ssum : Int) : Computed :=
  let r := BitVec.ofNat 16 usum
  ⟨r, f.arith r (decide (65536 ≤ usum)) (signedOverflow ssum)⟩

/-- A difference, from its exact unsigned and signed values: the formulas that SUB and DEC share. c means "no
borrow" (R132, R133, R151; D2). -/
def computeDiff (f : Flags) (udiff sdiff : Int) : Computed :=
  let r := BitVec.ofInt 16 udiff
  ⟨r, f.arith r (decide (0 ≤ udiff)) (signedOverflow sdiff)⟩

/-- ADD of `x` and `y` with carry-in: both tests count the incoming carry (R131; D1). -/
def addWords (f : Flags) (x y : Word) : Computed :=
  computeSum f (x.toNat + y.toNat + f.carryIn.toNat) (x.toInt + y.toInt + f.carryIn.toNat)

/-- SUB of `y` from `x` with borrow-in: both tests count the incoming borrow (R132; D1, D2). -/
def subWords (f : Flags) (x y : Word) : Computed :=
  computeDiff f ((x.toNat : Int) - y.toNat - f.borrowIn.toNat) (x.toInt - y.toInt - f.borrowIn.toNat)

/-- INC by `delta`: the sum with no carry-in (R133, R150). -/
def incWord (f : Flags) (x : Word) (delta : Nat) : Computed :=
  computeSum f (x.toNat + delta) (x.toInt + delta)

/-- DEC by `delta`: the difference with no borrow-in (R133, R151). -/
def decWord (f : Flags) (x : Word) (delta : Nat) : Computed :=
  computeDiff f ((x.toNat : Int) - delta) (x.toInt - delta)

/-- Which result MUL produces (R134). -/
inductive MulMode where
  | low
  | highSigned
  | undefined
  deriving DecidableEq, Repr

/-- MUL's mode by the flags before it (R134): carry-block on, or all flags off, gives the low word; s alone
gives the signed high word; the other fourteen values have no defined result (R136). -/
def Flags.mulMode (f : Flags) : MulMode :=
  if f.cb then .low
  else if f.c || f.v || f.z then .undefined
  else if f.s then .highSigned
  else .low

/-- The flags of MUL in either defined mode: s and z of the word produced, c and v of the exact products
(R135; D12, log entry 9). -/
def mulFlags (f : Flags) (x y r : Word) : Flags :=
  f.arith r (decide (65536 ≤ x.toNat * y.toNat)) (signedOverflow (x.toInt * y.toInt))

/-- MUL in LOW mode: bits 15:0 of the product (R134, R135). -/
def mulLow (f : Flags) (x y : Word) : Computed :=
  let r := BitVec.ofNat 16 (x.toNat * y.toNat)
  ⟨r, mulFlags f x y r⟩

/-- MUL in HIGH_SIGNED mode: `floor(s(x) * s(y) / 2^16) mod 2^16` (R134, R135). -/
def mulHighSigned (f : Flags) (x y : Word) : Computed :=
  let r := BitVec.ofInt 16 (x.toInt * y.toInt / 65536)
  ⟨r, mulFlags f x y r⟩

/-- A bit-wise result: s and z from it, the other flags kept (R130, R137 to R139); also the eight-bit shifts
(spec/43_shift.md R162, R163) and LOAD (spec/45_loadstore.md R200). -/
def computeSZ (f : Flags) (r : Word) : Computed := ⟨r, f.setSZ r⟩

/-- A one-bit shift: s and z from the result, c the bit shifted out, v and carry-block kept (R166). -/
def computeShift (f : Flags) (r : Word) (out : Bool) : Computed := ⟨r, { f.setSZ r with c := out }⟩

/-- Left shift by one with `cin` into bit 0 (R160, R164). -/
def shiftLeftIn (x : Word) (cin : Bool) : Word := (x <<< 1) ||| (BitVec.ofBool cin).setWidth 16

/-- Right shift by one with `top` into bit 15 (R161, R165). -/
def shiftRightIn (top : Bool) (x : Word) : Word := (x >>> 1) ||| ((BitVec.ofBool top).setWidth 16 <<< 15)

/-- Retire with a computed result in Rd and the computed flags. -/
def State.retireComputed (s : State) (d : Reg) (k : Computed) : State := s.retire d k.result k.flags

/-! ### Branch conditions -/

/-- The condition table of R210: whether the branch is taken. -/
def Cond.holds (cond : Cond) (f : Flags) : Bool :=
  match cond with
  | .always => true
  | .l => f.s ^^ f.v
  | .ge => !(f.s ^^ f.v)
  | .le => (f.s ^^ f.v) || f.z
  | .g => !((f.s ^^ f.v) || f.z)
  | .ule => !f.c || f.z
  | .ug => !(!f.c || f.z)
  | .z => f.z
  | .nz => !f.z
  | .c => f.c
  | .nc => !f.c
  | .s => f.s
  | .ns => !f.s
  | .v => f.v
  | .nv => !f.v

end Sys2Proof.Machine
end

