-- ==== Sys2Proof/Machine/Alu.lean ====
section
/-! DEFINITION. The three-address instructions AND, OR, ADD, SUB, MUL, XOR (spec/41_alu.md R130 to R141). With
d = R0 the result is discarded and the flags are still written (R21). -/

namespace Sys2Proof.Machine

/-- AND(d, a, b): bit-wise and; s and z (R137). -/
def execAnd (d a b : Reg) (s : State) : Result :=
  .next (s.retireComputed d (computeSZ s.flags (s.reg a &&& s.reg b)))

/-- OR(d, a, b): bit-wise or; s and z (R138). -/
def execOr (d a b : Reg) (s : State) : Result :=
  .next (s.retireComputed d (computeSZ s.flags (s.reg a ||| s.reg b)))

/-- ADD(d, a, b): add with carry unless blocked; s, z, v, c (R131). -/
def execAdd (d a b : Reg) (s : State) : Result :=
  .next (s.retireComputed d (addWords s.flags (s.reg a) (s.reg b)))

/-- SUB(d, a, b): subtract with borrow unless blocked; s, z, v, c (R132). -/
def execSub (d a b : Reg) (s : State) : Result :=
  .next (s.retireComputed d (subWords s.flags (s.reg a) (s.reg b)))

/-- MUL(d, a, b): the low or the signed high word of the product, by the flags before it; s, z, v, c (R134,
R135). In the fourteen undefined modes the step is refused, whatever d, a and b are (R136; D13). -/
def execMul (d a b : Reg) (s : State) : Result :=
  match s.flags.mulMode with
  | .low => .next (s.retireComputed d (mulLow s.flags (s.reg a) (s.reg b)))
  | .highSigned => .next (s.retireComputed d (mulHighSigned s.flags (s.reg a) (s.reg b)))
  | .undefined => .refused .mulFlagMode

/-- XOR(d, a, b): bit-wise exclusive or; s and z (R139). -/
def execXor (d a b : Reg) (s : State) : Result :=
  .next (s.retireComputed d (computeSZ s.flags (s.reg a ^^^ s.reg b)))

end Sys2Proof.Machine
end

