-- ==== Sys2Proof/Machine/Branch.lean ====
section
/-! DEFINITION. The thirty branches (spec/46_branch.md R210 to R245). No branch writes a register, a flag or
memory; there is no delay slot (R245). HALT and NOP are the words BRR(0) and BRR(1) (R241). -/

namespace Sys2Proof.Machine

/-- The shared operation of R210: to `target` if the condition holds, else to the next instruction. -/
def State.branchTo (s : State) (cond : Cond) (target : Word) : State :=
  s.setPc (if Cond.holds cond s.flags then target else s.nextPc)

/-- A register-mode branch (R210). -/
def State.branchReg (s : State) (cond : Cond) (b : Reg) : State := s.branchTo cond (s.regTarget b)

/-- A relative branch (R210). -/
def State.branchRel (s : State) (cond : Cond) (o : BitVec 8) : State := s.branchTo cond (s.relTarget o)

/-- BR(b): branch always, to the address in Rb (R211). -/
def execBr (b : Reg) (s : State) : Result := .next (s.branchReg .always b)

/-- BRR(o): branch always, relative to this instruction (R212). -/
def execBrr (o : BitVec 8) (s : State) : Result := .next (s.branchRel .always o)

/-- BL(b): branch if less than, signed, to the address in Rb (R213). -/
def execBl (b : Reg) (s : State) : Result := .next (s.branchReg .l b)

/-- BLR(o): branch if less than, signed, relative to this instruction (R214). -/
def execBlr (o : BitVec 8) (s : State) : Result := .next (s.branchRel .l o)

/-- BGE(b): branch if greater than or equal, signed, to the address in Rb (R215). -/
def execBge (b : Reg) (s : State) : Result := .next (s.branchReg .ge b)

/-- BGER(o): branch if greater than or equal, signed, relative to this instruction (R216). -/
def execBger (o : BitVec 8) (s : State) : Result := .next (s.branchRel .ge o)

/-- BLE(b): branch if less than or equal, signed, to the address in Rb (R217). -/
def execBle (b : Reg) (s : State) : Result := .next (s.branchReg .le b)

/-- BLER(o): branch if less than or equal, signed, relative to this instruction (R218). -/
def execBler (o : BitVec 8) (s : State) : Result := .next (s.branchRel .le o)

/-- BG(b): branch if greater than, signed, to the address in Rb (R219). -/
def execBg (b : Reg) (s : State) : Result := .next (s.branchReg .g b)

/-- BGR(o): branch if greater than, signed, relative to this instruction (R220). -/
def execBgr (o : BitVec 8) (s : State) : Result := .next (s.branchRel .g o)

/-- BULE(b): branch if less than or equal, unsigned, to the address in Rb (R221). -/
def execBule (b : Reg) (s : State) : Result := .next (s.branchReg .ule b)

/-- BULER(o): branch if less than or equal, unsigned, relative to this instruction (R222). -/
def execBuler (o : BitVec 8) (s : State) : Result := .next (s.branchRel .ule o)

/-- BUG(b): branch if greater than, unsigned, to the address in Rb (R223). -/
def execBug (b : Reg) (s : State) : Result := .next (s.branchReg .ug b)

/-- BUGR(o): branch if greater than, unsigned, relative to this instruction (R224). -/
def execBugr (o : BitVec 8) (s : State) : Result := .next (s.branchRel .ug o)

/-- BZ(b): branch if zero, to the address in Rb (R225). -/
def execBz (b : Reg) (s : State) : Result := .next (s.branchReg .z b)

/-- BZR(o): branch if zero, relative to this instruction (R226). -/
def execBzr (o : BitVec 8) (s : State) : Result := .next (s.branchRel .z o)

/-- BNZ(b): branch if not zero, to the address in Rb (R227). -/
def execBnz (b : Reg) (s : State) : Result := .next (s.branchReg .nz b)

/-- BNZR(o): branch if not zero, relative to this instruction (R228). -/
def execBnzr (o : BitVec 8) (s : State) : Result := .next (s.branchRel .nz o)

/-- BC(b): branch if carry, to the address in Rb (R229). -/
def execBc (b : Reg) (s : State) : Result := .next (s.branchReg .c b)

/-- BCR(o): branch if carry, relative to this instruction (R230). -/
def execBcr (o : BitVec 8) (s : State) : Result := .next (s.branchRel .c o)

/-- BNC(b): branch if no carry, to the address in Rb (R231). -/
def execBnc (b : Reg) (s : State) : Result := .next (s.branchReg .nc b)

/-- BNCR(o): branch if no carry, relative to this instruction (R232). -/
def execBncr (o : BitVec 8) (s : State) : Result := .next (s.branchRel .nc o)

/-- BS(b): branch if sign, to the address in Rb (R233). -/
def execBs (b : Reg) (s : State) : Result := .next (s.branchReg .s b)

/-- BSR(o): branch if sign, relative to this instruction (R234). -/
def execBsr (o : BitVec 8) (s : State) : Result := .next (s.branchRel .s o)

/-- BNS(b): branch if no sign, to the address in Rb (R235). -/
def execBns (b : Reg) (s : State) : Result := .next (s.branchReg .ns b)

/-- BNSR(o): branch if no sign, relative to this instruction (R236). -/
def execBnsr (o : BitVec 8) (s : State) : Result := .next (s.branchRel .ns o)

/-- BV(b): branch if overflow, to the address in Rb (R237). -/
def execBv (b : Reg) (s : State) : Result := .next (s.branchReg .v b)

/-- BVR(o): branch if overflow, relative to this instruction (R238). -/
def execBvr (o : BitVec 8) (s : State) : Result := .next (s.branchRel .v o)

/-- BNV(b): branch if no overflow, to the address in Rb (R239). -/
def execBnv (b : Reg) (s : State) : Result := .next (s.branchReg .nv b)

/-- BNVR(o): branch if no overflow, relative to this instruction (R240). -/
def execBnvr (o : BitVec 8) (s : State) : Result := .next (s.branchRel .nv o)

end Sys2Proof.Machine
end

