-- ==== Sys2Proof/Machine/CallReturn.lean ====
section
/-! DEFINITION. CALL and RETURN (spec/47_call_return.md R260 to R263): one operation under two opcodes. Memory,
flags and SP are not touched. -/

namespace Sys2Proof.Machine

/-- The operand pairs whose simultaneous assignments give one register two different values: a = b other than
R0, or b = R14 (R263). -/
def callClash (a b : Reg) : Bool := (decide (a = b) && !decide (a = .r0)) || decide (b = .r14)

/-- The exchange of R260, all right-hand sides from before the instruction: Rb gets the return address, FP gets
Ra, Ra gets the old FP, PC gets Rb. -/
def State.swapTransfer (s : State) (a b : Reg) : State :=
  (((s.setReg b s.nextPc).setReg .fp (s.reg a)).setReg a (s.reg .fp)).setPc (s.reg b)

/-- The operation behind both mnemonics (R260), refused where two values meet in one register (R263; D17). -/
def callOrReturn (a b : Reg) (s : State) : Result :=
  if callClash a b then .refused .callRegisterClash else .next (s.swapTransfer a b)

/-- CALL(a, b): call the function at Rb with its frame at Ra (R261). -/
def execCall (a b : Reg) (s : State) : Result := callOrReturn a b s

/-- RETURN(a, b): return to Rb with the caller's FP in Ra; the same operation as CALL (R262). -/
def execRet (a b : Reg) (s : State) : Result := callOrReturn a b s

end Sys2Proof.Machine
end

