-- ==== Sys2Proof/Machine/FlagOps.lean ====
section
/-! DEFINITION. Direct manipulation of the flags: SAVEF, RSTRF, FON, FOFF, FSET5, FSET4 (spec/44_flags.md R180
to R187). Any program may execute them: there is no privilege (spec/60_exceptions.md R350). -/

namespace Sys2Proof.Machine

/-- SAVEF(d): Rd becomes F, zero-extended; no flag changes (R180; D11, log entry 8). -/
def execSavef (d : Reg) (s : State) : Result := .next (s.retire d (s.flags.toBits.setWidth 16) s.flags)

/-- RSTRF(d): F becomes bits 4:0 of Rd; bits 15:5 are ignored (R181; D11, log entry 8). -/
def execRstrf (d : Reg) (s : State) : Result := .next (s.retireFlags (Flags.ofBits ((s.reg d).extractLsb' 0 5)))

/-- FON(v): set the flags the mask names (R182). -/
def execFon (mask : BitVec 5) (s : State) : Result :=
  .next (s.retireFlags (Flags.ofBits (s.flags.toBits ||| mask)))

/-- FOFF(v): clear the flags the mask names (R183). -/
def execFoff (mask : BitVec 5) (s : State) : Result :=
  .next (s.retireFlags (Flags.ofBits (s.flags.toBits &&& ~~~mask)))

/-- FSET5(v): all five flags become the mask (R184). -/
def execFset5 (mask : BitVec 5) (s : State) : Result := .next (s.retireFlags (Flags.ofBits mask))

/-- FSET4(v): s, z, v, c become the low four mask bits; carry-block stays and mask bit 4 has no effect (R185;
D19, log entry 11). -/
def execFset4 (mask : BitVec 5) (s : State) : Result :=
  .next (s.retireFlags { Flags.ofBits mask with cb := s.flags.cb })

end Sys2Proof.Machine
end

