-- ==== Sys2Proof/Machine/IncDec.lean ====
section
/-! DEFINITION. INC and DEC (spec/42_incdec.md R150 to R152): flags as ADD and SUB would, the incoming carry
always ignored. -/

namespace Sys2Proof.Machine

/-- INC(d, δ): Rd plus δ; s, z, v, c (R150). -/
def execInc (d : Reg) (delta : Nat) (s : State) : Result :=
  .next (s.retireComputed d (incWord s.flags (s.reg d) delta))

/-- DEC(d, δ): Rd minus δ; s, z, v, c (R151). -/
def execDec (d : Reg) (delta : Nat) (s : State) : Result :=
  .next (s.retireComputed d (decWord s.flags (s.reg d) delta))

end Sys2Proof.Machine
end

