-- ==== Sys2Proof/Machine/LoadStore.lean ====
section
/-! DEFINITION. LOAD and STORE, the only instructions that reach the data memory (spec/45_loadstore.md R200 to
R203, spec/20_memory.md R50 to R60). Every address is a cell: no access faults (R55, R59). -/

namespace Sys2Proof.Machine

/-- LOAD(d, o, b): Rd becomes the cell at Rb + o; s and z from it (R200). -/
def execLoad (d : Reg) (o : Nat) (b : Reg) (s : State) : Result :=
  .next (s.retireComputed d (computeSZ s.flags (s.dataCell (s.effAddr b o))))

/-- STORE(d, o, b): the cell at Rb + o becomes Rd; no register and no flag changes (R201). -/
def execStore (d : Reg) (o : Nat) (b : Reg) (s : State) : Result :=
  .next ((s.writeData (s.effAddr b o) (s.reg d)).setPc s.nextPc)

end Sys2Proof.Machine
end

