-- ==== Sys2Proof/Machine/Reserved.lean ====
section
/-! DEFINITION. The codes reserved for interrupt processing (spec/48_swi_rti.md R280, R281). The spec gives their
names and encodings and no effect at all; executing them is refused (D15). -/

namespace Sys2Proof.Machine

/-- SWI(i): UNSPECIFIED(swi) (R280). -/
def execSwi (i : Nat) (_s : State) : Result := .refused (.swi i)

/-- RTI(): UNSPECIFIED(rti) (R281). -/
def execRti (_s : State) : Result := .refused .rti

end Sys2Proof.Machine
end

