-- ==== Sys2Proof/Machine/SetConst.lean ====
section
/-! DEFINITION. SETLO and SETHI (spec/40_set.md R120 to R122). Neither reads or writes a flag. -/

namespace Sys2Proof.Machine

/-- SETLO(d, v): Rd becomes the sign-extended immediate (R120). -/
def execSetlo (d : Reg) (v : BitVec 8) (s : State) : Result := .next (s.retire d (sext8 v) s.flags)

/-- SETHI(d, v): bits 15:8 of Rd become the immediate, the low byte stays (R121). -/
def execSethi (d : Reg) (v : BitVec 8) (s : State) : Result := .next (s.retire d (withHighByte v (s.reg d)) s.flags)

end Sys2Proof.Machine
end

