-- ==== Sys2Proof/Machine/Shift.lean ====
section
/-! DEFINITION. The shifts LSL, LSR, LSL8, LSR8, ASL, ASR (spec/43_shift.md R160 to R166). -/

namespace Sys2Proof.Machine

/-- LSL(d, b): left by one, the usable carry into bit 0; s, z, c (R160). -/
def execLsl (d b : Reg) (s : State) : Result :=
  .next (s.retireComputed d
    (computeShift s.flags (shiftLeftIn (s.reg b) s.flags.carryIn) ((s.reg b).getLsbD 15)))

/-- LSR(d, b): right by one, the usable carry into bit 15; s, z, c (R161). -/
def execLsr (d b : Reg) (s : State) : Result :=
  .next (s.retireComputed d
    (computeShift s.flags (shiftRightIn s.flags.carryIn (s.reg b)) ((s.reg b).getLsbD 0)))

/-- LSL8(d, b): left by eight, zeros in; s, z (R162). -/
def execLsl8 (d b : Reg) (s : State) : Result :=
  .next (s.retireComputed d (computeSZ s.flags (s.reg b <<< 8)))

/-- LSR8(d, b): right by eight, zeros in; s, z (R163). -/
def execLsr8 (d b : Reg) (s : State) : Result :=
  .next (s.retireComputed d (computeSZ s.flags (s.reg b >>> 8)))

/-- v of ASL: the signed overflow of doubling, bit 15 differing from bit 14 (R164). -/
def aslOverflow (x : Word) : Bool := x.getLsbD 15 ^^ x.getLsbD 14

/-- ASL(d, b): left by one, the usable carry into bit 0; s, z, c, and v as ADD(d, b, b) would set it (R164). -/
def execAsl (d b : Reg) (s : State) : Result :=
  .next (s.retireComputed d
    (computeShift { s.flags with v := aslOverflow (s.reg b) }
      (shiftLeftIn (s.reg b) s.flags.carryIn) ((s.reg b).getLsbD 15)))

/-- ASR(d, b): right by one, bit 15 kept; s, z, c; reads no flag (R165; D18, log entry 10). -/
def execAsr (d b : Reg) (s : State) : Result :=
  .next (s.retireComputed d
    (computeShift s.flags (shiftRightIn ((s.reg b).getLsbD 15) (s.reg b)) ((s.reg b).getLsbD 0)))

end Sys2Proof.Machine
end

