-- ==== Sys2Proof/Machine/Dispatch.lean ====
section
/-! DEFINITION. The dispatch: one arm per instruction, in the order of spec/opcode_table.json. -/

namespace Sys2Proof.Machine

def exec (i : Instr) (s : State) : Host.Outcome State Fault Refusal :=
  match i with
  | .setlo d v => Sys2Proof.Machine.execSetlo d v s
  | .sethi d v => Sys2Proof.Machine.execSethi d v s
  | .and d a b => Sys2Proof.Machine.execAnd d a b s
  | .or d a b => Sys2Proof.Machine.execOr d a b s
  | .add d a b => Sys2Proof.Machine.execAdd d a b s
  | .sub d a b => Sys2Proof.Machine.execSub d a b s
  | .mul d a b => Sys2Proof.Machine.execMul d a b s
  | .xor d a b => Sys2Proof.Machine.execXor d a b s
  | .inc d delta => Sys2Proof.Machine.execInc d delta s
  | .dec d delta => Sys2Proof.Machine.execDec d delta s
  | .lsl d b => Sys2Proof.Machine.execLsl d b s
  | .lsr d b => Sys2Proof.Machine.execLsr d b s
  | .lsl8 d b => Sys2Proof.Machine.execLsl8 d b s
  | .lsr8 d b => Sys2Proof.Machine.execLsr8 d b s
  | .asl d b => Sys2Proof.Machine.execAsl d b s
  | .asr d b => Sys2Proof.Machine.execAsr d b s
  | .savef d => Sys2Proof.Machine.execSavef d s
  | .rstrf d => Sys2Proof.Machine.execRstrf d s
  | .fon mask => Sys2Proof.Machine.execFon mask s
  | .foff mask => Sys2Proof.Machine.execFoff mask s
  | .fset5 mask => Sys2Proof.Machine.execFset5 mask s
  | .fset4 mask => Sys2Proof.Machine.execFset4 mask s
  | .load d o b => Sys2Proof.Machine.execLoad d o b s
  | .store d o b => Sys2Proof.Machine.execStore d o b s
  | .br b => Sys2Proof.Machine.execBr b s
  | .brr o => Sys2Proof.Machine.execBrr o s
  | .bl b => Sys2Proof.Machine.execBl b s
  | .blr o => Sys2Proof.Machine.execBlr o s
  | .bge b => Sys2Proof.Machine.execBge b s
  | .bger o => Sys2Proof.Machine.execBger o s
  | .ble b => Sys2Proof.Machine.execBle b s
  | .bler o => Sys2Proof.Machine.execBler o s
  | .bg b => Sys2Proof.Machine.execBg b s
  | .bgr o => Sys2Proof.Machine.execBgr o s
  | .bule b => Sys2Proof.Machine.execBule b s
  | .buler o => Sys2Proof.Machine.execBuler o s
  | .bug b => Sys2Proof.Machine.execBug b s
  | .bugr o => Sys2Proof.Machine.execBugr o s
  | .bz b => Sys2Proof.Machine.execBz b s
  | .bzr o => Sys2Proof.Machine.execBzr o s
  | .bnz b => Sys2Proof.Machine.execBnz b s
  | .bnzr o => Sys2Proof.Machine.execBnzr o s
  | .bc b => Sys2Proof.Machine.execBc b s
  | .bcr o => Sys2Proof.Machine.execBcr o s
  | .bnc b => Sys2Proof.Machine.execBnc b s
  | .bncr o => Sys2Proof.Machine.execBncr o s
  | .bs b => Sys2Proof.Machine.execBs b s
  | .bsr o => Sys2Proof.Machine.execBsr o s
  | .bns b => Sys2Proof.Machine.execBns b s
  | .bnsr o => Sys2Proof.Machine.execBnsr o s
  | .bv b => Sys2Proof.Machine.execBv b s
  | .bvr o => Sys2Proof.Machine.execBvr o s
  | .bnv b => Sys2Proof.Machine.execBnv b s
  | .bnvr o => Sys2Proof.Machine.execBnvr o s
  | .call a b => Sys2Proof.Machine.execCall a b s
  | .ret a b => Sys2Proof.Machine.execRet a b s
  | .swi n => Sys2Proof.Machine.execSwi n s
  | .rti => Sys2Proof.Machine.execRti s

end Sys2Proof.Machine
end

