-- ==== Sys2Proof/Machine/Step.lean ====
section
/-! DEFINITION. One step of the machine (spec/00_scope.md R11), and the placing of one instruction word where the
next step fetches it. -/

namespace Sys2Proof.Machine

/-- One step: fetch the word at PC, decode it, execute it. A word that decodes to no instruction is refused by
its class (R11, R12, R96, R100). -/
def step (s : State) : Host.Outcome State Fault Refusal :=
  match decode s.fetch with
  | .instr i => exec i s
  | .unspecified c => .refused (.unspecifiedWord c)

/-- `s` with the instruction whose `nbits` table bits are `w` in the instruction cell at PC, where the next step
fetches; nothing else changes. It stands for the loader's write of that cell (spec/70_reset_and_hazards.md R372;
log entry 12). -/
def State.withFetchWord (s : State) (nbits w : Nat) : State :=
  s.writeInstr s.pc (BitVec.ofNat 16 (w % 2 ^ nbits))

end Sys2Proof.Machine
end

