-- ==== Sys2Proof/Machine/Assembler.lean ====
section
/-! DEFINITION. The assembler and the loader (spec/49_assembler.md R290 to R327, spec/70_reset_and_hazards.md
R372). None of this is hardware: a pseudo-operation is a name for the hardware instructions it expands to, and the
loader fills the memories before the first step. No step uses this file. Statements are given as terms; the
concrete text syntax (R103), macros (R330) and include files (R331) belong to the tools (spec/00_scope.md R4 b). -/

namespace Sys2Proof.Machine

/-- A label, data label or constant name, by its characters (R304, R320, R321). -/
abbrev AsmName := List Char

/-- A numeric operand as written (R290, R326). -/
inductive AsmValue where
  /-- A number, decimal or hexadecimal. -/
  | num (n : Int)
  /-- A single-quoted character, by the characters between the apostrophes (R326). -/
  | chr (raw : List Char)
  /-- The name of a constant, a data label or an instruction label. -/
  | name (x : AsmName)
  deriving DecidableEq, Repr

/-- The hardware instructions with a numeric operand, that operand left out (R94). -/
inductive ImmOp where
  | setlo (d : Reg)
  | sethi (d : Reg)
  | inc (d : Reg)
  | dec (d : Reg)
  | load (d b : Reg)
  | store (d b : Reg)
  | fon
  | foff
  | fset5
  | fset4
  | swi
  | relative (cond : Cond)
  deriving DecidableEq, Repr

/-- An assembly-language statement. -/
inductive AsmStmt where
  /-- A hardware instruction without a numeric operand, or with one already in its field's form. -/
  | instr (i : Instr)
  /-- A hardware instruction with its numeric operand as written. -/
  | imm (op : ImmOp) (v : AsmValue)
  | set (d : Reg) (v : AsmValue)
  | setrf (d : Reg) (v : AsmValue)
  | move (a b : Reg)
  | cmp (a b : Reg)
  | neg (d b : Reg)
  | not (d b : Reg)
  | con
  | coff
  | cbon
  | ccboff
  | flags (a : Reg)
  | opcode (v : AsmValue)
  | label (x : AsmName)
  /-- A register-mode branch to a label: BR(L), BG(L), ... (R305, R307). -/
  | branchTo (cond : Cond) (x : AsmName)
  /-- A relative branch to a label: BRR(L), BGR(L), ... (R306, R308). -/
  | branchRelTo (cond : Cond) (x : AsmName)
  | callTo (a : Reg) (x : AsmName)
  | nop
  | halt
  | constant (x : AsmName) (v : AsmValue)
  | dlabel (x : AsmName)
  | integer (v : AsmValue)
  | lpString (raw : List Char)
  | dskip (v : AsmValue)
  deriving DecidableEq, Repr

/-- Why a program does not assemble. -/
inductive AsmError where
  /-- A name defined twice (R304; D23). -/
  | duplicateName (x : AsmName)
  /-- A name that is not defined, or a constant used before its definition (R320). -/
  | undefinedName (x : AsmName)
  /-- A name of a kind the operand does not take: a label where a number is wanted, or a data label or a constant
  where an instruction label is (log entry 24). -/
  | wrongKind (x : AsmName)
  /-- A name that is not a sequence of letters, numerals and underscores starting with none of the numerals (R304). -/
  | badName (x : AsmName)
  /-- A number outside what its operand accepts (D23). -/
  | outOfRange (n : Int)
  /-- A relative branch to a label more than -128..127 away (R306; D23). -/
  | tooFar (x : AsmName)
  /-- An instruction term no word expresses (R94). -/
  | illFormed
  /-- A string or character that R323 does not allow. -/
  | badString
  /-- A program whose instructions or data pass the last cell of their memory (log entry 23). -/
  | doesNotFit
  deriving DecidableEq, Repr

/-- A program ready to load: the instruction words from CODE_BASE and the data cells from DATA_BASE, `none` for
a cell that DSKIP reserves (R325, R372). -/
structure Image where
  /-- The instruction words. -/
  code : List Word
  /-- The data cells. -/
  data : List (Option Word)
  deriving DecidableEq, Repr

/-- The names known at a point of a program: labels and data labels over the whole program, constants so far. -/
structure Names where
  /-- Instruction labels with their instruction addresses (R304). -/
  labels : List (AsmName × Int)
  /-- Data labels with their data addresses (R321). -/
  dlabels : List (AsmName × Int)
  /-- Constants with their values. -/
  consts : List (AsmName × Int)
  deriving DecidableEq, Repr

/-! ### Characters and strings -/

/-- The value of a hexadecimal digit. -/
def hexDigit (c : Char) : Option Nat :=
  if 48 ≤ c.toNat ∧ c.toNat ≤ 57 then some (c.toNat - 48)
  else if 97 ≤ c.toNat ∧ c.toNat ≤ 102 then some (c.toNat - 87)
  else if 65 ≤ c.toNat ∧ c.toNat ≤ 70 then some (c.toNat - 55)
  else none

/-- The number that hexadecimal digits write. -/
def hexNumber (ds : List Char) : Option Nat :=
  ds.foldl (fun acc c => match acc, hexDigit c with | some n, some k => some (16 * n + k) | _, _ => none) (some 0)

/-- One cell per character: printable ASCII stands for itself, the backslash only begins one of the six escape
sequences (R323; their codes are PRESUMED, log entry 13). DESIGN CHOICE (log entry 28): a bare double quote, and
likewise a bare apostrophe, is accepted and stands for itself. -/
def stringCodes (raw : List Char) : Option (List Nat) :=
  match raw with
  | [] => some []
  | '\\' :: 't' :: rest => (stringCodes rest).map (0x09 :: ·)
  | '\\' :: 'n' :: rest => (stringCodes rest).map (0x0A :: ·)
  | '\\' :: '\\' :: rest => (stringCodes rest).map (0x5C :: ·)
  | '\\' :: '"' :: rest => (stringCodes rest).map (0x22 :: ·)
  | '\\' :: 'x' :: h1 :: h2 :: rest =>
    match hexNumber [h1, h2], stringCodes rest with
    | some n, some ns => some (n :: ns)
    | _, _ => none
  | '\\' :: 'u' :: h1 :: h2 :: h3 :: h4 :: rest =>
    match hexNumber [h1, h2, h3, h4], stringCodes rest with
    | some n, some ns => some (n :: ns)
    | _, _ => none
  | c :: rest =>
    if c.toNat ≠ 0x5C ∧ 0x20 ≤ c.toNat ∧ c.toNat ≤ 0x7E then (stringCodes rest).map (c.toNat :: ·) else none

/-! ### Names and values -/

/-- A letter or an underscore. DESIGN CHOICE (log entry 27): the letters are the ASCII letters. -/
def nameStart (c : Char) : Bool := c.isAlpha || decide (c.toNat = 0x5F)

/-- A legal name: letters, numerals and underscores, not starting with a numeral (R304). DESIGN CHOICE (log entry 27):
the rule adds "i.e., any legal C++ identifier", which differs on C++ keywords and on letters outside ASCII; here a
keyword is a name and such a letter is not in one. -/
def validName (x : AsmName) : Bool :=
  match x with
  | [] => false
  | c :: rest => nameStart c && rest.all (fun k => nameStart k || k.isDigit)

/-- The value a name has in a list. -/
def lookupName (x : AsmName) (ns : List (AsmName × Int)) : Option Int :=
  match ns with
  | [] => none
  | (y, n) :: rest => if x = y then some n else lookupName x rest

/-- Why a name cannot stand where it does: it is known, but of another kind, or it is not known. -/
def Names.reject (ns : Names) (x : AsmName) : AsmError :=
  if (lookupName x ns.labels).isSome || (lookupName x ns.dlabels).isSome || (lookupName x ns.consts).isSome then
    .wrongKind x
  else .undefinedName x

/-- The value of a numeric operand: a number, a quoted character or a constant (R320, R322, R324, R326). DESIGN
CHOICE (log entry 24): the rules name no label here, and a label is rejected. -/
def AsmValue.number (ns : Names) : AsmValue → Except AsmError Int
  | .num n => .ok n
  | .chr raw =>
    match stringCodes raw with
    | some [n] => .ok n
    | _ => .error .badString
  | .name x =>
    match lookupName x ns.consts with
    | some n => .ok n
    | none => .error (ns.reject x)

/-- The value of SET's and SETRF's operand: a number, a quoted character, a constant, or the address of a data label
or an instruction label (R290, R291, R321). -/
def AsmValue.numberOrAddress (ns : Names) (v : AsmValue) : Except AsmError Int :=
  match v with
  | .num _ => v.number ns
  | .chr _ => v.number ns
  | .name x =>
    match lookupName x ns.dlabels, lookupName x ns.labels with
    | some n, _ => .ok n
    | none, some n => .ok n
    | none, none => v.number ns

/-- A value that must lie in `lo..hi`. -/
def inRange (lo hi : Int) (r : Except AsmError Int) : Except AsmError Int :=
  match r with
  | .error e => .error e
  | .ok n => if lo ≤ n ∧ n ≤ hi then .ok n else .error (.outOfRange n)

/-- A 16-bit operand of SET, SETRF and INTEGER: -32768..65535, encoded modulo 2^16 (R290, R322; D23). -/
def toWord (r : Except AsmError Int) : Except AsmError Word := (inRange (-32768) 65535 r).map (BitVec.ofInt 16)

/-- `address(L)` for a branch or a CALL: L is an instruction label (R304 to R309). DESIGN CHOICE (log entry 24): the
spec does not say whether a branch may name a data label; a data label is rejected, and so is a constant. -/
def labelAddr (ns : Names) (x : AsmName) : Except AsmError Int :=
  match lookupName x ns.labels with
  | some n => .ok n
  | none => .error (ns.reject x)

/-- The offset of a relative branch standing at `at_`: a number, a quoted character or a constant is the offset itself
(R308, R320, R326), an instruction label L is `distanceTo(L) = address(L) - address(this branch)` (R244, R306,
R308). Either must lie in -128..127 (D23). A data label is rejected (DESIGN CHOICE, log entry 24). -/
def AsmValue.offset (ns : Names) (at_ : Nat) (v : AsmValue) : Except AsmError Int :=
  match v with
  | .num _ => inRange (-128) 127 (v.number ns)
  | .chr _ => inRange (-128) 127 (v.number ns)
  | .name x =>
    match lookupName x ns.labels with
    | some n => if -128 ≤ n - at_ ∧ n - at_ ≤ 127 then .ok (n - at_) else .error (.tooFar x)
    | none => inRange (-128) 127 (v.number ns)

/-! ### Expansions -/

/-- The register-mode branch instruction on a condition (R89, R99). -/
def branchInstr (cond : Cond) (b : Reg) : Instr :=
  match cond with
  | .always => .br b
  | .l => .bl b
  | .ge => .bge b
  | .le => .ble b
  | .g => .bg b
  | .ule => .bule b
  | .ug => .bug b
  | .z => .bz b
  | .nz => .bnz b
  | .c => .bc b
  | .nc => .bnc b
  | .s => .bs b
  | .ns => .bns b
  | .v => .bv b
  | .nv => .bnv b

/-- The relative branch instruction on a condition (R90, R99). -/
def branchRelInstr (cond : Cond) (o : BitVec 8) : Instr :=
  match cond with
  | .always => .brr o
  | .l => .blr o
  | .ge => .bger o
  | .le => .bler o
  | .g => .bgr o
  | .ule => .buler o
  | .ug => .bugr o
  | .z => .bzr o
  | .nz => .bnzr o
  | .c => .bcr o
  | .nc => .bncr o
  | .s => .bsr o
  | .ns => .bnsr o
  | .v => .bvr o
  | .nv => .bnvr o

/-- The range of a numeric operand and the instruction it makes at instruction address `at_` (R94, R120, R150,
R308; D23, log entry 22). -/
def ImmOp.build (ns : Names) (at_ : Nat) (op : ImmOp) (v : AsmValue) : Except AsmError Instr :=
  match op with
  | .setlo d => (inRange (-128) 255 (v.number ns)).map (fun n => .setlo d (BitVec.ofInt 8 n))
  | .sethi d => (inRange (-128) 255 (v.number ns)).map (fun n => .sethi d (BitVec.ofInt 8 n))
  | .inc d => (inRange 1 64 (v.number ns)).map (fun n => .inc d n.toNat)
  | .dec d => (inRange 1 64 (v.number ns)).map (fun n => .dec d n.toNat)
  | .load d b => (inRange 0 31 (v.number ns)).map (fun n => .load d n.toNat b)
  | .store d b => (inRange 0 31 (v.number ns)).map (fun n => .store d n.toNat b)
  | .fon => (inRange 0 31 (v.number ns)).map (fun n => .fon (BitVec.ofInt 5 n))
  | .foff => (inRange 0 31 (v.number ns)).map (fun n => .foff (BitVec.ofInt 5 n))
  | .fset5 => (inRange 0 31 (v.number ns)).map (fun n => .fset5 (BitVec.ofInt 5 n))
  | .fset4 => (inRange 0 31 (v.number ns)).map (fun n => .fset4 (BitVec.ofInt 5 n))
  | .swi => (inRange 0 15 (v.number ns)).map (fun n => .swi n.toNat)
  | .relative cond => (v.offset ns at_).map (fun n => branchRelInstr cond (BitVec.ofInt 8 n))

/-- SET(d, v): always SETLO then SETHI (R122, R290). -/
def expandSet (d : Reg) (w : Word) : List Instr := [.setlo d (w.extractLsb' 0 8), .sethi d (w.extractLsb' 8 8)]

/-- CON (R296). -/
def instrCon : Instr := .fon 0x08
/-- COFF (R297). -/
def instrCoff : Instr := .foff 0x08
/-- CBON (R298). -/
def instrCbon : Instr := .fon 0x10
/-- CCBOFF (R299). -/
def instrCcboff : Instr := .foff 0x18

/-- FLAGS(a): COFF then ADD(R0, a, R0) (R300). -/
def expandFlags (a : Reg) : List Instr := [instrCoff, .add .r0 a .r0]

/-- CMP(a, b): CON then SUB(R0, a, b) (R293). -/
def expandCmp (a b : Reg) : List Instr := [instrCon, .sub .r0 a b]

/-- NEG(d, b): CON then SUB(d, R0, b) (R294). -/
def expandNeg (d b : Reg) : List Instr := [instrCon, .sub d .r0 b]

/-- NOT(d, b): SET(R11, 0xffff) then XOR(d, R11, b) (R295). -/
def expandNot (d b : Reg) : List Instr := expandSet .rt 0xFFFF ++ [.xor d .rt b]

/-- MOVE(a, b): OR(a, b, R0) (R292). -/
def expandMove (a b : Reg) : List Instr := [.or a b .r0]

/-- The words of a statement placed at instruction address `at_`; data statements and labels make none. An address
past 0xFFFF, which only a label after the last cell has, is taken modulo 2^16 (DESIGN CHOICE, log entry 23). CALL and
RETURN are assembled with every operand pair, and the pairs of R263 are refused when they execute: R309 accepts the
other pairs and is silent on these (DESIGN CHOICE, log entry 25). -/
def AsmStmt.code (ns : Names) (at_ : Nat) (st : AsmStmt) : Except AsmError (List Word) :=
  match st with
  | .instr i => if i.wf then .ok [encode i] else .error .illFormed
  | .imm op v => (op.build ns at_ v).map (fun i => [encode i])
  | .set d v => (toWord (v.numberOrAddress ns)).map (fun w => (expandSet d w).map encode)
  | .setrf d v => (toWord (v.numberOrAddress ns)).map (fun w => (expandSet d w ++ expandFlags d).map encode)
  | .move a b => .ok ((expandMove a b).map encode)
  | .cmp a b => .ok ((expandCmp a b).map encode)
  | .neg d b => .ok ((expandNeg d b).map encode)
  | .not d b => .ok ((expandNot d b).map encode)
  | .con => .ok [encode instrCon]
  | .coff => .ok [encode instrCoff]
  | .cbon => .ok [encode instrCbon]
  | .ccboff => .ok [encode instrCcboff]
  | .flags a => .ok ((expandFlags a).map encode)
  | .opcode v => (inRange 0 65535 (v.number ns)).map (fun n => [BitVec.ofInt 16 n])
  | .branchTo cond x =>
    (labelAddr ns x).map (fun n => (expandSet .rt (BitVec.ofInt 16 n) ++ [branchInstr cond .rt]).map encode)
  | .branchRelTo cond x => ((ImmOp.relative cond).build ns at_ (.name x)).map (fun i => [encode i])
  | .callTo a x =>
    (labelAddr ns x).map (fun n => (expandSet .pcRet (BitVec.ofInt 16 n) ++ [Instr.call a .pcRet]).map encode)
  | .nop => .ok [encode (.brr 1)]
  | .halt => .ok [encode (.brr 0)]
  | .label _ => .ok []
  | .constant _ _ => .ok []
  | .dlabel _ => .ok []
  | .integer _ => .ok []
  | .lpString _ => .ok []
  | .dskip _ => .ok []

/-- How many instruction words a statement takes: the table of R312, the same for every operand value. -/
def AsmStmt.size (st : AsmStmt) : Nat :=
  match st with
  | .instr _ => 1
  | .imm _ _ => 1
  | .set _ _ => 2
  | .setrf _ _ => 4
  | .move _ _ => 1
  | .cmp _ _ => 2
  | .neg _ _ => 2
  | .not _ _ => 3
  | .con => 1
  | .coff => 1
  | .cbon => 1
  | .ccboff => 1
  | .flags _ => 2
  | .opcode _ => 1
  | .branchTo _ _ => 3
  | .branchRelTo _ _ => 1
  | .callTo _ _ => 3
  | .nop => 1
  | .halt => 1
  | .label _ => 0
  | .constant _ _ => 0
  | .dlabel _ => 0
  | .integer _ => 0
  | .lpString _ => 0
  | .dskip _ => 0

/-- The data cells of a statement: one for INTEGER, the count and one per character for LP_STRING, `n` reserved
ones for DSKIP (R322 to R324). -/
def AsmStmt.data (ns : Names) (st : AsmStmt) : Except AsmError (List (Option Word)) :=
  match st with
  | .integer v => (toWord (v.number ns)).map (fun w => [some w])
  | .lpString raw =>
    match stringCodes raw with
    | some cs => .ok ((cs.length :: cs).map (fun n => some (BitVec.ofNat 16 n)))
    | none => .error .badString
  | .dskip v => (inRange 0 65535 (v.number ns)).map (fun n => List.replicate n.toNat none)
  | _ => .ok []

/-! ### The two passes -/

/-- Define a name that is legal and not yet defined (R304). -/
def defineName (ns : Names) (x : AsmName) : Except AsmError Unit :=
  if !validName x then .error (.badName x)
  else if (lookupName x ns.labels).isSome || (lookupName x ns.dlabels).isSome || (lookupName x ns.consts).isSome then
    .error (.duplicateName x)
  else .ok ()

/-- The first pass: every label's address, from the number of words and cells before it (R304, R312, R321). -/
def collectNames (ns : Names) (code data : Nat) (prog : List AsmStmt) : Except AsmError Names :=
  match prog with
  | [] => .ok ns
  | .label x :: rest =>
    match defineName ns x with
    | .error e => .error e
    | .ok _ => collectNames { ns with labels := (x, (code : Int)) :: ns.labels } code data rest
  | .dlabel x :: rest =>
    match defineName ns x with
    | .error e => .error e
    | .ok _ => collectNames { ns with dlabels := (x, (data : Int)) :: ns.dlabels } code data rest
  | .constant x v :: rest =>
    match defineName ns x, v.number ns with
    | .error e, _ => .error e
    | .ok _, .error e => .error e
    | .ok _, .ok n => collectNames { ns with consts := (x, n) :: ns.consts } code data rest
  | .integer _ :: rest => collectNames ns code (data + 1) rest
  | .lpString raw :: rest =>
    match stringCodes raw with
    | some cs => collectNames ns code (data + cs.length + 1) rest
    | none => .error .badString
  | .dskip v :: rest =>
    match inRange 0 65535 (v.number ns) with
    | .error e => .error e
    | .ok n => collectNames ns code (data + n.toNat) rest
  | st :: rest => collectNames ns (code + st.size) data rest

/-- The second pass: the words and the cells, with every label known and the constants so far (R320, R325). -/
def emit (ns : Names) (code : Nat) (prog : List AsmStmt) : Except AsmError Image :=
  match prog with
  | [] => .ok ⟨[], []⟩
  | .constant x v :: rest =>
    match v.number ns with
    | .error e => .error e
    | .ok n => emit { ns with consts := (x, n) :: ns.consts } code rest
  | st :: rest =>
    match st.code ns code, st.data ns, emit ns (code + st.size) rest with
    | .ok ws, .ok ds, .ok img => .ok ⟨ws ++ img.code, ds ++ img.data⟩
    | .error e, _, _ => .error e
    | _, .error e, _ => .error e
    | _, _, .error e => .error e

/-- Whether the words from instruction address `code` and the cells from DATA_BASE lie within the 2^16 cells of their
memories. -/
def Image.fits (code : Nat) (img : Image) : Bool :=
  decide (code + img.code.length ≤ 65536) && decide (Config.dataBase.toNat + img.data.length ≤ 65536)

/-- Assemble a program whose first word stands at `code` (R325 places it at CODE_BASE) and whose first data cell
stands at DATA_BASE. DESIGN CHOICE (log entry 23): the spec does not say what happens to a program that passes the
last cell of a memory; it is rejected. -/
def assembleAt (code : Nat) (prog : List AsmStmt) : Except AsmError Image :=
  match collectNames ⟨[], [], []⟩ code Config.dataBase.toNat prog with
  | .error e => .error e
  | .ok ns =>
    match emit { ns with consts := [] } code prog with
    | .error e => .error e
    | .ok img => if img.fits code then .ok img else .error .doesNotFit

/-- Assemble a program (R325). -/
def assemble (prog : List AsmStmt) : Except AsmError Image := assembleAt Config.codeBase.toNat prog

/-! ### The loader -/

/-- Write instruction words upward from `a` (R372). DESIGN CHOICE (log entry 23): past 0xFFFF the address wraps to cell
0 and overwrites what stands there; the spec does not say what is loaded then, and no assembled image goes so far. -/
def State.loadCode (s : State) (a : Word) (ws : List Word) : State :=
  match ws with
  | [] => s
  | w :: rest => (s.writeInstr a w).loadCode (a + 1) rest

/-- Write data cells upward from `a`, leaving the cells that DSKIP reserves as they are (R324, R372). DESIGN CHOICE
(log entry 23): past 0xFFFF the address wraps to cell 0, as for `State.loadCode`. -/
def State.loadData (s : State) (a : Word) (ds : List (Option Word)) : State :=
  match ds with
  | [] => s
  | some v :: rest => (s.writeData a v).loadData (a + 1) rest
  | none :: rest => s.loadData (a + 1) rest

/-- What the host does before the first step, and nothing else (R372). -/
def State.load (s : State) (img : Image) : State :=
  (s.loadCode Config.codeBase img.code).loadData Config.dataBase img.data

end Sys2Proof.Machine
end

