-- ==== Sys2Proof/Safety.lean ====
section
/-! DEFINITION. The terms that claims are stated in: when a run is over, which instructions have a next state,
what an instruction may write, and the shape "this register, these flags, the next instruction, nothing else". -/

namespace Sys2Proof

/-- The instruction has a next state when it starts with these flags (spec/60_exceptions.md R355): all do but
the reserved SWI and RTI, MUL in an undefined mode (R136) and CALL or RETURN with clashing registers (R263). -/
def Instr.defined (i : Instr) (f : Machine.Flags) : Bool :=
  match i with
  | .swi _ => false
  | .rti => false
  | .mul _ _ _ => f.cb || !(f.c || f.v || f.z)
  | .call a b => (decide (a = .r0) || !decide (a = b)) && !decide (b = .r14)
  | .ret a b => (decide (a = .r0) || !decide (a = b)) && !decide (b = .r14)
  | _ => true

/-- The registers an instruction may write (spec/10_state.md R23). -/
def Instr.writes (i : Instr) : List Reg :=
  match i with
  | .setlo d _ => [d]
  | .sethi d _ => [d]
  | .and d _ _ => [d]
  | .or d _ _ => [d]
  | .add d _ _ => [d]
  | .sub d _ _ => [d]
  | .mul d _ _ => [d]
  | .xor d _ _ => [d]
  | .inc d _ => [d]
  | .dec d _ => [d]
  | .lsl d _ => [d]
  | .lsr d _ => [d]
  | .lsl8 d _ => [d]
  | .lsr8 d _ => [d]
  | .asl d _ => [d]
  | .asr d _ => [d]
  | .savef d => [d]
  | .load d _ _ => [d]
  | .call a b => [a, b, .fp]
  | .ret a b => [a, b, .fp]
  | _ => []

/-- The instruction is a branch, CALL or RETURN: the only ones whose rule writes PC (R25). -/
def Instr.transfers (i : Instr) : Bool :=
  match i with
  | .br _ => true
  | .brr _ => true
  | .bl _ => true
  | .blr _ => true
  | .bge _ => true
  | .bger _ => true
  | .ble _ => true
  | .bler _ => true
  | .bg _ => true
  | .bgr _ => true
  | .bule _ => true
  | .buler _ => true
  | .bug _ => true
  | .bugr _ => true
  | .bz _ => true
  | .bzr _ => true
  | .bnz _ => true
  | .bnzr _ => true
  | .bc _ => true
  | .bcr _ => true
  | .bnc _ => true
  | .bncr _ => true
  | .bs _ => true
  | .bsr _ => true
  | .bns _ => true
  | .bnsr _ => true
  | .bv _ => true
  | .bvr _ => true
  | .bnv _ => true
  | .bnvr _ => true
  | .call _ _ => true
  | .ret _ _ => true
  | _ => false

/-- The registers an instruction may read (spec/10_state.md R23). -/
def Instr.reads (i : Instr) : List Reg :=
  match i with
  | .sethi d _ => [d]
  | .and _ a b => [a, b]
  | .or _ a b => [a, b]
  | .add _ a b => [a, b]
  | .sub _ a b => [a, b]
  | .mul _ a b => [a, b]
  | .xor _ a b => [a, b]
  | .inc d _ => [d]
  | .dec d _ => [d]
  | .lsl _ b => [b]
  | .lsr _ b => [b]
  | .lsl8 _ b => [b]
  | .lsr8 _ b => [b]
  | .asl _ b => [b]
  | .asr _ b => [b]
  | .rstrf d => [d]
  | .load _ _ b => [b]
  | .store d _ b => [d, b]
  | .br b => [b]
  | .bl b => [b]
  | .bge b => [b]
  | .ble b => [b]
  | .bg b => [b]
  | .bule b => [b]
  | .bug b => [b]
  | .bz b => [b]
  | .bnz b => [b]
  | .bc b => [b]
  | .bnc b => [b]
  | .bs b => [b]
  | .bns b => [b]
  | .bv b => [b]
  | .bnv b => [b]
  | .call a b => [a, b, .fp]
  | .ret a b => [a, b, .fp]
  | _ => []

/-- The flags an instruction may write, as a mask: the "Writes" column of spec/10_state.md R27. -/
def Instr.flagsWritten (i : Instr) : BitVec 5 :=
  match i with
  | .and _ _ _ => 0x03
  | .or _ _ _ => 0x03
  | .xor _ _ _ => 0x03
  | .add _ _ _ => 0x0F
  | .sub _ _ _ => 0x0F
  | .mul _ _ _ => 0x0F
  | .inc _ _ => 0x0F
  | .dec _ _ => 0x0F
  | .lsl _ _ => 0x0B
  | .lsr _ _ => 0x0B
  | .lsl8 _ _ => 0x03
  | .lsr8 _ _ => 0x03
  | .asl _ _ => 0x0F
  | .asr _ _ => 0x0B
  | .rstrf _ => 0x1F
  | .fon mask => mask
  | .foff mask => mask
  | .fset5 _ => 0x1F
  | .fset4 _ => 0x0F
  | .load _ _ _ => 0x03
  | _ => 0x00

/-- The flags an instruction may read, as a mask: the "Reads" column of R27, with the flags of each branch
condition from spec/46_branch.md R210. -/
def Instr.flagsRead (i : Instr) : BitVec 5 :=
  match i with
  | .add _ _ _ => 0x18
  | .sub _ _ _ => 0x18
  | .mul _ _ _ => 0x1F
  | .lsl _ _ => 0x18
  | .lsr _ _ => 0x18
  | .asl _ _ => 0x18
  | .savef _ => 0x1F
  | .fon mask => mask
  | .foff mask => mask
  | .bl _ => 0x05
  | .blr _ => 0x05
  | .bge _ => 0x05
  | .bger _ => 0x05
  | .ble _ => 0x07
  | .bler _ => 0x07
  | .bg _ => 0x07
  | .bgr _ => 0x07
  | .bule _ => 0x0A
  | .buler _ => 0x0A
  | .bug _ => 0x0A
  | .bugr _ => 0x0A
  | .bz _ => 0x02
  | .bzr _ => 0x02
  | .bnz _ => 0x02
  | .bnzr _ => 0x02
  | .bc _ => 0x08
  | .bcr _ => 0x08
  | .bnc _ => 0x08
  | .bncr _ => 0x08
  | .bs _ => 0x01
  | .bsr _ => 0x01
  | .bns _ => 0x01
  | .bnsr _ => 0x01
  | .bv _ => 0x04
  | .bvr _ => 0x04
  | .bnv _ => 0x04
  | .bnvr _ => 0x04
  | _ => 0x00

end Sys2Proof

namespace Sys2Proof.Machine

/-- A final state: the word at PC is 0x0000, HALT (spec/70_reset_and_hazards.md R376; D7). The step itself does
not stop there: HALT branches to itself (spec/46_branch.md R241). -/
def State.halted (s : State) : Bool := decide (s.fetch = 0x0000)

/-- Both memories are in canonical form. -/
def State.wf (s : State) : Bool := Memory.wf s.dmem && Memory.wf s.imem

/-- From `s` to `t`: every cell of the data memory reads the same. -/
def DataKept (s t : State) : Prop := ∀ a : Word, t.dataCell a = s.dataCell a

/-- From `s` to `t`: every cell of the instruction memory reads the same. -/
def CodeKept (s t : State) : Prop := ∀ a : Word, t.instrCell a = s.instrCell a

/-- From `s` to `t`: Rd receives `r` (discarded if d = R0), the flags become `f`, PC moves to the next
instruction, and nothing else changes. -/
structure WritesRegister (s t : State) (d : Reg) (r : Word) (f : Flags) : Prop where
  /-- The destination. -/
  result : t.reg d = if d = .r0 then 0 else r
  /-- Every other register. -/
  others : ∀ i, i ≠ d → t.reg i = s.reg i
  /-- The flags. -/
  flags : t.flags = f
  /-- The usual PC update. -/
  pc : t.pc = s.pc + 1
  /-- The data memory. -/
  data : DataKept s t
  /-- The instruction memory. -/
  code : CodeKept s t

/-- From `s` to `t`: the flags become `f`, PC becomes `pc`, and nothing else changes. -/
structure WritesNoRegister (s t : State) (f : Flags) (pc : Word) : Prop where
  /-- Every register. -/
  regs : ∀ i, t.reg i = s.reg i
  /-- The flags. -/
  flags : t.flags = f
  /-- PC. -/
  pc : t.pc = pc
  /-- The data memory. -/
  data : DataKept s t
  /-- The instruction memory. -/
  code : CodeKept s t

/-- s and z are those of the result `r` (R9, R130). -/
def SZOf (f : Flags) (r : Word) : Prop := f.s = r.getLsbD 15 ∧ (f.z = true ↔ r = 0)

/-- Instructions executed one after the other, as an expansion of a pseudo-operation is. -/
def execAll (is : List Instr) (s : State) : Result :=
  match is with
  | [] => .next s
  | i :: rest =>
    match exec i s with
    | .next t => execAll rest t
    | .fault r => .fault r
    | .refused r => .refused r

/-- v, c and carry-block are the same in `g` as in `f`. -/
def KeepsVCCb (f g : Flags) : Prop := g.v = f.v ∧ g.c = f.c ∧ g.cb = f.cb

/-- A register-mode branch as spec/46_branch.md R210 has it: which words are it, that it always has a next state,
and where that state's PC is, `taken` being its flag expression. -/
structure RegisterBranch (code : BitVec 4) (branch : Reg → Instr) (taken : Flags → Bool) : Prop where
  /-- Its words: `0001 code 0000 bbbb`, and no other. -/
  words : ∀ w b, decode w = .instr (branch b) ↔
    fieldOp w = 0b0001 ∧ fieldD w = code ∧ fieldA w = 0b0000 ∧ Reg.ofBits (fieldB w) = b
  /-- Its effect. -/
  runs : ∀ b s, ∃ t, exec (branch b) s = .next t ∧
    WritesNoRegister s t s.flags (if taken s.flags then s.reg b else s.pc + 1)

/-- A relative branch as R210 has it. -/
structure RelativeBranch (code : BitVec 4) (branch : BitVec 8 → Instr) (taken : Flags → Bool) : Prop where
  /-- Its words: `0000 code oooo oooo`, and no other. -/
  words : ∀ w o, decode w = .instr (branch o) ↔ fieldOp w = 0b0000 ∧ fieldD w = code ∧ fieldV w = o
  /-- Its effect. -/
  runs : ∀ o s, ∃ t target, exec (branch o) s = .next t ∧
    (target.toNat : Int) = ((s.pc.toNat : Int) + o.toInt) % 65536 ∧
    WritesNoRegister s t s.flags (if taken s.flags then target else s.pc + 1)

/-- After CMP(a, b), which is CON() and SUB(R0, a, b), and after any SUB that takes no borrow in, the flag expression
holds exactly when the two values pass the test (spec/46_branch.md R243). -/
def TakenAfterCompare (taken : Flags → Bool) (test : Word → Word → Prop) : Prop :=
  (∀ a b s, ∃ t, execAll [.fon 0x08, .sub .r0 a b] s = .next t ∧
    (taken t.flags = true ↔ test (s.reg a) (s.reg b))) ∧
  (∀ d a b s, s.flags.c = true ∨ s.flags.cb = true → ∃ t, exec (.sub d a b) s = .next t ∧
    (taken t.flags = true ↔ test (s.reg a) (s.reg b)))

end Sys2Proof.Machine
end

