-- ==== Sys2Proof/Certificates/Slice0/Obligations.lean ====
section
/-! DEFINITION. The statements for the provers. Each docstring names the rules of spec/ it formalises and, where a
clause rests on a decision of the spec (D1 ... D25 of spec/92_eei_decisions.md) or of this model, the decision and the
log entry. In every statement `pc + 1` is taken modulo 2^16, as the rules' own pseudocode writes it (D3, log entry
5). -/

section Statements

open Sys2Proof Sys2Proof.Machine

/-! ### Encoding and decoding -/

/-- Some words that the spec writes out and the instructions they stand for (spec/30_encoding.md R82 to R93). The words
of CALL, RETURN, SWI and RTI are the spec's own derivations from the formats (R91, R280, R281); the source prints no
machine code of these. -/
def Obligations.SampleWordsDecode : Prop :=
  decode 0xE358 = .instr (.setlo .r3 0x58) ∧ decode 0xFB42 = .instr (.sethi .r11 0x42) ∧
  decode 0xA123 = .instr (.add .r1 .r2 .r3) ∧ decode 0xB543 = .instr (.sub .r5 .r4 .r3) ∧
  decode 0xCBB4 = .instr (.mul .r11 .r11 .r4) ∧ decode 0x3185 = .instr (.inc .r1 6) ∧
  decode 0x33C0 = .instr (.dec .r3 1) ∧ decode 0x3111 = .instr (.lsr .r1 .r1) ∧
  decode 0x3165 = .instr (.fon 0x15) ∧ decode 0x386A = .instr (.foff 0x0A) ∧
  decode 0x3C65 = .instr (.fset4 0x05) ∧ decode 0x5732 = .instr (.load .r7 0x13 .r2) ∧
  decode 0x610B = .instr (.store .r1 0 .r11) ∧ decode 0x130B = .instr (.bge .r11) ∧
  decode 0x00FC = .instr (.brr (-4)) ∧ decode 0x09F8 = .instr (.bnzr (-8)) ∧
  decode 0x20CD = .instr (.call .r12 .r13) ∧ decode 0x21CD = .instr (.ret .r12 .r13) ∧
  decode 0x2203 = .instr (.swi 3) ∧ decode 0x2300 = .instr .rti

/-- Decoding the word of a well-formed instruction gives the instruction back, with every operand at every value its
field admits (R82 to R94). -/
def Obligations.EncodeThenDecode : Prop :=
  ∀ i : Instr, i.wf = true → decode (encode i) = .instr i

/-- Every word that decodes to an instruction decodes to a well-formed one whose encoding is the word: no bit of a
word is dropped. FSET4 keeps the mask bit that has no effect (R185). -/
def Obligations.DecodeThenEncode : Prop :=
  ∀ (w : Word) (i : Instr), decode w = .instr i → i.wf = true ∧ encode i = w

/-- The decision procedure of R96 outside the two branch opcodes, leaf by leaf over the bits of the word. -/
def Obligations.DecodeFollowsProcedure : Prop :=
  ∀ w : Word,
    let op := w.extractLsb' 12 4
    let d := Reg.ofBits (w.extractLsb' 8 4)
    let a := Reg.ofBits (w.extractLsb' 4 4)
    let b := Reg.ofBits (w.extractLsb' 0 4)
    let o := (w.extractLsb' 12 1).toNat * 16 + (w.extractLsb' 4 4).toNat
    let v := w.extractLsb' 0 8
    let delta := (w.extractLsb' 0 6).toNat + 1
    let m := Flags.toBits ⟨w.getLsbD 0, w.getLsbD 1, w.getLsbD 2, w.getLsbD 3, w.getLsbD 8⟩
    (op = 0b1110 → decode w = .instr (.setlo d v)) ∧ (op = 0b1111 → decode w = .instr (.sethi d v)) ∧
    (op = 0b1000 → decode w = .instr (.and d a b)) ∧ (op = 0b1001 → decode w = .instr (.or d a b)) ∧
    (op = 0b1010 → decode w = .instr (.add d a b)) ∧ (op = 0b1011 → decode w = .instr (.sub d a b)) ∧
    (op = 0b1100 → decode w = .instr (.mul d a b)) ∧ (op = 0b1101 → decode w = .instr (.xor d a b)) ∧
    (op = 0b0100 ∨ op = 0b0101 → decode w = .instr (.load d o b)) ∧
    (op = 0b0110 ∨ op = 0b0111 → decode w = .instr (.store d o b)) ∧
    (op = 0b0011 →
      (w.getLsbD 7 = true → w.getLsbD 6 = false → decode w = .instr (.inc d delta)) ∧
      (w.getLsbD 7 = true → w.getLsbD 6 = true → decode w = .instr (.dec d delta)) ∧
      (w.getLsbD 7 = false →
        let sub := w.extractLsb' 4 3
        let fop := w.extractLsb' 9 3
        (sub = 0b000 → decode w = .instr (.lsl d b)) ∧ (sub = 0b001 → decode w = .instr (.lsr d b)) ∧
        (sub = 0b010 → decode w = .instr (.lsl8 d b)) ∧ (sub = 0b011 → decode w = .instr (.lsr8 d b)) ∧
        (sub = 0b100 → decode w = .instr (.asl d b)) ∧ (sub = 0b101 → decode w = .instr (.asr d b)) ∧
        (sub = 0b110 →
          (fop = 0b000 → decode w = .instr (.fon m)) ∧ (fop = 0b100 → decode w = .instr (.foff m)) ∧
          (fop = 0b010 → decode w = .instr (.fset5 m)) ∧ (fop = 0b110 → decode w = .instr (.fset4 m)) ∧
          (w.getLsbD 9 = true → decode w = .unspecified .flagop)) ∧
        (sub = 0b111 →
          (w.extractLsb' 0 3 ≠ 0 → decode w = .unspecified .saverstrLowBits) ∧
          (w.extractLsb' 0 3 = 0 → w.getLsbD 3 = false → decode w = .instr (.savef d)) ∧
          (w.extractLsb' 0 3 = 0 → w.getLsbD 3 = true → decode w = .instr (.rstrf d))))) ∧
    (op = 0b0010 →
      (w.extractLsb' 8 4 = 0b0000 → decode w = .instr (.call a b)) ∧
      (w.extractLsb' 8 4 = 0b0001 → decode w = .instr (.ret a b)) ∧
      (w.extractLsb' 4 8 = 0b00100000 → decode w = .instr (.swi (w.extractLsb' 0 4).toNat)) ∧
      (w.extractLsb' 0 12 = 0b001100000000 → decode w = .instr .rti) ∧
      (w.extractLsb' 9 3 ≠ 0b000 → w.extractLsb' 4 8 ≠ 0b00100000 → w.extractLsb' 0 12 ≠ 0b001100000000 →
        decode w = .unspecified .opcode0010))

/-- The words of each class without a meaning, as the table of R100 lists them, and the refusal of a step that
fetches one. That the step is refused is the spec's decision D14 (log entry 14). -/
def Obligations.UnspecifiedWordsByClass : Prop :=
  (∀ w : Word,
    (decode w = .unspecified .unusedCondition ↔
      (fieldOp w = 0b0000 ∨ fieldOp w = 0b0001) ∧ fieldD w = 0b0001) ∧
    (decode w = .unspecified .bregBits7to4 ↔ fieldOp w = 0b0001 ∧ fieldD w ≠ 0b0001 ∧ fieldA w ≠ 0b0000) ∧
    (decode w = .unspecified .opcode0010 ↔
      fieldOp w = 0b0010 ∧ fieldD w ≠ 0b0000 ∧ fieldD w ≠ 0b0001 ∧ (fieldD w = 0b0010 → fieldA w ≠ 0b0000) ∧
        w ≠ 0x2300) ∧
    (decode w = .unspecified .flagop ↔ fieldOp w = 0b0011 ∧ fieldA w = 0b0110 ∧ w.getLsbD 9 = true) ∧
    (decode w = .unspecified .saverstrLowBits ↔
      fieldOp w = 0b0011 ∧ fieldA w = 0b0111 ∧ w.extractLsb' 0 3 ≠ 0)) ∧
  ∀ (s : State) (c : WordClass), decode s.fetch = .unspecified c → step s = .refused (.unspecifiedWord c)

/-! ### The step -/

/-- One step fetches the word at PC, decodes it and executes what it decodes to (spec/00_scope.md R11); nothing is
added around the execution. A word that decodes to no instruction has no next state (R12, D14). -/
def Obligations.StepRunsDecodedInstruction : Prop :=
  (∀ (s : State) (i : Instr), decode (s.instrCell s.pc) = .instr i → step s = exec i s) ∧
  (∀ (s : State) (c : WordClass), decode (s.instrCell s.pc) = .unspecified c →
    step s = .refused (.unspecifiedWord c))

/-- A well-formed instruction whose word stands in the instruction cell at PC is what the step executes, and the word
that `withFetchWord` places is the one at PC. -/
def Obligations.StoredInstructionIsExecuted : Prop :=
  (∀ (s : State) (i : Instr), i.wf = true → s.instrCell s.pc = encode i → step s = exec i s) ∧
  (∀ (s : State) (i : Instr), i.wf = true →
    step (s.withFetchWord 16 (encode i).toNat) = exec i (s.withFetchWord 16 (encode i).toNat))

/-- A step has a next state exactly when the word at PC decodes to an instruction that is defined with the flags it
finds (spec/60_exceptions.md R355: SWI, RTI, MUL in an undefined mode and CALL or RETURN with clashing registers are
not); otherwise it is refused. There is no third outcome. The refusals are the spec's decisions D13, D14, D15, D17
(log entries 14 to 17). -/
def Obligations.StepOutcomes : Prop :=
  (∀ s : State, (∃ t, step s = .next t) ↔ ∃ i, decode s.fetch = .instr i ∧ i.defined s.flags = true) ∧
  (∀ s : State, (∃ t, step s = .next t) ∨ ∃ r, step s = .refused r) ∧
  (∀ (i : Instr) (s : State), (∃ t, exec i s = .next t) ↔ i.defined s.flags = true)

/-- R0 reads 0 in every state and a write to it changes nothing (spec/10_state.md R21; R8). -/
def Obligations.ZeroRegister : Prop :=
  (∀ s : State, s.reg .r0 = 0) ∧ (∀ (s : State) (v : Word), s.setReg .r0 v = s) ∧
  (∀ (s : State) (i j : Reg) (v : Word), i ≠ .r0 →
    (s.setReg i v).reg i = v ∧ (j ≠ i → (s.setReg i v).reg j = s.reg j))

/-- The register table of R23: an instruction changes no register outside the list it writes, and what it does does
not depend on a register outside the list it reads. -/
def Obligations.RegisterAccessTable : Prop :=
  (∀ (i : Instr) (s t : State) (q : Reg), exec i s = .next t → q ∉ i.writes → t.reg q = s.reg q) ∧
  (∀ (i : Instr) (s t : State) (q : Reg) (v : Word), exec i s = .next t → q ∉ i.reads →
    ∃ u, exec i (s.setReg q v) = .next u ∧ u.flags = t.flags ∧ u.pc = t.pc ∧ u.dmem = t.dmem ∧ u.imem = t.imem ∧
      ∀ p, p ∈ i.writes ∨ p ≠ q → u.reg p = t.reg p)

/-- The flag table of R27: an instruction changes no flag outside its "Writes" column, and what it does does not
depend on a flag outside its "Reads" column. In particular carry-block changes only by RSTRF, FON, FOFF, FSET5. -/
def Obligations.FlagAccessTable : Prop :=
  (∀ (i : Instr) (s t : State), exec i s = .next t →
    t.flags.toBits &&& ~~~i.flagsWritten = s.flags.toBits &&& ~~~i.flagsWritten) ∧
  (∀ (i : Instr) (s t : State) (f : Flags), exec i s = .next t →
    f.toBits &&& i.flagsRead = s.flags.toBits &&& i.flagsRead →
    ∃ u, exec i (s.setFlags f) = .next u ∧ u.regs = t.regs ∧ u.pc = t.pc ∧ u.dmem = t.dmem ∧ u.imem = t.imem ∧
      u.flags.toBits &&& i.flagsWritten = t.flags.toBits &&& i.flagsWritten)

/-- PC is written by the branches, CALL and RETURN; every other instruction moves it to the next address (R24,
R25). -/
def Obligations.OnlyTransfersMovePc : Prop :=
  ∀ (i : Instr) (s t : State), exec i s = .next t → i.transfers = false → t.pc = s.pc + 1

/-- A step reads R1..R15, PC, F, the word at PC and, for LOAD, one data cell, and nothing else (R340): two states
that agree there have the same outcome, and each changes its data memory in the same way. -/
def Obligations.StepReadsOnly : Prop :=
  ∀ s₁ s₂ : State, (∀ r, s₁.reg r = s₂.reg r) → s₁.pc = s₂.pc → s₁.flags = s₂.flags → s₁.fetch = s₂.fetch →
    (∀ d o b, decode s₁.fetch = .instr (.load d o b) →
      s₁.dataCell (s₁.effAddr b o) = s₂.dataCell (s₂.effAddr b o)) →
    (∀ r, step s₁ = .refused r → step s₂ = .refused r) ∧
    (∀ t₁, step s₁ = .next t₁ → ∃ t₂, step s₂ = .next t₂ ∧ (∀ r, t₁.reg r = t₂.reg r) ∧ t₁.pc = t₂.pc ∧
      t₁.flags = t₂.flags ∧
      ∀ a, (t₁.dataCell a = s₁.dataCell a ∧ t₂.dataCell a = s₂.dataCell a) ∨ t₁.dataCell a = t₂.dataCell a)

/-! ### Reset and invariants -/

/-- After reset, with any value of the parameter RESET_FLAGS: PC is 0, every register is 0 and the flags are the
parameter (R33, R370; D8, D9); `State.reset` is the case of all flags off, the model's choice (log entry 1). Here reset
stands before the load: the rules have the program and the data statements in memory at reset, while the model loads
them into the reset state afterwards (D22, log entry 12), so that every data cell still has its INIT_DMEM content (D10,
log entry 3) and every instruction cell a free one (log entry 4). These two clauses are the model's choice. -/
def Obligations.ResetState : Prop :=
  State.reset = State.resetWith ⟨false, false, false, false, false⟩ ∧
  ∀ f : Flags, (State.resetWith f).pc = 0x0000 ∧ (∀ r, (State.resetWith f).reg r = 0x0000) ∧
    (State.resetWith f).flags = f ∧ (∀ a, (State.resetWith f).dataCell a = Config.initDMem a) ∧
    ∀ a, (State.resetWith f).instrCell a = Config.initIMem a

/-- Both memories are in canonical form after reset. The form is the model's own (log entry 3). -/
def Obligations.ResetIsCanonical : Prop :=
  State.reset.wf = true ∧ ∀ f : Flags, (State.resetWith f).wf = true

/-- Every step keeps both memories in canonical form, from every state that has it. The form is the model's own (log
entry 3): addresses strictly rising and all below 2^16 (R50, R51). -/
def Obligations.StepKeepsCanonicalMemory : Prop :=
  ∀ s t : State, s.wf = true → step s = .next t → t.wf = true

/-- Two canonical memories that record the same value for every one of the 2^16 cells are the same data (log entry
3). -/
def Obligations.CanonicalMemoryIsUnique : Prop :=
  ∀ m n : Memory, Memory.wf m = true → Memory.wf n = true →
    (∀ a : Word, Memory.find m a.toNat = Memory.find n a.toNat) → m = n

/-- The instruction memory never changes: not by one step, not during a run, so that no STORE can change what a later
fetch returns (R51, R63). That the two memories are separate is the spec's decision D5 (log entry 20), and that the
instruction memory stands in the state is the model's reading (log entry 2). -/
def Obligations.InstructionMemoryIsConstant : Prop :=
  (∀ s t : State, step s = .next t → t.imem = s.imem) ∧
  (∀ (n : Nat) (s t : State), Host.Core.run Sys2Proof.core n s = .next t → CodeKept s t)

/-- A step changes at most one data cell, only when it executes a STORE, and then the one at Rb + o (R31, R52,
R53). -/
def Obligations.DataChangesOnlyByStore : Prop :=
  ∀ (s t : State) (a : Word), step s = .next t →
    t.dataCell a = s.dataCell a ∨
      ∃ d o b, decode s.fetch = .instr (.store d o b) ∧ a = s.effAddr b o ∧ t.dataCell a = s.reg d

/-- Memory is sequential (R60), which is the spec's decision D6 (log entry 26): over a run in which no STORE to a cell
is executed the cell keeps its content; and a LOAD of the cell that an earlier STORE of the run wrote, with no STORE
to it in between, gets the value stored. -/
def Obligations.LoadReturnsLatestStore : Prop :=
  (∀ (n : Nat) (s t : State) (a : Word), Host.Core.run Sys2Proof.core n s = .next t →
    (∀ k u d o b, k < n → Host.Core.run Sys2Proof.core k s = .next u →
      decode u.fetch = .instr (.store d o b) → u.effAddr b o ≠ a) →
    t.dataCell a = s.dataCell a) ∧
  (∀ (n : Nat) (s₀ s t : State) (d b d' b' : Reg) (o o' : Nat),
    decode s₀.fetch = .instr (.store d o b) → step s₀ = .next s →
    Host.Core.run Sys2Proof.core n s = .next t →
    (∀ k u e p c, k < n → Host.Core.run Sys2Proof.core k s = .next u →
      decode u.fetch = .instr (.store e p c) → u.effAddr c p ≠ s₀.effAddr b o) →
    decode t.fetch = .instr (.load d' o' b') → t.effAddr b' o' = s₀.effAddr b o →
    ∃ u, step t = .next u ∧ u.reg d' = if d' = .r0 then 0 else s₀.reg d)

/-! ### SETLO and SETHI -/

/-- SETLO: Rd becomes the sign-extended immediate: bits 7:0 are v, bits 15:8 all bit 7 of v; no flag is written (R120,
R7). -/
def Obligations.SetloSignExtends : Prop :=
  ∀ (d : Reg) (v : BitVec 8) (s : State),
    ∃ t r, exec (.setlo d v) s = .next t ∧ WritesRegister s t d r s.flags ∧ r.toInt = v.toInt ∧
      ∀ i, i < 16 → r.getLsbD i = if i < 8 then v.getLsbD i else v.getLsbD 7

/-- SETHI: bits 15:8 of Rd become v, the low byte stays; no flag is written (R121). -/
def Obligations.SethiReplacesHighByte : Prop :=
  (∀ w : Word, fieldOp w = 0b1111 → decode w = .instr (.sethi (Reg.ofBits (fieldD w)) (fieldV w))) ∧
  (∀ (d : Reg) (v : BitVec 8) (s : State),
    ∃ t r, exec (.sethi d v) s = .next t ∧ WritesRegister s t d r s.flags ∧
      ∀ i, i < 16 → r.getLsbD i = if i < 8 then (s.reg d).getLsbD i else v.getLsbD (i - 8))

/-- SET is the pair SETLO, SETHI and puts any 16-bit value in Rd whatever Rd held; in the other order the high byte
would be the sign extension of the low byte; the pair is two words, as in the source's listings (R122). That SET is
always two words is the spec's decision D23 (log entry 22). -/
def Obligations.SetPairBuildsAnyWord : Prop :=
  (∀ (d : Reg) (w : Word) (s : State),
    ∃ t, execAll [.setlo d (w.extractLsb' 0 8), .sethi d (w.extractLsb' 8 8)] s = .next t ∧
      t.reg d = (if d = .r0 then 0 else w) ∧ (∀ i, i ≠ d → t.reg i = s.reg i) ∧ t.flags = s.flags ∧
      t.pc = s.pc + 2 ∧ DataKept s t ∧ CodeKept s t) ∧
  (∀ (d : Reg) (w : Word) (s : State), d ≠ .r0 →
    ∃ t, execAll [.sethi d (w.extractLsb' 8 8), .setlo d (w.extractLsb' 0 8)] s = .next t ∧
      ∀ i, 8 ≤ i → i < 16 → (t.reg d).getLsbD i = w.getLsbD 7) ∧
  (∀ (d : Reg) (w : Word), expandSet d w = [.setlo d (w.extractLsb' 0 8), .sethi d (w.extractLsb' 8 8)]) ∧
  (expandSet .rt 16960).map encode = [0xEB40, 0xFB42] ∧ (expandSet .rt 0xC001).map encode = [0xEB01, 0xFBC0] ∧
  (expandSet .r1 0xC001).map encode = [0xE101, 0xF1C0]

/-! ### Three-address instructions -/

/-- AND, OR, XOR: bit by bit; s and z from the result, v, c and carry-block kept; MOVE is OR with R0 (R137, R138,
R139). -/
def Obligations.BitwiseInstructions : Prop :=
  (∀ w : Word, let d := Reg.ofBits (fieldD w); let a := Reg.ofBits (fieldA w); let b := Reg.ofBits (fieldB w)
    (fieldOp w = 0b1000 → decode w = .instr (.and d a b)) ∧ (fieldOp w = 0b1001 → decode w = .instr (.or d a b)) ∧
    (fieldOp w = 0b1101 → decode w = .instr (.xor d a b))) ∧
  (∀ (d a b : Reg) (s : State),
    (∃ t r f, exec (.and d a b) s = .next t ∧ WritesRegister s t d r f ∧
      (∀ i, i < 16 → r.getLsbD i = ((s.reg a).getLsbD i && (s.reg b).getLsbD i)) ∧
      SZOf f r ∧ KeepsVCCb s.flags f) ∧
    (∃ t r f, exec (.or d a b) s = .next t ∧ WritesRegister s t d r f ∧
      (∀ i, i < 16 → r.getLsbD i = ((s.reg a).getLsbD i || (s.reg b).getLsbD i)) ∧
      SZOf f r ∧ KeepsVCCb s.flags f) ∧
    (∃ t r f, exec (.xor d a b) s = .next t ∧ WritesRegister s t d r f ∧
      (∀ i, i < 16 → r.getLsbD i = ((s.reg a).getLsbD i ^^ (s.reg b).getLsbD i)) ∧
      SZOf f r ∧ KeepsVCCb s.flags f)) ∧
  (∀ a b : Reg, expandMove a b = [.or a b .r0])

/-- ADD: the sum with the carry taken in unless carry-block is on; c when it reaches 2^16, v when the signed sum does
not fit, which is when the signed result is not the signed sum (R131). That both tests count the carry taken in is
the spec's decision D1 (log entry 7). -/
def Obligations.AddWithCarry : Prop :=
  ∀ (d a b : Reg) (s : State),
    let cin : Nat := if s.flags.c = true ∧ s.flags.cb = false then 1 else 0
    let usum : Nat := (s.reg a).toNat + (s.reg b).toNat + cin
    let ssum : Int := (s.reg a).toInt + (s.reg b).toInt + cin
    ∃ t r f, exec (.add d a b) s = .next t ∧ WritesRegister s t d r f ∧ r.toNat = usum % 65536 ∧ SZOf f r ∧
      (f.c = true ↔ 65536 ≤ usum) ∧ (f.v = true ↔ ssum < -32768 ∨ 32767 < ssum) ∧ (f.v = true ↔ r.toInt ≠ ssum) ∧
      f.cb = s.flags.cb

/-- SUB: the difference with the borrow taken in unless carry-block is on; c when nothing was borrowed, v when the
signed difference does not fit (R132). That both tests count the borrow taken in is the spec's decision D1, that c is
set on equality D2 (log entry 7). -/
def Obligations.SubWithBorrow : Prop :=
  ∀ (d a b : Reg) (s : State),
    let bin : Nat := if s.flags.c = false ∧ s.flags.cb = false then 1 else 0
    let udiff : Int := ((s.reg a).toNat : Int) - (s.reg b).toNat - bin
    let sdiff : Int := (s.reg a).toInt - (s.reg b).toInt - bin
    ∃ t r f, exec (.sub d a b) s = .next t ∧ WritesRegister s t d r f ∧ (r.toNat : Int) = udiff % 65536 ∧ SZOf f r ∧
      (f.c = true ↔ 0 ≤ udiff) ∧ (f.v = true ↔ sdiff < -32768 ∨ 32767 < sdiff) ∧ (f.v = true ↔ r.toInt ≠ sdiff) ∧
      f.cb = s.flags.cb

/-- MUL: with carry-block on or all flags off the low word of the product, with s alone the high word of the signed
product; s and z from the word produced, c and v from the exact products (R134, R135). c and v of the high mode are
the spec's decision D12 (log entry 9). -/
def Obligations.MulResults : Prop :=
  (∀ (d a b : Reg) (s : State), s.flags.cb = true ∨ s.flags = ⟨false, false, false, false, false⟩ →
    let up : Nat := (s.reg a).toNat * (s.reg b).toNat
    let sp : Int := (s.reg a).toInt * (s.reg b).toInt
    ∃ t r f, exec (.mul d a b) s = .next t ∧ WritesRegister s t d r f ∧ r.toNat = up % 65536 ∧ SZOf f r ∧
      (f.c = true ↔ 65536 ≤ up) ∧ (f.v = true ↔ sp < -32768 ∨ 32767 < sp) ∧ (f.v = true ↔ r.toInt ≠ sp) ∧
      f.cb = s.flags.cb) ∧
  (∀ (d a b : Reg) (s : State), s.flags = ⟨true, false, false, false, false⟩ →
    let up : Nat := (s.reg a).toNat * (s.reg b).toNat
    let sp : Int := (s.reg a).toInt * (s.reg b).toInt
    ∃ t r f, exec (.mul d a b) s = .next t ∧ WritesRegister s t d r f ∧ r.toInt = sp / 65536 ∧ SZOf f r ∧
      (f.c = true ↔ 65536 ≤ up) ∧ (f.v = true ↔ sp < -32768 ∨ 32767 < sp) ∧ f.cb = s.flags.cb)

/-- MUL with carry-block off and any other flag but s on is refused, whatever the operands (R136). The refusal is the
spec's decision D13 (log entry 15). -/
def Obligations.MulUndefinedModesRefused : Prop :=
  ∀ (d a b : Reg) (s : State), s.flags.cb = false → (s.flags.c = true ∨ s.flags.v = true ∨ s.flags.z = true) →
    exec (.mul d a b) s = .refused .mulFlagMode

/-- The two MULs, low word with FSET5(0) and high word with FSET5(1), make the 32-bit signed product (R134, R135). -/
def Obligations.MulPairMakesLongProduct : Prop :=
  ∀ (h l a b : Reg) (s : State), h ≠ .r0 → l ≠ .r0 → l ≠ h → l ≠ a → l ≠ b →
    ∃ t, execAll [.fset5 0x00, .mul l a b, .fset5 0x01, .mul h a b] s = .next t ∧
      (t.reg h).toInt * 65536 + (t.reg l).toNat = (s.reg a).toInt * (s.reg b).toInt

/-- With carry-block off, COFF and two ADDs add two 32-bit numbers, CON and two SUBs subtract them, and the last carry
is that of the whole (R141; D1, D2, log entry 7). -/
def Obligations.TwoWordAddAndSubtract : Prop :=
  ∀ (dh dl ah al bh bl : Reg) (s : State), s.flags.cb = false → dh ≠ .r0 → dl ≠ .r0 → dl ≠ dh → dl ≠ ah → dl ≠ bh →
    let x : Nat := (s.reg ah).toNat * 65536 + (s.reg al).toNat
    let y : Nat := (s.reg bh).toNat * 65536 + (s.reg bl).toNat
    (∃ t, execAll [.foff 0x08, .add dl al bl, .add dh ah bh] s = .next t ∧
      (t.reg dh).toNat * 65536 + (t.reg dl).toNat = (x + y) % 4294967296 ∧
      (t.flags.c = true ↔ 4294967296 ≤ x + y)) ∧
    (∃ t, execAll [.fon 0x08, .sub dl al bl, .sub dh ah bh] s = .next t ∧
      (((t.reg dh).toNat * 65536 + (t.reg dl).toNat : Nat) : Int) = ((x : Int) - y) % 4294967296 ∧
      (t.flags.c = true ↔ y ≤ x))

/-! ### INC and DEC -/

/-- INC: Rd plus δ, the incoming carry ignored; flags as ADD of the constant (R150). The field holds δ - 1. -/
def Obligations.IncAddsDelta : Prop :=
  (∀ w : Word, fieldOp w = 0b0011 → w.getLsbD 7 = true → w.getLsbD 6 = false →
    decode w = .instr (.inc (Reg.ofBits (fieldD w)) ((w.extractLsb' 0 6).toNat + 1))) ∧
  (∀ (d : Reg) (delta : Nat) (s : State), 1 ≤ delta → delta ≤ 64 →
    let usum : Nat := (s.reg d).toNat + delta
    let ssum : Int := (s.reg d).toInt + delta
    ∃ t r f, exec (.inc d delta) s = .next t ∧ WritesRegister s t d r f ∧ r.toNat = usum % 65536 ∧ SZOf f r ∧
      (f.c = true ↔ 65536 ≤ usum) ∧ (f.v = true ↔ 32767 < ssum) ∧ f.cb = s.flags.cb)

/-- DEC: Rd minus δ, no borrow taken in; c when nothing was borrowed (R151). The field holds δ - 1. That c is set on
equality is the spec's decision D2 (log entry 7). -/
def Obligations.DecSubtractsDelta : Prop :=
  (∀ w : Word, fieldOp w = 0b0011 → w.getLsbD 7 = true → w.getLsbD 6 = true →
    decode w = .instr (.dec (Reg.ofBits (fieldD w)) ((w.extractLsb' 0 6).toNat + 1))) ∧
  (∀ (d : Reg) (delta : Nat) (s : State), 1 ≤ delta → delta ≤ 64 →
    let udiff : Int := ((s.reg d).toNat : Int) - delta
    let sdiff : Int := (s.reg d).toInt - delta
    ∃ t r f, exec (.dec d delta) s = .next t ∧ WritesRegister s t d r f ∧ (r.toNat : Int) = udiff % 65536 ∧
      SZOf f r ∧ (f.c = true ↔ delta ≤ (s.reg d).toNat) ∧ (f.v = true ↔ sdiff < -32768) ∧ f.cb = s.flags.cb)

/-! ### Shifts -/

/-- LSL and LSR: one bit, the usable carry shifted in, the bit shifted out into c, v and carry-block kept (R160,
R161): a 17-bit rotate through c when carry-block is off. -/
def Obligations.LogicalShiftsByOne : Prop :=
  (∀ w : Word, fieldOp w = 0b0011 →
    (fieldA w = 0b0000 → decode w = .instr (.lsl (Reg.ofBits (fieldD w)) (Reg.ofBits (fieldB w)))) ∧
    (fieldA w = 0b0001 → decode w = .instr (.lsr (Reg.ofBits (fieldD w)) (Reg.ofBits (fieldB w))))) ∧
  (∀ (d b : Reg) (s : State),
    let cin : Bool := s.flags.c && !s.flags.cb
    (∃ t r f, exec (.lsl d b) s = .next t ∧ WritesRegister s t d r f ∧
      r.toNat + 65536 * f.c.toNat = 2 * (s.reg b).toNat + cin.toNat ∧
      f.c = (s.reg b).getLsbD 15 ∧ SZOf f r ∧ f.v = s.flags.v ∧ f.cb = s.flags.cb) ∧
    (∃ t r f, exec (.lsr d b) s = .next t ∧ WritesRegister s t d r f ∧
      2 * r.toNat + f.c.toNat = (s.reg b).toNat + 65536 * cin.toNat ∧
      f.c = (s.reg b).getLsbD 0 ∧ SZOf f r ∧ f.v = s.flags.v ∧ f.cb = s.flags.cb))

/-- LSL8 and LSR8: eight bits, zeros in; s and z from the result, the other flags kept (R162, R163). -/
def Obligations.ShiftsByEight : Prop :=
  (∀ w : Word, fieldOp w = 0b0011 →
    (fieldA w = 0b0010 → decode w = .instr (.lsl8 (Reg.ofBits (fieldD w)) (Reg.ofBits (fieldB w)))) ∧
    (fieldA w = 0b0011 → decode w = .instr (.lsr8 (Reg.ofBits (fieldD w)) (Reg.ofBits (fieldB w))))) ∧
  (∀ (d b : Reg) (s : State),
    (∃ t r f, exec (.lsl8 d b) s = .next t ∧ WritesRegister s t d r f ∧
      (∀ i, i < 16 → r.getLsbD i = if i < 8 then false else (s.reg b).getLsbD (i - 8)) ∧
      SZOf f r ∧ KeepsVCCb s.flags f) ∧
    (∃ t r f, exec (.lsr8 d b) s = .next t ∧ WritesRegister s t d r f ∧
      (∀ i, i < 16 → r.getLsbD i = if i < 8 then (s.reg b).getLsbD (i + 8) else false) ∧
      SZOf f r ∧ f.s = false ∧ KeepsVCCb s.flags f))

/-- ASL: one bit left, the usable carry in, c the bit out, v when bits 15 and 14 of Rb differ; and it leaves exactly
the state that ADD(d, b, b) leaves (R164). The second half rests on the spec's decision D1 (log entry 7). -/
def Obligations.AslIsAddToItself : Prop :=
  ∀ (d b : Reg) (s : State),
    let cin : Bool := s.flags.c && !s.flags.cb
    (∃ t r f, exec (.asl d b) s = .next t ∧ WritesRegister s t d r f ∧
      r.toNat = (2 * (s.reg b).toNat + cin.toNat) % 65536 ∧ f.c = (s.reg b).getLsbD 15 ∧
      f.v = ((s.reg b).getLsbD 15 ^^ (s.reg b).getLsbD 14) ∧ SZOf f r ∧ f.cb = s.flags.cb) ∧
    exec (.asl d b) s = exec (.add d b b) s

/-- ASR: half of the signed value, rounded toward minus infinity, the remainder in c; v and carry-block kept, no flag
read (R165). The rounding and c are the spec's decision D18 (log entry 10). -/
def Obligations.AsrHalvesSigned : Prop :=
  ∀ (d b : Reg) (s : State),
    ∃ t r f, exec (.asr d b) s = .next t ∧ WritesRegister s t d r f ∧ r.toInt = (s.reg b).toInt / 2 ∧
      2 * r.toInt + f.c.toNat = (s.reg b).toInt ∧ f.c = (s.reg b).getLsbD 0 ∧
      (∀ i, i < 16 → r.getLsbD i = if i = 15 then (s.reg b).getLsbD 15 else (s.reg b).getLsbD (i + 1)) ∧
      SZOf f r ∧ f.v = s.flags.v ∧ f.cb = s.flags.cb

/-! ### Flag instructions -/

/-- SAVEF writes F, bit i being flag Fi, and changes no flag; RSTRF sets flag Fi to bit i of Rd and changes no register;
a RSTRF of an untouched saved value restores the flags (R180, R181). The zeros in bits 15:5 and that RSTRF ignores
them are the spec's decision D11 (log entry 8). -/
def Obligations.SaveAndRestoreFlags : Prop :=
  (∀ (d : Reg) (s : State), ∃ t r, exec (.savef d) s = .next t ∧ WritesRegister s t d r s.flags ∧
    r.getLsbD 0 = s.flags.s ∧ r.getLsbD 1 = s.flags.z ∧ r.getLsbD 2 = s.flags.v ∧ r.getLsbD 3 = s.flags.c ∧
    r.getLsbD 4 = s.flags.cb ∧ ∀ i, 5 ≤ i → r.getLsbD i = false) ∧
  (∀ (d : Reg) (s : State), ∃ t, exec (.rstrf d) s = .next t ∧ WritesNoRegister s t
    ⟨(s.reg d).getLsbD 0, (s.reg d).getLsbD 1, (s.reg d).getLsbD 2, (s.reg d).getLsbD 3, (s.reg d).getLsbD 4⟩
    (s.pc + 1)) ∧
  (∀ (d : Reg) (s t u : State), d ≠ .r0 → exec (.savef d) s = .next t → u.reg d = t.reg d →
    ∃ w, exec (.rstrf d) u = .next w ∧ w.flags = s.flags)

/-- FON turns on and FOFF turns off every flag whose mask bit is 1, and leave the others; the words of CON, CBON, COFF,
CCBOFF (R182, R183). -/
def Obligations.SetAndClearNamedFlags : Prop :=
  (∀ w : Word, fieldOp w = 0b0011 → fieldA w = 0b0110 →
    (w.extractLsb' 9 3 = 0b000 → decode w = .instr (.fon (fieldMask w))) ∧
    (w.extractLsb' 9 3 = 0b100 → decode w = .instr (.foff (fieldMask w)))) ∧
  (∀ (m : BitVec 5) (s : State), ∃ t, exec (.fon m) s = .next t ∧ WritesNoRegister s t
    ⟨s.flags.s || m.getLsbD 0, s.flags.z || m.getLsbD 1, s.flags.v || m.getLsbD 2, s.flags.c || m.getLsbD 3,
      s.flags.cb || m.getLsbD 4⟩ (s.pc + 1)) ∧
  (∀ (m : BitVec 5) (s : State), ∃ t, exec (.foff m) s = .next t ∧ WritesNoRegister s t
    ⟨s.flags.s && !m.getLsbD 0, s.flags.z && !m.getLsbD 1, s.flags.v && !m.getLsbD 2, s.flags.c && !m.getLsbD 3,
      s.flags.cb && !m.getLsbD 4⟩ (s.pc + 1)) ∧
  encode instrCon = 0x3068 ∧ encode instrCbon = 0x3160 ∧ encode instrCoff = 0x3868 ∧ encode instrCcboff = 0x3968

/-- FSET5 gives all five flags the mask's bits (R184). -/
def Obligations.SetAllFlags : Prop :=
  (∀ w : Word, fieldOp w = 0b0011 → fieldA w = 0b0110 → w.extractLsb' 9 3 = 0b010 →
    decode w = .instr (.fset5 (fieldMask w))) ∧
  (∀ (m : BitVec 5) (s : State), ∃ t, exec (.fset5 m) s = .next t ∧ WritesNoRegister s t
    ⟨m.getLsbD 0, m.getLsbD 1, m.getLsbD 2, m.getLsbD 3, m.getLsbD 4⟩ (s.pc + 1))

/-- FSET4 gives s, z, v, c the low four mask bits and leaves carry-block (R185). That mask bit 4 has no effect is the
spec's decision D19 (log entry 11). -/
def Obligations.SetFourFlags : Prop :=
  ∀ (m : BitVec 5) (s : State),
    (∃ t, exec (.fset4 m) s = .next t ∧ WritesNoRegister s t
      ⟨m.getLsbD 0, m.getLsbD 1, m.getLsbD 2, m.getLsbD 3, s.flags.cb⟩ (s.pc + 1)) ∧
    exec (.fset4 (m ^^^ 0x10)) s = exec (.fset4 m) s

/-! ### LOAD and STORE -/

/-- LOAD: Rd becomes the data cell at (Rb + o) mod 2^16, s and z from it, the other flags and all of memory kept (R200,
R56). The wrap of the address is the spec's decision D4 (log entry 6). -/
def Obligations.LoadReadsCell : Prop :=
  ∀ (d b : Reg) (o : Nat) (s : State),
    (s.effAddr b o).toNat = ((s.reg b).toNat + o) % 65536 ∧
    ∃ t f, exec (.load d o b) s = .next t ∧ WritesRegister s t d (s.dataCell (s.effAddr b o)) f ∧
      SZOf f (s.dataCell (s.effAddr b o)) ∧ KeepsVCCb s.flags f

/-- STORE: the data cell at (Rb + o) mod 2^16 becomes Rd; every other cell, every register and every flag is kept (R201,
R56). The wrap of the address is the spec's decision D4 (log entry 6). -/
def Obligations.StoreWritesCell : Prop :=
  ∀ (d b : Reg) (o : Nat) (s : State),
    (s.effAddr b o).toNat = ((s.reg b).toNat + o) % 65536 ∧
    ∃ t, exec (.store d o b) s = .next t ∧ t.dataCell (s.effAddr b o) = s.reg d ∧
      (∀ a, a ≠ s.effAddr b o → t.dataCell a = s.dataCell a) ∧ (∀ i, t.reg i = s.reg i) ∧ t.flags = s.flags ∧
      t.pc = s.pc + 1 ∧ CodeKept s t

/-! ### Branches -/

/-- The four signed-order branches in register mode, and what they test after CMP or a
SUB without a borrow in (R213, R215, R217, R219). -/
def Obligations.SignedOrderBranches : Prop :=
  RegisterBranch 0b0010 .bl (fun f => f.s ^^ f.v) ∧
  RegisterBranch 0b0011 .bge (fun f => !(f.s ^^ f.v)) ∧
  RegisterBranch 0b0100 .ble (fun f => (f.s ^^ f.v) || f.z) ∧
  RegisterBranch 0b0101 .bg (fun f => !((f.s ^^ f.v) || f.z)) ∧
  TakenAfterCompare (fun f => f.s ^^ f.v) (fun x y => x.toInt < y.toInt) ∧
  TakenAfterCompare (fun f => !(f.s ^^ f.v)) (fun x y => y.toInt ≤ x.toInt) ∧
  TakenAfterCompare (fun f => (f.s ^^ f.v) || f.z) (fun x y => x.toInt ≤ y.toInt) ∧
  TakenAfterCompare (fun f => !((f.s ^^ f.v) || f.z)) (fun x y => y.toInt < x.toInt)

/-- The four branches on the unsigned order in register mode, and what they test after
CMP or a SUB without a borrow in (R221, R223, R229, R231). That c is set on equality is the spec's decision D2 (log entry
7). -/
def Obligations.UnsignedOrderBranches : Prop :=
  RegisterBranch 0b0110 .bule (fun f => !f.c || f.z) ∧
  RegisterBranch 0b0111 .bug (fun f => !(!f.c || f.z)) ∧
  RegisterBranch 0b1010 .bc (fun f => f.c) ∧
  RegisterBranch 0b1011 .bnc (fun f => !f.c) ∧
  TakenAfterCompare (fun f => !f.c || f.z) (fun x y => x.toNat ≤ y.toNat) ∧
  TakenAfterCompare (fun f => !(!f.c || f.z)) (fun x y => y.toNat < x.toNat) ∧
  TakenAfterCompare (fun f => f.c) (fun x y => y.toNat ≤ x.toNat) ∧
  TakenAfterCompare (fun f => !f.c) (fun x y => x.toNat < y.toNat)

/-- BR and the branches on one flag in register mode (R211, R225, R227, R233, R235, R237, R239). -/
def Obligations.SingleFlagBranches : Prop :=
  RegisterBranch 0b0000 .br (fun _ => true) ∧
  RegisterBranch 0b1000 .bz (fun f => f.z) ∧
  RegisterBranch 0b1001 .bnz (fun f => !f.z) ∧
  RegisterBranch 0b1100 .bs (fun f => f.s) ∧
  RegisterBranch 0b1101 .bns (fun f => !f.s) ∧
  RegisterBranch 0b1110 .bv (fun f => f.v) ∧
  RegisterBranch 0b1111 .bnv (fun f => !f.v) ∧
  TakenAfterCompare (fun f => f.z) (fun x y => x = y) ∧
  TakenAfterCompare (fun f => !f.z) (fun x y => x ≠ y)

/-- The fifteen relative branches: the offset counts from the branch itself (R210 and the rule of each). The wrap of the
sum is the spec's decision D3 (log entry 5). -/
def Obligations.RelativeBranches : Prop :=
  RelativeBranch 0b0000 .brr (fun _ => true) ∧
  RelativeBranch 0b0010 .blr (fun f => f.s ^^ f.v) ∧
  RelativeBranch 0b0011 .bger (fun f => !(f.s ^^ f.v)) ∧
  RelativeBranch 0b0100 .bler (fun f => (f.s ^^ f.v) || f.z) ∧
  RelativeBranch 0b0101 .bgr (fun f => !((f.s ^^ f.v) || f.z)) ∧
  RelativeBranch 0b0110 .buler (fun f => !f.c || f.z) ∧
  RelativeBranch 0b0111 .bugr (fun f => !(!f.c || f.z)) ∧
  RelativeBranch 0b1000 .bzr (fun f => f.z) ∧
  RelativeBranch 0b1001 .bnzr (fun f => !f.z) ∧
  RelativeBranch 0b1010 .bcr (fun f => f.c) ∧
  RelativeBranch 0b1011 .bncr (fun f => !f.c) ∧
  RelativeBranch 0b1100 .bsr (fun f => f.s) ∧
  RelativeBranch 0b1101 .bnsr (fun f => !f.s) ∧
  RelativeBranch 0b1110 .bvr (fun f => f.v) ∧
  RelativeBranch 0b1111 .bnvr (fun f => !f.v)

/-- The flags after a comparison, whether by CMP or by a SUB that takes no borrow in: z equality, c the unsigned order, and
s xor v the signed order (R243; D2, log entry 7). -/
def Obligations.FlagsAfterComparison : Prop :=
  (∀ (a b : Reg) (s : State), ∃ t, execAll [.fon 0x08, .sub .r0 a b] s = .next t ∧
    (t.flags.z = true ↔ s.reg a = s.reg b) ∧ (t.flags.c = true ↔ (s.reg b).toNat ≤ (s.reg a).toNat) ∧
    ((t.flags.s ^^ t.flags.v) = true ↔ (s.reg a).toInt < (s.reg b).toInt) ∧ t.flags.cb = s.flags.cb ∧
    (∀ i, t.reg i = s.reg i) ∧ t.pc = s.pc + 2 ∧ DataKept s t) ∧
  (∀ (d a b : Reg) (s : State), s.flags.c = true ∨ s.flags.cb = true → ∃ t, exec (.sub d a b) s = .next t ∧
    (t.flags.z = true ↔ s.reg a = s.reg b) ∧ (t.flags.c = true ↔ (s.reg b).toNat ≤ (s.reg a).toNat) ∧
    ((t.flags.s ^^ t.flags.v) = true ↔ (s.reg a).toInt < (s.reg b).toInt))

/-- HALT is the word 0x0000, BRR(0), and leaves the whole state as it is; NOP is 0x0001, BRR(1), and only moves PC to the
next address; a taken relative branch with offset 0 is a fixed point too (R241, R242). -/
def Obligations.HaltAndNop : Prop :=
  decode 0x0000 = .instr (.brr 0) ∧ decode 0x0001 = .instr (.brr 1) ∧
  (∀ s : State, exec (.brr 0) s = .next s) ∧ (∀ s : State, exec (.brr 1) s = .next { s with pc := s.pc + 1 }) ∧
  (∀ (cond : Cond) (s : State), Cond.holds cond s.flags = true → exec (branchRelInstr cond 0) s = .next s)

/-- From a state whose next word is HALT no step ever changes anything again (R376). That such a state is final is the
spec's convention D7 (log entry 18). -/
def Obligations.HaltedStateNeverChanges : Prop :=
  ∀ (n : Nat) (s : State), s.halted = true → Host.Core.run Sys2Proof.core n s = .next s

/-! ### CALL and RETURN -/

/-- CALL and RETURN are one operation: PC gets Rb, Rb the return address, FP gets Ra, Ra the old FP, all from before the
instruction; no flag, no memory and no other register changes (R260, R261, R262). A write to R0 is discarded. -/
def Obligations.CallAndReturnExchange : Prop :=
  (∀ w : Word, fieldOp w = 0b0010 →
    (fieldD w = 0b0000 → decode w = .instr (.call (Reg.ofBits (fieldA w)) (Reg.ofBits (fieldB w)))) ∧
    (fieldD w = 0b0001 → decode w = .instr (.ret (Reg.ofBits (fieldA w)) (Reg.ofBits (fieldB w))))) ∧
  (∀ (a b : Reg) (s : State), exec (.ret a b) s = exec (.call a b) s) ∧
  (∀ (a b : Reg) (s : State), (a = .r0 ∨ a ≠ b) → b ≠ .r14 →
    ∃ t, exec (.call a b) s = .next t ∧ exec (.ret a b) s = .next t ∧ t.pc = s.reg b ∧
      (b ≠ .r0 → t.reg b = s.pc + 1) ∧ t.reg .r14 = s.reg a ∧ (a ≠ .r0 → t.reg a = s.reg .r14) ∧
      (∀ i, i ≠ a → i ≠ b → i ≠ .r14 → t.reg i = s.reg i) ∧ t.reg .r0 = 0 ∧ t.flags = s.flags ∧ DataKept s t ∧
      CodeKept s t)

/-- CALL and RETURN with a = b other than R0, or b = R14, are refused (R263). The refusal is the spec's decision D17 (log
entry 16). -/
def Obligations.CallRegisterClashRefused : Prop :=
  ∀ (a b : Reg) (s : State), (a = b ∧ a ≠ .r0) ∨ b = .r14 →
    exec (.call a b) s = .refused .callRegisterClash ∧ exec (.ret a b) s = .refused .callRegisterClash

/-- A RETURN that finds Ra, Rb and FP as the CALL left them puts the return address back into PC and the caller's frame
pointer back into FP, and leaves in Ra the callee's frame and in Rb the address after the RETURN (R262). -/
def Obligations.ReturnUndoesCall : Prop :=
  ∀ (a b : Reg) (s t u : State), a ≠ .r0 → b ≠ .r0 → exec (.call a b) s = .next t →
    u.reg a = t.reg a → u.reg b = t.reg b → u.reg .fp = t.reg .fp →
    ∃ v, exec (.ret a b) u = .next v ∧ v.pc = s.pc + 1 ∧ v.reg .fp = s.reg .fp ∧ v.reg a = s.reg a ∧
      v.reg b = u.pc + 1

/-! ### Reserved names -/

/-- SWI and RTI decode to their names and executing them is refused, in every state (R280, R281). The refusal is the
spec's decision D15 (log entry 17). -/
def Obligations.ReservedInstructionsRefused : Prop :=
  (∀ w : Word, w.extractLsb' 4 12 = 0x220 → decode w = .instr (.swi (w.extractLsb' 0 4).toNat)) ∧
  decode 0x2300 = .instr .rti ∧
  (∀ (i : Nat) (s : State), exec (.swi i) s = .refused (.swi i)) ∧ (∀ s : State, exec .rti s = .refused .rti)

/-! ### The assembler and the loader -/

/-- Every statement that assembles makes as many words as the table of sizes says, whatever its operands and wherever it
stands (R312). That SET is always two words, SETRF four, and a register-mode branch or a CALL with a label three is
the spec's decision D23 (log entry 22). -/
def Obligations.StatementSizes : Prop :=
  ∀ (ns : Names) (at_ : Nat) (st : AsmStmt) (ws : List Word), st.code ns at_ = .ok ws → ws.length = st.size

/-- What the expansions of MOVE, NEG, NOT, FLAGS and SETRF do, for every operand, R0 and R11 among them (R292, R294,
R295, R300, R291). NOT overwrites R11 first, so that NOT(d, R11) gives 0. That NEG sets c exactly when Rb is 0 rests on
the spec's decision D2 (log entry 7), that SETRF is four words on D23 (log entry 22). -/
def Obligations.PseudoOperationEffects : Prop :=
  (∀ (a b : Reg) (s : State), ∃ t, execAll (expandMove a b) s = .next t ∧
    t.reg a = (if a = .r0 then 0 else s.reg b) ∧ (∀ i, i ≠ a → t.reg i = s.reg i) ∧ SZOf t.flags (s.reg b) ∧
    KeepsVCCb s.flags t.flags) ∧
  (∀ (d b : Reg) (s : State), ∃ t r, execAll (expandNeg d b) s = .next t ∧
    ((BitVec.toNat r : Nat) : Int) = -((s.reg b).toNat : Int) % 65536 ∧ t.reg d = (if d = .r0 then 0 else r) ∧
    (∀ i, i ≠ d → t.reg i = s.reg i) ∧ SZOf t.flags r ∧ (t.flags.c = true ↔ s.reg b = 0) ∧
    (t.flags.v = true ↔ s.reg b = 0x8000) ∧ t.flags.cb = s.flags.cb) ∧
  (∀ (d b : Reg) (s : State), ∃ t r, execAll (expandNot d b) s = .next t ∧
    r = (if b = .r11 then 0 else ~~~(s.reg b)) ∧ t.reg d = (if d = .r0 then 0 else r) ∧
    (d ≠ .r11 → t.reg .r11 = 0xFFFF) ∧ (∀ i, i ≠ d → i ≠ .r11 → t.reg i = s.reg i) ∧ SZOf t.flags r ∧
    KeepsVCCb s.flags t.flags) ∧
  (∀ (a : Reg) (s : State), ∃ t, execAll (expandFlags a) s = .next t ∧ (∀ i, t.reg i = s.reg i) ∧
    SZOf t.flags (s.reg a) ∧ t.flags.v = false ∧ t.flags.c = false ∧ t.flags.cb = s.flags.cb) ∧
  (∀ (d : Reg) (w : Word) (s : State), ∃ t, execAll (expandSet d w ++ expandFlags d) s = .next t ∧
    t.reg d = (if d = .r0 then 0 else w) ∧ (∀ i, i ≠ d → t.reg i = s.reg i) ∧ SZOf t.flags (t.reg d) ∧
    t.flags.v = false ∧ t.flags.c = false ∧ t.flags.cb = s.flags.cb)

/-- Loading places word k of the program at instruction address k and data cell k at 0xC001 + k, skips the cells that
DSKIP reserves, and changes nothing else (R372; D22, log entry 12). -/
def Obligations.LoaderPlacesProgram : Prop :=
  ∀ (s : State) (img : Image), img.code.length ≤ 65536 → 0xC001 + img.data.length ≤ 65536 →
    (∀ (k : Nat) (w : Word), img.code[k]? = some w → (s.load img).instrCell (BitVec.ofNat 16 k) = w) ∧
    (∀ a : Word, img.code.length ≤ a.toNat → (s.load img).instrCell a = s.instrCell a) ∧
    (∀ (k : Nat) (v : Word), img.data[k]? = some (some v) →
      (s.load img).dataCell (BitVec.ofNat 16 (0xC001 + k)) = v) ∧
    (∀ a : Word, (∀ (k : Nat) (v : Word), img.data[k]? = some (some v) → a ≠ BitVec.ofNat 16 (0xC001 + k)) →
      (s.load img).dataCell a = s.dataCell a) ∧
    (s.load img).regs = s.regs ∧ (s.load img).pc = s.pc ∧ (s.load img).flags = s.flags

/-- A branch or a CALL written with an instruction label goes to the label's address (R244, R305 to R309). In register
mode the address goes through R11, which is overwritten taken or not; in relative mode the offset is the distance from
the branch, also when the label stands as the operand of the numeric form, and a label farther than -128..127 is
rejected (D23, log entry 22). CALL uses R13, so that a = R13 is a clash (R263). The address is taken modulo 2^16: for
a label after the last cell, whose address is 65536, going to address 0 is the model's choice and no rule's (log entry
23). -/
def Obligations.LabelOperandsReachLabel : Prop :=
  ∀ (ns : Names) (at_ : Nat) (x : AsmName) (n : Int), lookupName x ns.labels = some n →
    let target := BitVec.ofInt 16 n
    (∀ (cond : Cond) (s : State), ∃ t,
      (AsmStmt.branchTo cond x).code ns at_ = .ok ((expandSet .r11 target ++ [branchInstr cond .r11]).map encode) ∧
      execAll (expandSet .r11 target ++ [branchInstr cond .r11]) s = .next t ∧
      t.pc = (if Cond.holds cond s.flags then target else s.pc + 3) ∧ t.reg .r11 = target ∧
      (∀ i, i ≠ .r11 → t.reg i = s.reg i) ∧ t.flags = s.flags ∧ DataKept s t ∧ CodeKept s t) ∧
    (∀ (cond : Cond) (s : State), -128 ≤ n - at_ → n - at_ ≤ 127 → s.pc = BitVec.ofNat 16 at_ → ∃ o t,
      (AsmStmt.branchRelTo cond x).code ns at_ = .ok [encode (branchRelInstr cond o)] ∧
      (AsmStmt.imm (.relative cond) (.name x)).code ns at_ = .ok [encode (branchRelInstr cond o)] ∧
      BitVec.toInt o = n - at_ ∧ exec (branchRelInstr cond o) s = .next t ∧
      WritesNoRegister s t s.flags (if Cond.holds cond s.flags then target else s.pc + 1)) ∧
    (∀ cond : Cond, n - at_ < -128 ∨ 127 < n - at_ →
      (AsmStmt.branchRelTo cond x).code ns at_ = .error (.tooFar x) ∧
      (AsmStmt.imm (.relative cond) (.name x)).code ns at_ = .error (.tooFar x)) ∧
    (∀ (a : Reg) (s : State), a ≠ .r13 → ∃ t,
      (AsmStmt.callTo a x).code ns at_ = .ok ((expandSet .r13 target ++ [Instr.call a .r13]).map encode) ∧
      execAll (expandSet .r13 target ++ [Instr.call a .r13]) s = .next t ∧ t.pc = target ∧ t.reg .r13 = s.pc + 3 ∧
      t.reg .r14 = s.reg a ∧ (a ≠ .r0 → t.reg a = s.reg .r14) ∧
      (∀ i, i ≠ a → i ≠ .r13 → i ≠ .r14 → t.reg i = s.reg i) ∧ t.flags = s.flags ∧ DataKept s t ∧ CodeKept s t)

end Statements
end

