-- ==== Sys2Proof/Laws/Decode.lean ====
section
/-! SUPPORT. The laws of the instruction formats (spec/30_encoding.md R80 to R93): each field read back from each
format, and each word rebuilt from its fields. -/

namespace Sys2Proof

/-! ### Register numbers -/

@[simp] theorem Reg.ofBits_toBits (r : Reg) : Reg.ofBits r.toBits = r := by cases r <;> rfl

@[simp] theorem Reg.toBits_ofBits (n : BitVec 4) : (Reg.ofBits n).toBits = n := by
  revert n; decide

/-- Two registers with one number are one register (R20). -/
theorem Reg.toBits_inj (r q : Reg) (h : r.toBits = q.toBits) : r = q := by
  rw [← Reg.ofBits_toBits r, ← Reg.ofBits_toBits q, h]

/-! ### The four 4-bit fields -/

section
variable (op d a b : BitVec 4)

@[simp] theorem fieldOp_ofFields : fieldOp (ofFields op d a b) = op := by
  ext i hi
  simp only [fieldOp, ofFields, BitVec.getElem_extractLsb', BitVec.getLsbD_or, BitVec.getLsbD_shiftLeft,
    BitVec.getLsbD_setWidth]
  interval_cases i <;> simp

@[simp] theorem fieldD_ofFields : fieldD (ofFields op d a b) = d := by
  ext i hi
  simp only [fieldD, ofFields, BitVec.getElem_extractLsb', BitVec.getLsbD_or, BitVec.getLsbD_shiftLeft,
    BitVec.getLsbD_setWidth]
  interval_cases i <;> simp

@[simp] theorem fieldA_ofFields : fieldA (ofFields op d a b) = a := by
  ext i hi
  simp only [fieldA, ofFields, BitVec.getElem_extractLsb', BitVec.getLsbD_or, BitVec.getLsbD_shiftLeft,
    BitVec.getLsbD_setWidth]
  interval_cases i <;> simp

@[simp] theorem fieldB_ofFields : fieldB (ofFields op d a b) = b := by
  ext i hi
  simp only [fieldB, ofFields, BitVec.getElem_extractLsb', BitVec.getLsbD_or, BitVec.getLsbD_shiftLeft,
    BitVec.getLsbD_setWidth]
  interval_cases i <;> simp

end

/-- A word is its four fields. -/
theorem ofFields_fields (w : Word) : ofFields (fieldOp w) (fieldD w) (fieldA w) (fieldB w) = w := by
  ext i hi
  simp only [ofFields, fieldOp, fieldD, fieldA, fieldB, BitVec.getElem_or, BitVec.getElem_shiftLeft,
    BitVec.getElem_setWidth, BitVec.getLsbD_extractLsb']
  interval_cases i <;> simp

/-! ### Format SET and BREL -/

section
variable (op d : BitVec 4) (v : BitVec 8)

@[simp] theorem fieldOp_encodeSet : fieldOp (encodeSet op d v) = op := by
  ext i hi
  simp only [fieldOp, encodeSet, BitVec.getElem_extractLsb', BitVec.getLsbD_or, BitVec.getLsbD_shiftLeft,
    BitVec.getLsbD_setWidth]
  interval_cases i <;> simp

@[simp] theorem fieldD_encodeSet : fieldD (encodeSet op d v) = d := by
  ext i hi
  simp only [fieldD, encodeSet, BitVec.getElem_extractLsb', BitVec.getLsbD_or, BitVec.getLsbD_shiftLeft,
    BitVec.getLsbD_setWidth]
  interval_cases i <;> simp

@[simp] theorem fieldV_encodeSet : fieldV (encodeSet op d v) = v := by
  ext i hi
  simp only [fieldV, encodeSet, BitVec.getElem_extractLsb', BitVec.getLsbD_or, BitVec.getLsbD_shiftLeft,
    BitVec.getLsbD_setWidth]
  interval_cases i <;> simp

end

/-- A word is its two 4-bit fields and its byte. -/
theorem encodeSet_fields (w : Word) : encodeSet (fieldOp w) (fieldD w) (fieldV w) = w := by
  ext i hi
  simp only [encodeSet, fieldOp, fieldD, fieldV, BitVec.getElem_or, BitVec.getElem_shiftLeft,
    BitVec.getElem_setWidth, BitVec.getLsbD_extractLsb']
  interval_cases i <;> simp

/-! ### Format INCDEC -/

/-- Bits 7:6 of an INCDEC word. -/
def fieldIncDec (w : Word) : BitVec 2 := w.extractLsb' 6 2

section
variable (op : BitVec 2) (d : Reg) (delta : Nat)

@[simp] theorem fieldOp_encodeIncDec : fieldOp (encodeIncDec op d delta) = 0b0011 := by
  ext i hi
  simp only [fieldOp, encodeIncDec, BitVec.getElem_extractLsb', BitVec.getLsbD_or, BitVec.getLsbD_shiftLeft,
    BitVec.getLsbD_setWidth]
  interval_cases i <;> simp

@[simp] theorem fieldD_encodeIncDec : fieldD (encodeIncDec op d delta) = d.toBits := by
  ext i hi
  simp only [fieldD, encodeIncDec, BitVec.getElem_extractLsb', BitVec.getLsbD_or, BitVec.getLsbD_shiftLeft,
    BitVec.getLsbD_setWidth]
  interval_cases i <;> simp

@[simp] theorem fieldIncDec_encodeIncDec : fieldIncDec (encodeIncDec op d delta) = op := by
  ext i hi
  simp only [fieldIncDec, encodeIncDec, BitVec.getElem_extractLsb', BitVec.getLsbD_or, BitVec.getLsbD_shiftLeft,
    BitVec.getLsbD_setWidth]
  interval_cases i <;> simp

@[simp] theorem fieldEps_encodeIncDec : fieldEps (encodeIncDec op d delta) = BitVec.ofNat 6 (delta - 1) := by
  ext i hi
  simp only [fieldEps, encodeIncDec, BitVec.getElem_extractLsb', BitVec.getLsbD_or, BitVec.getLsbD_shiftLeft,
    BitVec.getLsbD_setWidth]
  interval_cases i <;> simp

/-- δ comes back from every word that INC or DEC is written as (R84, R94). -/
theorem fieldDelta_encodeIncDec (h1 : 1 ≤ delta) (h2 : delta ≤ 64) :
    fieldDelta (encodeIncDec op d delta) = delta := by
  simp only [fieldDelta, fieldEps_encodeIncDec, BitVec.toNat_ofNat]
  omega

end

/-! ### Format FLAGOP -/

/-- Bits 11:9 of a FLAGOP word. -/
def fieldFlagOp (w : Word) : BitVec 3 := w.extractLsb' 9 3

section
variable (op : BitVec 3) (mask : BitVec 5)

@[simp] theorem fieldOp_encodeFlagOp : fieldOp (encodeFlagOp op mask) = 0b0011 := by
  ext i hi
  simp only [fieldOp, encodeFlagOp, BitVec.getElem_extractLsb', BitVec.getLsbD_or, BitVec.getLsbD_shiftLeft,
    BitVec.getLsbD_setWidth, BitVec.getLsbD_extractLsb']
  interval_cases i <;> simp

@[simp] theorem fieldA_encodeFlagOp : fieldA (encodeFlagOp op mask) = 0b0110 := by
  ext i hi
  simp only [fieldA, encodeFlagOp, BitVec.getElem_extractLsb', BitVec.getLsbD_or, BitVec.getLsbD_shiftLeft,
    BitVec.getLsbD_setWidth, BitVec.getLsbD_extractLsb']
  interval_cases i <;> simp

@[simp] theorem fieldFlagOp_encodeFlagOp : fieldFlagOp (encodeFlagOp op mask) = op := by
  ext i hi
  simp only [fieldFlagOp, encodeFlagOp, BitVec.getElem_extractLsb', BitVec.getLsbD_or, BitVec.getLsbD_shiftLeft,
    BitVec.getLsbD_setWidth, BitVec.getLsbD_extractLsb']
  interval_cases i <;> simp

@[simp] theorem fieldMask_encodeFlagOp : fieldMask (encodeFlagOp op mask) = mask := by
  ext i hi
  simp only [fieldMask, encodeFlagOp, BitVec.getElem_or, BitVec.getElem_shiftLeft, BitVec.getElem_setWidth,
    BitVec.getLsbD_extractLsb', BitVec.getLsbD_or, BitVec.getLsbD_shiftLeft, BitVec.getLsbD_setWidth]
  interval_cases i <;> simp

end

/-! ### Format MEM -/

section
variable (op : BitVec 3) (d b : Reg) (o : Nat)

/-- Bits 15:13 of a MEM word. -/
@[simp] theorem extract_encodeMem : (encodeMem op d o b).extractLsb' 13 3 = op := by
  ext i hi
  simp only [encodeMem, BitVec.getElem_extractLsb', BitVec.getLsbD_or, BitVec.getLsbD_shiftLeft,
    BitVec.getLsbD_setWidth, BitVec.getLsbD_extractLsb']
  interval_cases i <;> simp

@[simp] theorem fieldD_encodeMem : fieldD (encodeMem op d o b) = d.toBits := by
  ext i hi
  simp only [fieldD, encodeMem, BitVec.getElem_extractLsb', BitVec.getLsbD_or, BitVec.getLsbD_shiftLeft,
    BitVec.getLsbD_setWidth, BitVec.getLsbD_extractLsb']
  interval_cases i <;> simp

@[simp] theorem fieldB_encodeMem : fieldB (encodeMem op d o b) = b.toBits := by
  ext i hi
  simp only [fieldB, encodeMem, BitVec.getElem_extractLsb', BitVec.getLsbD_or, BitVec.getLsbD_shiftLeft,
    BitVec.getLsbD_setWidth, BitVec.getLsbD_extractLsb']
  interval_cases i <;> simp

/-- The major opcode of a MEM word: the format's three bits, then o4. -/
theorem fieldOp_encodeMem : fieldOp (encodeMem op d o b) =
    (op.setWidth 4 <<< 1) ||| ((BitVec.ofNat 5 o).extractLsb' 4 1).setWidth 4 := by
  ext i hi
  simp only [fieldOp, encodeMem, BitVec.getElem_extractLsb', BitVec.getLsbD_or, BitVec.getLsbD_shiftLeft,
    BitVec.getLsbD_setWidth, BitVec.getLsbD_extractLsb', BitVec.getElem_or, BitVec.getElem_shiftLeft,
    BitVec.getElem_setWidth]
  interval_cases i <;> simp

/-- Bit 12 of a MEM word is o4. -/
theorem offsetHigh_encodeMem :
    (encodeMem op d o b).extractLsb' 12 1 = (BitVec.ofNat 5 o).extractLsb' 4 1 := by
  ext i hi
  simp only [encodeMem, BitVec.getElem_extractLsb', BitVec.getLsbD_or, BitVec.getLsbD_shiftLeft,
    BitVec.getLsbD_setWidth, BitVec.getLsbD_extractLsb']
  interval_cases i
  simp

/-- Bits 7:4 of a MEM word are o3..o0. -/
theorem offsetLow_encodeMem :
    (encodeMem op d o b).extractLsb' 4 4 = (BitVec.ofNat 5 o).extractLsb' 0 4 := by
  ext i hi
  simp only [encodeMem, BitVec.getElem_extractLsb', BitVec.getLsbD_or, BitVec.getLsbD_shiftLeft,
    BitVec.getLsbD_setWidth, BitVec.getLsbD_extractLsb']
  interval_cases i <;> simp

/-- The offset comes back from every MEM word (R88). -/
theorem fieldOffset_encodeMem (h : o ≤ 31) : fieldOffset (encodeMem op d o b) = o := by
  simp only [fieldOffset, offsetHigh_encodeMem, offsetLow_encodeMem, BitVec.extractLsb'_toNat, BitVec.toNat_ofNat,
    Nat.shiftRight_eq_div_pow]
  omega

end

/-! ### Decoding by the major opcode (R95, R96) -/

section
variable (w : Word)

theorem decode_0000 (h : fieldOp w = 0b0000) : decode w =
    decodeRelative (fieldD w) (fieldV w) := by
  simp only [decode, h]; rfl

theorem decode_0001 (h : fieldOp w = 0b0001) : decode w =
    if fieldD w = 0b0001 then .unspecified .unusedCondition
    else if fieldA w = 0b0000 then decodeRegister (fieldD w) (Reg.ofBits (fieldB w))
    else .unspecified .bregBits7to4 := by
  simp only [decode, h]; rfl

theorem decode_0010 (h : fieldOp w = 0b0010) : decode w =
    decode0010 (fieldD w) (fieldA w) (fieldB w) := by
  simp only [decode, h]; rfl

theorem decode_0011 (h : fieldOp w = 0b0011) : decode w = decode0011 w := by
  simp only [decode, h]; rfl

theorem decode_0100 (h : fieldOp w = 0b0100) : decode w =
    .instr (.load (Reg.ofBits (fieldD w)) (fieldOffset w) (Reg.ofBits (fieldB w))) := by
  simp only [decode, h]; rfl

theorem decode_0101 (h : fieldOp w = 0b0101) : decode w =
    .instr (.load (Reg.ofBits (fieldD w)) (fieldOffset w) (Reg.ofBits (fieldB w))) := by
  simp only [decode, h]; rfl

theorem decode_0110 (h : fieldOp w = 0b0110) : decode w =
    .instr (.store (Reg.ofBits (fieldD w)) (fieldOffset w) (Reg.ofBits (fieldB w))) := by
  simp only [decode, h]; rfl

theorem decode_0111 (h : fieldOp w = 0b0111) : decode w =
    .instr (.store (Reg.ofBits (fieldD w)) (fieldOffset w) (Reg.ofBits (fieldB w))) := by
  simp only [decode, h]; rfl

theorem decode_1000 (h : fieldOp w = 0b1000) : decode w =
    .instr (.and (Reg.ofBits (fieldD w)) (Reg.ofBits (fieldA w)) (Reg.ofBits (fieldB w))) := by
  simp only [decode, h]; rfl

theorem decode_1001 (h : fieldOp w = 0b1001) : decode w =
    .instr (.or (Reg.ofBits (fieldD w)) (Reg.ofBits (fieldA w)) (Reg.ofBits (fieldB w))) := by
  simp only [decode, h]; rfl

theorem decode_1010 (h : fieldOp w = 0b1010) : decode w =
    .instr (.add (Reg.ofBits (fieldD w)) (Reg.ofBits (fieldA w)) (Reg.ofBits (fieldB w))) := by
  simp only [decode, h]; rfl

theorem decode_1011 (h : fieldOp w = 0b1011) : decode w =
    .instr (.sub (Reg.ofBits (fieldD w)) (Reg.ofBits (fieldA w)) (Reg.ofBits (fieldB w))) := by
  simp only [decode, h]; rfl

theorem decode_1100 (h : fieldOp w = 0b1100) : decode w =
    .instr (.mul (Reg.ofBits (fieldD w)) (Reg.ofBits (fieldA w)) (Reg.ofBits (fieldB w))) := by
  simp only [decode, h]; rfl

theorem decode_1101 (h : fieldOp w = 0b1101) : decode w =
    .instr (.xor (Reg.ofBits (fieldD w)) (Reg.ofBits (fieldA w)) (Reg.ofBits (fieldB w))) := by
  simp only [decode, h]; rfl

theorem decode_1110 (h : fieldOp w = 0b1110) : decode w =
    .instr (.setlo (Reg.ofBits (fieldD w)) (fieldV w)) := by
  simp only [decode, h]; rfl

theorem decode_1111 (h : fieldOp w = 0b1111) : decode w =
    .instr (.sethi (Reg.ofBits (fieldD w)) (fieldV w)) := by
  simp only [decode, h]; rfl

end

/-! ### Decoding within major opcode 0011 (R97) -/

section
variable (w : Word)

theorem decode0011_0000 (h : fieldA w = 0b0000) : decode0011 w =
    .instr (.lsl (Reg.ofBits (fieldD w)) (Reg.ofBits (fieldB w))) := by
  simp only [decode0011, h]; rfl

theorem decode0011_0001 (h : fieldA w = 0b0001) : decode0011 w =
    .instr (.lsr (Reg.ofBits (fieldD w)) (Reg.ofBits (fieldB w))) := by
  simp only [decode0011, h]; rfl

theorem decode0011_0010 (h : fieldA w = 0b0010) : decode0011 w =
    .instr (.lsl8 (Reg.ofBits (fieldD w)) (Reg.ofBits (fieldB w))) := by
  simp only [decode0011, h]; rfl

theorem decode0011_0011 (h : fieldA w = 0b0011) : decode0011 w =
    .instr (.lsr8 (Reg.ofBits (fieldD w)) (Reg.ofBits (fieldB w))) := by
  simp only [decode0011, h]; rfl

theorem decode0011_0100 (h : fieldA w = 0b0100) : decode0011 w =
    .instr (.asl (Reg.ofBits (fieldD w)) (Reg.ofBits (fieldB w))) := by
  simp only [decode0011, h]; rfl

theorem decode0011_0101 (h : fieldA w = 0b0101) : decode0011 w =
    .instr (.asr (Reg.ofBits (fieldD w)) (Reg.ofBits (fieldB w))) := by
  simp only [decode0011, h]; rfl

theorem decode0011_0110 (h : fieldA w = 0b0110) : decode0011 w =
    decodeFlagOp (w.extractLsb' 9 3) (fieldMask w) := by
  simp only [decode0011, h]; rfl

theorem decode0011_0111 (h : fieldA w = 0b0111) : decode0011 w =
    decodeSaveRestore (Reg.ofBits (fieldD w)) (fieldB w) := by
  simp only [decode0011, h]; rfl

/-- Bits 7:6 are the upper half of the field a. -/
theorem fieldA_high : (fieldA w).extractLsb' 2 2 = fieldIncDec w := by
  ext i hi
  simp only [fieldA, fieldIncDec, BitVec.getElem_extractLsb', BitVec.getLsbD_extractLsb']
  interval_cases i <;> simp

/-- Bits 7:6 = 10 are INC, whatever bits 5 and 4 are (R84). -/
theorem decode0011_inc (h : fieldIncDec w = 0b10) : decode0011 w = .instr (.inc (Reg.ofBits (fieldD w)) (fieldDelta w)) := by
  have hA : fieldA w = 0b1000 ∨ fieldA w = 0b1001 ∨ fieldA w = 0b1010 ∨ fieldA w = 0b1011 := by
    have h32 : (fieldA w).extractLsb' 2 2 = 0b10 := by rw [fieldA_high, h]
    revert h32
    generalize fieldA w = n
    revert n; decide
  rcases hA with hA | hA | hA | hA <;> simp only [decode0011, hA] <;> rfl

/-- Bits 7:6 = 11 are DEC, whatever bits 5 and 4 are (R84). -/
theorem decode0011_dec (h : fieldIncDec w = 0b11) : decode0011 w = .instr (.dec (Reg.ofBits (fieldD w)) (fieldDelta w)) := by
  have hA : fieldA w = 0b1100 ∨ fieldA w = 0b1101 ∨ fieldA w = 0b1110 ∨ fieldA w = 0b1111 := by
    have h32 : (fieldA w).extractLsb' 2 2 = 0b11 := by rw [fieldA_high, h]
    revert h32
    generalize fieldA w = n
    revert n; decide
  rcases hA with hA | hA | hA | hA <;> simp only [decode0011, hA] <;> rfl

end

end Sys2Proof
end

