-- ==== Sys2Proof/Laws/State.lean ====
section
/-! SUPPORT. What each named operation does to each field of the state, all true by `rfl`, and the read-after-write
laws of the register file. -/

namespace Sys2Proof.Machine

variable (s : State) (i d a b : Reg) (v w r : Word) (f : Flags) (k : Computed) (cond : Cond)

@[simp] theorem State.setReg_pc : (s.setReg i v).pc = s.pc := rfl
@[simp] theorem State.setReg_flags : (s.setReg i v).flags = s.flags := rfl
@[simp] theorem State.setReg_dmem : (s.setReg i v).dmem = s.dmem := rfl
@[simp] theorem State.setReg_imem : (s.setReg i v).imem = s.imem := rfl
@[simp] theorem State.setReg_nextPc : (s.setReg i v).nextPc = s.nextPc := rfl

@[simp] theorem State.setFlags_regs : (s.setFlags f).regs = s.regs := rfl
@[simp] theorem State.setFlags_pc : (s.setFlags f).pc = s.pc := rfl
@[simp] theorem State.setFlags_flags : (s.setFlags f).flags = f := rfl
@[simp] theorem State.setFlags_dmem : (s.setFlags f).dmem = s.dmem := rfl
@[simp] theorem State.setFlags_imem : (s.setFlags f).imem = s.imem := rfl
@[simp] theorem State.setFlags_reg : (s.setFlags f).reg i = s.reg i := rfl

@[simp] theorem State.setPc_regs : (s.setPc v).regs = s.regs := rfl
@[simp] theorem State.setPc_pc : (s.setPc v).pc = v := rfl
@[simp] theorem State.setPc_flags : (s.setPc v).flags = s.flags := rfl
@[simp] theorem State.setPc_dmem : (s.setPc v).dmem = s.dmem := rfl
@[simp] theorem State.setPc_imem : (s.setPc v).imem = s.imem := rfl
@[simp] theorem State.setPc_reg : (s.setPc v).reg i = s.reg i := rfl

@[simp] theorem State.writeData_regs : (s.writeData v w).regs = s.regs := rfl
@[simp] theorem State.writeData_pc : (s.writeData v w).pc = s.pc := rfl
@[simp] theorem State.writeData_flags : (s.writeData v w).flags = s.flags := rfl
@[simp] theorem State.writeData_dmem : (s.writeData v w).dmem = Memory.write s.dmem v.toNat w := rfl
@[simp] theorem State.writeData_imem : (s.writeData v w).imem = s.imem := rfl
@[simp] theorem State.writeData_reg : (s.writeData v w).reg i = s.reg i := rfl

@[simp] theorem State.writeInstr_regs : (s.writeInstr v w).regs = s.regs := rfl
@[simp] theorem State.writeInstr_pc : (s.writeInstr v w).pc = s.pc := rfl
@[simp] theorem State.writeInstr_flags : (s.writeInstr v w).flags = s.flags := rfl
@[simp] theorem State.writeInstr_dmem : (s.writeInstr v w).dmem = s.dmem := rfl
@[simp] theorem State.writeInstr_imem : (s.writeInstr v w).imem = Memory.write s.imem v.toNat w := rfl
@[simp] theorem State.writeInstr_reg : (s.writeInstr v w).reg i = s.reg i := rfl

@[simp] theorem State.nextPc_eq : s.nextPc = s.pc + 1 := rfl

@[simp] theorem State.retireFlags_regs : (s.retireFlags f).regs = s.regs := rfl
@[simp] theorem State.retireFlags_pc : (s.retireFlags f).pc = s.pc + 1 := rfl
@[simp] theorem State.retireFlags_flags : (s.retireFlags f).flags = f := rfl
@[simp] theorem State.retireFlags_dmem : (s.retireFlags f).dmem = s.dmem := rfl
@[simp] theorem State.retireFlags_imem : (s.retireFlags f).imem = s.imem := rfl
@[simp] theorem State.retireFlags_reg : (s.retireFlags f).reg i = s.reg i := rfl

@[simp] theorem State.retire_pc : (s.retire d r f).pc = s.pc + 1 := rfl
@[simp] theorem State.retire_flags : (s.retire d r f).flags = f := rfl
@[simp] theorem State.retire_dmem : (s.retire d r f).dmem = s.dmem := rfl
@[simp] theorem State.retire_imem : (s.retire d r f).imem = s.imem := rfl
@[simp] theorem State.retire_reg : (s.retire d r f).reg i = (s.setReg d r).reg i := rfl

@[simp] theorem State.retireComputed_pc : (s.retireComputed d k).pc = s.pc + 1 := rfl
@[simp] theorem State.retireComputed_flags : (s.retireComputed d k).flags = k.flags := rfl
@[simp] theorem State.retireComputed_dmem : (s.retireComputed d k).dmem = s.dmem := rfl
@[simp] theorem State.retireComputed_imem : (s.retireComputed d k).imem = s.imem := rfl
@[simp] theorem State.retireComputed_reg : (s.retireComputed d k).reg i = (s.setReg d k.result).reg i := rfl

@[simp] theorem State.branchTo_regs : (s.branchTo cond v).regs = s.regs := rfl
@[simp] theorem State.branchTo_pc : (s.branchTo cond v).pc = if Cond.holds cond s.flags then v else s.pc + 1 := rfl
@[simp] theorem State.branchTo_flags : (s.branchTo cond v).flags = s.flags := rfl
@[simp] theorem State.branchTo_dmem : (s.branchTo cond v).dmem = s.dmem := rfl
@[simp] theorem State.branchTo_imem : (s.branchTo cond v).imem = s.imem := rfl
@[simp] theorem State.branchTo_reg : (s.branchTo cond v).reg i = s.reg i := rfl

@[simp] theorem State.swapTransfer_pc : (s.swapTransfer a b).pc = s.reg b := rfl
@[simp] theorem State.swapTransfer_flags : (s.swapTransfer a b).flags = s.flags := rfl
@[simp] theorem State.swapTransfer_dmem : (s.swapTransfer a b).dmem = s.dmem := rfl
@[simp] theorem State.swapTransfer_imem : (s.swapTransfer a b).imem = s.imem := rfl
@[simp] theorem State.swapTransfer_reg : (s.swapTransfer a b).reg i =
    (((s.setReg b (s.pc + 1)).setReg .fp (s.reg a)).setReg a (s.reg .fp)).reg i := rfl

/-! ### The register file -/

@[simp] theorem Regs.get_r0 (x : Regs) : x.get .r0 = 0 := rfl
@[simp] theorem Regs.set_r0 (x : Regs) : x.set .r0 v = x := rfl

/-- A read after a write: R0 reads 0, the register written reads the value, every other one what it held. -/
theorem Regs.get_set (x : Regs) (i j : Reg) (v : Word) :
    (x.set j v).get i = if i = .r0 then 0 else if i = j then v else x.get i := by
  cases j <;> cases i <;> rfl

@[simp] theorem State.reg_r0 : s.reg .r0 = 0 := rfl
@[simp] theorem State.setReg_r0 : s.setReg .r0 v = s := rfl

/-- The one law of `setReg` and `reg`. -/
theorem State.reg_setReg : (s.setReg d v).reg i = if i = .r0 then 0 else if i = d then v else s.reg i :=
  Regs.get_set s.regs i d v

/-- The register written, R0 excepted. -/
theorem State.reg_setReg_self : (s.setReg d v).reg d = if d = .r0 then 0 else v := by
  simp [State.reg_setReg]

/-- Every other register keeps its value. -/
theorem State.reg_setReg_ne (h : i ≠ d) : (s.setReg d v).reg i = s.reg i := by
  rw [State.reg_setReg, if_neg h]
  split
  · next h0 => rw [h0]; rfl
  · rfl

/-- Two register files that read the same are the same. -/
theorem Regs.ext_get (x y : Regs) (h : ∀ i, x.get i = y.get i) : x = y := by
  have h1 := h .r1; have h2 := h .r2; have h3 := h .r3; have h4 := h .r4; have h5 := h .r5
  have h6 := h .r6; have h7 := h .r7; have h8 := h .r8; have h9 := h .r9; have h10 := h .r10
  have h11 := h .r11; have h12 := h .r12; have h13 := h .r13; have h14 := h .r14; have h15 := h .r15
  cases x; cases y
  simp only [Regs.get] at h1 h2 h3 h4 h5 h6 h7 h8 h9 h10 h11 h12 h13 h14 h15
  simp only [h1, h2, h3, h4, h5, h6, h7, h8, h9, h10, h11, h12, h13, h14, h15]

end Sys2Proof.Machine
end

