-- ==== Sys2Proof/Laws/Memory.lean ====
section
/-! SUPPORT. The laws of the two memories: read after write, the canonical form and that every write keeps it,
and that two memories in the form which record the same values are equal. -/

namespace Sys2Proof.Machine

/-- A recorded value after a write; no canonical form is needed, since a lookup stops at the first match. -/
theorem Memory.find_write (m : Memory) (a b : Nat) (v : Word) :
    Memory.find (Memory.write m a v) b = if b = a then some v else Memory.find m b := by
  induction m with
  | nil => simp [Memory.write, Memory.find]
  | cons hd rest ih =>
    obtain ⟨k, u⟩ := hd
    simp only [Memory.write]
    split
    · simp [Memory.find]
    · split
      · next hk => subst hk; simp only [Memory.find]; split <;> rfl
      · next hk =>
        simp only [Memory.find, ih]
        split
        · next hb => subst hb; rw [if_neg (fun h => hk h.symm)]
        · rfl

/-- A lower bound may be weakened. -/
theorem Memory.wfFrom_mono (m : Memory) (lo lo' : Nat) (hle : lo' ≤ lo) (h : Memory.wfFrom lo m = true) :
    Memory.wfFrom lo' m = true := by
  cases m with
  | nil => rfl
  | cons hd rest =>
    simp only [Memory.wfFrom, Bool.and_eq_true, decide_eq_true_eq] at h ⊢
    exact ⟨⟨by omega, h.1.2⟩, h.2⟩

/-- A write keeps the canonical form above any bound that admits its address. -/
theorem Memory.write_wfFrom (m : Memory) (lo a : Nat) (v : Word) (hlo : lo ≤ a) (ha : a < 65536)
    (h : Memory.wfFrom lo m = true) : Memory.wfFrom lo (Memory.write m a v) = true := by
  induction m generalizing lo with
  | nil => simp [Memory.write, Memory.wfFrom, hlo, ha]
  | cons hd rest ih =>
    obtain ⟨k, u⟩ := hd
    simp only [Memory.wfFrom, Bool.and_eq_true, decide_eq_true_eq] at h
    simp only [Memory.write]
    split
    · simp only [Memory.wfFrom, Bool.and_eq_true, decide_eq_true_eq]
      exact ⟨⟨hlo, ha⟩, ⟨by omega, h.1.2⟩, h.2⟩
    · split
      · next hk => subst hk; simp [Memory.wfFrom, h]
      · simp only [Memory.wfFrom, Bool.and_eq_true, decide_eq_true_eq]
        exact ⟨h.1, ih (k + 1) (by omega) h.2⟩

/-- Every write at a cell address keeps the canonical form. -/
theorem Memory.write_wf (m : Memory) (a v : Word) (h : Memory.wf m = true) :
    Memory.wf (Memory.write m a.toNat v) = true :=
  Memory.write_wfFrom m 0 a.toNat v (Nat.zero_le _) a.isLt h

/-- Nothing is recorded below the bound. -/
theorem Memory.find_below (m : Memory) (lo a : Nat) (ha : a < lo) (h : Memory.wfFrom lo m = true) :
    Memory.find m a = none := by
  induction m generalizing lo with
  | nil => rfl
  | cons hd rest ih =>
    obtain ⟨k, u⟩ := hd
    simp only [Memory.wfFrom, Bool.and_eq_true, decide_eq_true_eq] at h
    simp only [Memory.find]
    rw [if_neg (by omega)]
    exact ih (k + 1) (by omega) h.2

/-- The empty memory, that of reset, is canonical. -/
@[simp] theorem Memory.wf_nil : Memory.wf [] = true := rfl

/-- A data cell after a STORE's write. -/
theorem State.dataCell_writeData (s : State) (a b v : Word) :
    (s.writeData a v).dataCell b = if b = a then v else s.dataCell b := by
  simp only [State.dataCell, State.writeData_dmem, Memory.find_write]
  by_cases hab : b = a
  · simp [hab]
  · have hne : ¬ b.toNat = a.toNat := fun h => hab (BitVec.eq_of_toNat_eq h)
    simp [hab, hne]

/-- An instruction cell after the loader's write. -/
theorem State.instrCell_writeInstr (s : State) (a b v : Word) :
    (s.writeInstr a v).instrCell b = if b = a then v else s.instrCell b := by
  simp only [State.instrCell, State.writeInstr_imem, Memory.find_write]
  by_cases hab : b = a
  · simp [hab]
  · have hne : ¬ b.toNat = a.toNat := fun h => hab (BitVec.eq_of_toNat_eq h)
    simp [hab, hne]

/-- What a data cell reads depends on the data memory alone. -/
theorem State.dataCell_congr (s t : State) (h : t.dmem = s.dmem) (a : Word) : t.dataCell a = s.dataCell a := by
  simp only [State.dataCell, h]

/-- What an instruction cell reads depends on the instruction memory alone. -/
theorem State.instrCell_congr (s t : State) (h : t.imem = s.imem) (a : Word) : t.instrCell a = s.instrCell a := by
  simp only [State.instrCell, h]

end Sys2Proof.Machine
end

