-- ==== Sys2Proof/Laws/Flags.lean ====
section
/-! SUPPORT. What each shared operation over values and flags can answer: F as a number, sums and differences,
products, shifts, and the operand forms (spec/41_alu.md, spec/42_incdec.md, spec/43_shift.md). -/

namespace Sys2Proof.Machine

/-! ### F as a number -/

@[simp] theorem Flags.ofBits_toBits (f : Flags) : Flags.ofBits f.toBits = f := by
  obtain ⟨s, z, v, c, cb⟩ := f
  cases s <;> cases z <;> cases v <;> cases c <;> cases cb <;> rfl

@[simp] theorem Flags.toBits_ofBits (n : BitVec 5) : (Flags.ofBits n).toBits = n := by
  revert n; decide

/-- Every bit of F as a number is the flag of that number (R26). -/
theorem Flags.getLsbD_toBits (f : Flags) :
    f.toBits.getLsbD 0 = f.s ∧ f.toBits.getLsbD 1 = f.z ∧ f.toBits.getLsbD 2 = f.v ∧ f.toBits.getLsbD 3 = f.c ∧
      f.toBits.getLsbD 4 = f.cb := by
  obtain ⟨s, z, v, c, cb⟩ := f
  cases s <;> cases z <;> cases v <;> cases c <;> cases cb <;> decide

@[simp] theorem Flags.toBits_getElem_s (f : Flags) : f.toBits[0] = f.s := f.getLsbD_toBits.1
@[simp] theorem Flags.toBits_getElem_z (f : Flags) : f.toBits[1] = f.z := f.getLsbD_toBits.2.1
@[simp] theorem Flags.toBits_getElem_v (f : Flags) : f.toBits[2] = f.v := f.getLsbD_toBits.2.2.1
@[simp] theorem Flags.toBits_getElem_c (f : Flags) : f.toBits[3] = f.c := f.getLsbD_toBits.2.2.2.1
@[simp] theorem Flags.toBits_getElem_cb (f : Flags) : f.toBits[4] = f.cb := f.getLsbD_toBits.2.2.2.2

/-! ### s and z -/

/-- The sign of a word by its unsigned value. -/
theorem getLsbD_15 (r : Word) : r.getLsbD 15 = decide (32768 ≤ r.toNat) := by
  rw [← BitVec.msb_eq_getLsbD_last (x := r), BitVec.msb_eq_decide]

/-- What `setSZ` does: s and z are those of the word, the other three flags stay. -/
theorem Flags.setSZ_spec (f : Flags) (r : Word) :
    SZOf (f.setSZ r) r ∧ (f.setSZ r).v = f.v ∧ (f.setSZ r).c = f.c ∧ (f.setSZ r).cb = f.cb := by
  refine ⟨⟨?_, ?_⟩, rfl, rfl, rfl⟩
  · exact BitVec.msb_eq_getLsbD_last r
  · simp [Flags.setSZ]

/-- What `computeSZ` does. -/
theorem computeSZ_spec (f : Flags) (r : Word) :
    (computeSZ f r).result = r ∧ SZOf (computeSZ f r).flags r ∧ (computeSZ f r).flags.v = f.v ∧
      (computeSZ f r).flags.c = f.c ∧ (computeSZ f r).flags.cb = f.cb :=
  ⟨rfl, Flags.setSZ_spec f r⟩

/-- What `computeShift` does. -/
theorem computeShift_spec (f : Flags) (r : Word) (out : Bool) :
    (computeShift f r out).result = r ∧ SZOf (computeShift f r out).flags r ∧ (computeShift f r out).flags.v = f.v ∧
      (computeShift f r out).flags.c = out ∧ (computeShift f r out).flags.cb = f.cb :=
  ⟨rfl, (Flags.setSZ_spec f r).1, rfl, rfl, rfl⟩

/-- What `arith` does. -/
theorem Flags.arith_spec (f : Flags) (r : Word) (c v : Bool) :
    SZOf (f.arith r c v) r ∧ (f.arith r c v).c = c ∧ (f.arith r c v).v = v ∧ (f.arith r c v).cb = f.cb :=
  ⟨(Flags.setSZ_spec f r).1, rfl, rfl, rfl⟩

/-! ### Sums, differences and products -/

/-- The exact value leaves the signed range. -/
theorem signedOverflow_iff (n : Int) : signedOverflow n = true ↔ n < -32768 ∨ 32767 < n := by
  simp [signedOverflow]

/-- A word that agrees with an integer modulo 2^16 has it as its signed value unless the integer overflows. -/
theorem toInt_ne_iff (r : Word) (n : Int) (h : (r.toNat : Int) = n % 65536) :
    r.toInt ≠ n ↔ n < -32768 ∨ 32767 < n := by
  have hr := r.isLt
  rw [BitVec.toInt_eq_toNat_cond]
  split <;> omega

/-- What `computeSum` answers (R131). -/
theorem computeSum_spec (f : Flags) (usum : Nat) (ssum : Int) :
    (computeSum f usum ssum).result.toNat = usum % 65536 ∧
      SZOf (computeSum f usum ssum).flags (computeSum f usum ssum).result ∧
      ((computeSum f usum ssum).flags.c = true ↔ 65536 ≤ usum) ∧
      ((computeSum f usum ssum).flags.v = true ↔ ssum < -32768 ∨ 32767 < ssum) ∧
      (computeSum f usum ssum).flags.cb = f.cb := by
  refine ⟨by simp [computeSum], (Flags.arith_spec ..).1, by simp [computeSum, Flags.arith], ?_, rfl⟩
  exact signedOverflow_iff ssum

/-- What `computeDiff` answers (R132). -/
theorem computeDiff_spec (f : Flags) (udiff sdiff : Int) :
    ((computeDiff f udiff sdiff).result.toNat : Int) = udiff % 65536 ∧
      SZOf (computeDiff f udiff sdiff).flags (computeDiff f udiff sdiff).result ∧
      ((computeDiff f udiff sdiff).flags.c = true ↔ 0 ≤ udiff) ∧
      ((computeDiff f udiff sdiff).flags.v = true ↔ sdiff < -32768 ∨ 32767 < sdiff) ∧
      (computeDiff f udiff sdiff).flags.cb = f.cb := by
  refine ⟨?_, (Flags.arith_spec ..).1, by simp [computeDiff, Flags.arith], signedOverflow_iff sdiff, rfl⟩
  simp only [computeDiff, BitVec.toNat_ofInt]
  omega

/-- What `mulFlags` answers (R135). -/
theorem mulFlags_spec (f : Flags) (x y r : Word) :
    SZOf (mulFlags f x y r) r ∧ ((mulFlags f x y r).c = true ↔ 65536 ≤ x.toNat * y.toNat) ∧
      ((mulFlags f x y r).v = true ↔ x.toInt * y.toInt < -32768 ∨ 32767 < x.toInt * y.toInt) ∧
      (mulFlags f x y r).cb = f.cb :=
  ⟨(Flags.arith_spec ..).1, by simp [mulFlags, Flags.arith], signedOverflow_iff _, rfl⟩

/-- MUL's mode as the table of R134 gives it. -/
theorem Flags.mulMode_spec (f : Flags) :
    (f.mulMode = .low ↔ f.cb = true ∨ f = ⟨false, false, false, false, false⟩) ∧
      (f.mulMode = .highSigned ↔ f = ⟨true, false, false, false, false⟩) ∧
      (f.mulMode = .undefined ↔ f.cb = false ∧ (f.c = true ∨ f.v = true ∨ f.z = true)) := by
  obtain ⟨s, z, v, c, cb⟩ := f
  cases s <;> cases z <;> cases v <;> cases c <;> cases cb <;> decide

/-! ### Shifts -/

/-- `shiftLeftIn` doubles and adds the bit shifted in. -/
theorem shiftLeftIn_toNat (x : Word) (cin : Bool) :
    (shiftLeftIn x cin).toNat = (2 * x.toNat + cin.toNat) % 65536 := by
  have h : shiftLeftIn x cin = BitVec.ofNat 16 (2 * x.toNat + cin.toNat) := by
    revert x cin
    intro x cin
    apply BitVec.eq_of_toNat_eq
    have hx := x.isLt
    simp only [shiftLeftIn, BitVec.toNat_or, BitVec.toNat_shiftLeft, BitVec.toNat_setWidth, BitVec.toNat_ofBool,
      BitVec.toNat_ofNat, Nat.shiftLeft_eq]
    cases cin
    · simp; omega
    · have h2 : x.toNat * 2 ^ 1 % 2 ^ 16 = 2 ^ 1 * (x.toNat % 32768) := by omega
      rw [h2]
      have := Nat.two_pow_add_eq_or_of_lt (i := 1) (b := 1) (by omega) (x.toNat % 32768)
      simp only [Bool.toNat_true]
      rw [show (1 % 2 ^ 16 : Nat) = 1 from rfl, ← this]
      omega
  rw [h]; simp

/-- `shiftRightIn` halves and puts the bit shifted in on top. -/
theorem shiftRightIn_toNat (top : Bool) (x : Word) :
    (shiftRightIn top x).toNat = x.toNat / 2 + 32768 * top.toNat := by
  have hx := x.isLt
  simp only [shiftRightIn, BitVec.toNat_or, BitVec.toNat_ushiftRight, BitVec.toNat_shiftLeft, BitVec.toNat_setWidth,
    BitVec.toNat_ofBool, Nat.shiftRight_eq_div_pow, Nat.shiftLeft_eq]
  cases top
  · simp
  · have := Nat.two_pow_add_eq_or_of_lt (i := 15) (b := x.toNat / 2) (by omega) 1
    simp only [Bool.toNat_true]
    rw [show (1 % 2 ^ 16 * 2 ^ 15 % 2 ^ 16 : Nat) = 2 ^ 15 * 1 from rfl, Nat.lor_comm, show x.toNat / 2 ^ 1 = x.toNat / 2 from rfl, ← this]
    omega

/-! ### Operand forms -/

/-- `sext8` keeps the signed value (R7). -/
theorem sext8_toInt (v : BitVec 8) : (sext8 v).toInt = v.toInt := by
  simp [sext8, BitVec.toInt_signExtend_of_le]

/-- `withHighByte` bit by bit (R121). -/
theorem getLsbD_withHighByte (v : BitVec 8) (x : Word) (i : Nat) (hi : i < 16) :
    (withHighByte v x).getLsbD i = if i < 8 then x.getLsbD i else v.getLsbD (i - 8) := by
  have hm : (0x00FF : Word).getLsbD i = decide (i < 8) := by revert i; decide
  simp only [withHighByte, BitVec.getLsbD_or, BitVec.getLsbD_shiftLeft, BitVec.getLsbD_setWidth, BitVec.getLsbD_and, hm]
  by_cases h8 : i < 8
  · simp [h8]
  · have h16 : i - 8 < 16 := by omega
    simp [h8, hi, h16]

end Sys2Proof.Machine
end

