-- ==== Sys2Proof/Laws/Ops.lean ====
section
/-! SUPPORT. What each way an instruction ends can do: write one register, write the flags alone, branch, exchange.
Each is stated once, for the meanings that share it. -/

namespace Sys2Proof.Machine

/-- Everything `retire` does. -/
theorem State.retire_spec (s : State) (d : Reg) (r : Word) (f : Flags) : WritesRegister s (s.retire d r f) d r f where
  result := by rw [State.retire_reg]; exact State.reg_setReg_self s d r
  others := fun i h => by rw [State.retire_reg]; exact State.reg_setReg_ne s i d r h
  flags := rfl
  pc := rfl
  data := fun _ => rfl
  code := fun _ => rfl

/-- Everything `retireComputed` does. -/
theorem State.retireComputed_spec (s : State) (d : Reg) (k : Computed) :
    WritesRegister s (s.retireComputed d k) d k.result k.flags :=
  State.retire_spec s d k.result k.flags

/-- Everything `retireFlags` does. -/
theorem State.retireFlags_spec (s : State) (f : Flags) : WritesNoRegister s (s.retireFlags f) f (s.pc + 1) where
  regs := fun _ => rfl
  flags := rfl
  pc := rfl
  data := fun _ => rfl
  code := fun _ => rfl

/-- Everything `branchTo` does. -/
theorem State.branchTo_spec (s : State) (cond : Cond) (target : Word) :
    WritesNoRegister s (s.branchTo cond target) s.flags (if Cond.holds cond s.flags then target else s.pc + 1) where
  regs := fun _ => rfl
  flags := rfl
  pc := rfl
  data := fun _ => rfl
  code := fun _ => rfl

/-- The operands clash exactly when R263 says so. -/
theorem callClash_iff (a b : Reg) : callClash a b = true ↔ (a = b ∧ a ≠ .r0) ∨ b = .r14 := by
  simp [callClash]

/-- Where the operands do not clash, the exchange of R260 gives Ra, Rb and FP these values and keeps the rest. -/
theorem State.swapTransfer_spec (s : State) (a b : Reg) (h : callClash a b = false) :
    (b ≠ .r0 → (s.swapTransfer a b).reg b = s.pc + 1) ∧ (s.swapTransfer a b).reg .fp = s.reg a ∧
      (a ≠ .r0 → (s.swapTransfer a b).reg a = s.reg .fp) ∧
      ∀ i, i ≠ a → i ≠ b → i ≠ .fp → (s.swapTransfer a b).reg i = s.reg i := by
  have hc : ¬ ((a = b ∧ a ≠ .r0) ∨ b = .r14) := by rw [← callClash_iff]; simp [h]
  simp only [not_or, not_and, not_not] at hc
  obtain ⟨hab, hb⟩ := hc
  have hb14 : b ≠ .fp := hb
  refine ⟨fun hb0 => ?_, ?_, fun ha0 => ?_, fun i hia hib hif => ?_⟩
  · have hne : b ≠ a := fun hba => hb0 (by rw [hba]; exact hab hba.symm)
    rw [State.swapTransfer_reg, State.reg_setReg_ne _ _ _ _ hne, State.reg_setReg_ne _ _ _ _ hb14,
      State.reg_setReg_self, if_neg hb0]
  · rw [State.swapTransfer_reg, State.reg_setReg]
    by_cases hfa : Reg.fp = a
    · rw [if_neg (by decide), if_pos hfa, hfa]
    · rw [if_neg (by decide), if_neg hfa, State.reg_setReg_self, if_neg (by decide)]
  · rw [State.swapTransfer_reg, State.reg_setReg_self, if_neg ha0]
  · rw [State.swapTransfer_reg, State.reg_setReg_ne _ _ _ _ hia, State.reg_setReg_ne _ _ _ _ hif,
      State.reg_setReg_ne _ _ _ _ hib]

/-- What `callOrReturn` answers. -/
theorem callOrReturn_spec (a b : Reg) (s : State) :
    (callClash a b = true → callOrReturn a b s = .refused .callRegisterClash) ∧
      (callClash a b = false → callOrReturn a b s = .next (s.swapTransfer a b)) := by
  constructor <;> intro h <;> simp [callOrReturn, h]

/-- The effective address as a number (R56). -/
theorem State.effAddr_toNat (s : State) (b : Reg) (o : Nat) :
    (s.effAddr b o).toNat = ((s.reg b).toNat + o) % 65536 := by
  simp only [State.effAddr, BitVec.toNat_add, BitVec.toNat_ofNat]
  omega

/-- The relative target as a number (R210). -/
theorem State.relTarget_toNat (s : State) (o : BitVec 8) :
    ((s.relTarget o).toNat : Int) = ((s.pc.toNat : Int) + o.toInt) % 65536 := by
  rw [← sext8_toInt o]
  simp only [State.relTarget, BitVec.toNat_add, BitVec.toInt_eq_toNat_bmod, Int.bmod_def]
  have := s.pc.isLt
  have := (sext8 o).isLt
  split <;> omega

/-- A write of one data cell keeps both memories canonical. -/
theorem State.writeData_wf (s : State) (a v : Word) (h : s.wf = true) : (s.writeData a v).wf = true := by
  simp only [State.wf, Bool.and_eq_true] at h ⊢
  exact ⟨Memory.write_wf _ a v h.1, h.2⟩

/-- The loader's write keeps both memories canonical. -/
theorem State.writeInstr_wf (s : State) (a v : Word) (h : s.wf = true) : (s.writeInstr a v).wf = true := by
  simp only [State.wf, Bool.and_eq_true] at h ⊢
  exact ⟨h.1, Memory.write_wf _ a v h.2⟩

/-- What the next step fetches after `withFetchWord`. -/
theorem State.fetch_withFetchWord (s : State) (nbits w : Nat) :
    (s.withFetchWord nbits w).fetch = BitVec.ofNat 16 (w % 2 ^ nbits) := by
  simp only [State.withFetchWord, State.fetch, State.instrCell_writeInstr, State.writeInstr_pc, if_pos]

/-- A step whose word decodes to an instruction runs it. -/
theorem step_instr (s : State) (i : Instr) (h : decode s.fetch = .instr i) : step s = exec i s := by
  simp only [step, h]

/-- A step whose word decodes to nothing is refused by class. -/
theorem step_unspecified (s : State) (c : WordClass) (h : decode s.fetch = .unspecified c) :
    step s = .refused (.unspecifiedWord c) := by
  simp only [step, h]

end Sys2Proof.Machine
end

