-- ==== Sys2Proof/Laws/PerInstr.lean ====
section
/-! SUPPORT. Statements made per instruction. `RowMatch`: the word an instruction encodes to has the fixed bits of its
row of spec/opcode_table.json (mask and match). It holds of every term, well-formed or not, since a number too large
for its field is cut to the field. -/

namespace Sys2Proof.Laws.RowMatch

/-- The mask and the match of the instruction's row. -/
def row : Instr → Word × Word
  | .setlo _ _ => (0xF000, 0xE000)
  | .sethi _ _ => (0xF000, 0xF000)
  | .and _ _ _ => (0xF000, 0x8000)
  | .or _ _ _ => (0xF000, 0x9000)
  | .add _ _ _ => (0xF000, 0xA000)
  | .sub _ _ _ => (0xF000, 0xB000)
  | .mul _ _ _ => (0xF000, 0xC000)
  | .xor _ _ _ => (0xF000, 0xD000)
  | .inc _ _ => (0xF0C0, 0x3080)
  | .dec _ _ => (0xF0C0, 0x30C0)
  | .lsl _ _ => (0xF0F0, 0x3000)
  | .lsr _ _ => (0xF0F0, 0x3010)
  | .lsl8 _ _ => (0xF0F0, 0x3020)
  | .lsr8 _ _ => (0xF0F0, 0x3030)
  | .asl _ _ => (0xF0F0, 0x3040)
  | .asr _ _ => (0xF0F0, 0x3050)
  | .savef _ => (0xF0FF, 0x3070)
  | .rstrf _ => (0xF0FF, 0x3078)
  | .fon _ => (0xFEF0, 0x3060)
  | .foff _ => (0xFEF0, 0x3860)
  | .fset5 _ => (0xFEF0, 0x3460)
  | .fset4 _ => (0xFEF0, 0x3C60)
  | .load _ _ _ => (0xE000, 0x4000)
  | .store _ _ _ => (0xE000, 0x6000)
  | .br _ => (0xFFF0, 0x1000)
  | .brr _ => (0xFF00, 0x0000)
  | .bl _ => (0xFFF0, 0x1200)
  | .blr _ => (0xFF00, 0x0200)
  | .bge _ => (0xFFF0, 0x1300)
  | .bger _ => (0xFF00, 0x0300)
  | .ble _ => (0xFFF0, 0x1400)
  | .bler _ => (0xFF00, 0x0400)
  | .bg _ => (0xFFF0, 0x1500)
  | .bgr _ => (0xFF00, 0x0500)
  | .bule _ => (0xFFF0, 0x1600)
  | .buler _ => (0xFF00, 0x0600)
  | .bug _ => (0xFFF0, 0x1700)
  | .bugr _ => (0xFF00, 0x0700)
  | .bz _ => (0xFFF0, 0x1800)
  | .bzr _ => (0xFF00, 0x0800)
  | .bnz _ => (0xFFF0, 0x1900)
  | .bnzr _ => (0xFF00, 0x0900)
  | .bc _ => (0xFFF0, 0x1A00)
  | .bcr _ => (0xFF00, 0x0A00)
  | .bnc _ => (0xFFF0, 0x1B00)
  | .bncr _ => (0xFF00, 0x0B00)
  | .bs _ => (0xFFF0, 0x1C00)
  | .bsr _ => (0xFF00, 0x0C00)
  | .bns _ => (0xFFF0, 0x1D00)
  | .bnsr _ => (0xFF00, 0x0D00)
  | .bv _ => (0xFFF0, 0x1E00)
  | .bvr _ => (0xFF00, 0x0E00)
  | .bnv _ => (0xFFF0, 0x1F00)
  | .bnvr _ => (0xFF00, 0x0F00)
  | .call _ _ => (0xFF00, 0x2000)
  | .ret _ _ => (0xFF00, 0x2100)
  | .swi _ => (0xFFF0, 0x2200)
  | .rti => (0xFFFF, 0x2300)

/-- The instruction's word has the fixed bits of its row. -/
def Statement (i : Instr) : Prop := encode i &&& (row i).1 = (row i).2

/-- Format SET. -/
theorem encodeSet_row (op d : BitVec 4) (v : BitVec 8) : encodeSet op d v &&& 0xF000 = op.setWidth 16 <<< 12 := by
  ext i hi
  simp only [encodeSet, BitVec.getElem_and, BitVec.getElem_or, BitVec.getElem_shiftLeft, BitVec.getElem_setWidth]
  interval_cases i <;> simp

/-- Format BREL. -/
theorem encodeSet_row8 (op d : BitVec 4) (v : BitVec 8) :
    encodeSet op d v &&& 0xFF00 = ofFields op d 0 0 := by
  ext i hi
  simp only [encodeSet, ofFields, BitVec.getElem_and, BitVec.getElem_or, BitVec.getElem_shiftLeft,
    BitVec.getElem_setWidth]
  interval_cases i <;> simp

/-- The bits of the four fields that a mask of whole fields keeps. -/
theorem ofFields_row (op d a b m n p q : BitVec 4) :
    ofFields op d a b &&& ofFields m n p q = ofFields (op &&& m) (d &&& n) (a &&& p) (b &&& q) := by
  ext i hi
  simp only [ofFields, BitVec.getElem_and, BitVec.getElem_or, BitVec.getElem_shiftLeft, BitVec.getElem_setWidth]
  interval_cases i <;> simp

/-- Format INCDEC. -/
theorem encodeIncDec_row (op : BitVec 2) (d : Reg) (delta : Nat) :
    encodeIncDec op d delta &&& 0xF0C0 = 0x3000 ||| (op.setWidth 16 <<< 6) := by
  ext i hi
  simp only [encodeIncDec, BitVec.getElem_and, BitVec.getElem_or, BitVec.getElem_shiftLeft, BitVec.getElem_setWidth]
  interval_cases i <;> simp

/-- Format FLAGOP. -/
theorem encodeFlagOp_row (op : BitVec 3) (mask : BitVec 5) :
    encodeFlagOp op mask &&& 0xFEF0 = 0x3060 ||| (op.setWidth 16 <<< 9) := by
  ext i hi
  simp only [encodeFlagOp, BitVec.getElem_and, BitVec.getElem_or, BitVec.getElem_shiftLeft, BitVec.getElem_setWidth,
    BitVec.getLsbD_extractLsb']
  interval_cases i <;> simp

/-- Format MEM. -/
theorem encodeMem_row (op : BitVec 3) (d : Reg) (o : Nat) (b : Reg) :
    encodeMem op d o b &&& 0xE000 = op.setWidth 16 <<< 13 := by
  ext i hi
  simp only [encodeMem, BitVec.getElem_and, BitVec.getElem_or, BitVec.getElem_shiftLeft, BitVec.getElem_setWidth,
    BitVec.getLsbD_extractLsb']
  interval_cases i <;> simp

theorem setlo (d : Reg) (v : BitVec 8) : Statement (.setlo d v) :=
  encodeSet_row _ _ _

theorem sethi (d : Reg) (v : BitVec 8) : Statement (.sethi d v) :=
  encodeSet_row _ _ _

theorem and (d a b : Reg) : Statement (.and d a b) :=
  (ofFields_row _ _ _ _ 0xF 0x0 0x0 0x0).trans (by simp; rfl)

theorem or (d a b : Reg) : Statement (.or d a b) :=
  (ofFields_row _ _ _ _ 0xF 0x0 0x0 0x0).trans (by simp; rfl)

theorem add (d a b : Reg) : Statement (.add d a b) :=
  (ofFields_row _ _ _ _ 0xF 0x0 0x0 0x0).trans (by simp; rfl)

theorem sub (d a b : Reg) : Statement (.sub d a b) :=
  (ofFields_row _ _ _ _ 0xF 0x0 0x0 0x0).trans (by simp; rfl)

theorem mul (d a b : Reg) : Statement (.mul d a b) :=
  (ofFields_row _ _ _ _ 0xF 0x0 0x0 0x0).trans (by simp; rfl)

theorem xor (d a b : Reg) : Statement (.xor d a b) :=
  (ofFields_row _ _ _ _ 0xF 0x0 0x0 0x0).trans (by simp; rfl)

theorem inc (d : Reg) (delta : Nat) : Statement (.inc d delta) :=
  encodeIncDec_row _ _ _

theorem dec (d : Reg) (delta : Nat) : Statement (.dec d delta) :=
  encodeIncDec_row _ _ _

theorem lsl (d b : Reg) : Statement (.lsl d b) :=
  (ofFields_row _ _ _ _ 0xF 0x0 0xF 0x0).trans (by simp; rfl)

theorem lsr (d b : Reg) : Statement (.lsr d b) :=
  (ofFields_row _ _ _ _ 0xF 0x0 0xF 0x0).trans (by simp; rfl)

theorem lsl8 (d b : Reg) : Statement (.lsl8 d b) :=
  (ofFields_row _ _ _ _ 0xF 0x0 0xF 0x0).trans (by simp; rfl)

theorem lsr8 (d b : Reg) : Statement (.lsr8 d b) :=
  (ofFields_row _ _ _ _ 0xF 0x0 0xF 0x0).trans (by simp; rfl)

theorem asl (d b : Reg) : Statement (.asl d b) :=
  (ofFields_row _ _ _ _ 0xF 0x0 0xF 0x0).trans (by simp; rfl)

theorem asr (d b : Reg) : Statement (.asr d b) :=
  (ofFields_row _ _ _ _ 0xF 0x0 0xF 0x0).trans (by simp; rfl)

theorem savef (d : Reg) : Statement (.savef d) :=
  (ofFields_row _ _ _ _ 0xF 0x0 0xF 0xF).trans (by simp; rfl)

theorem rstrf (d : Reg) : Statement (.rstrf d) :=
  (ofFields_row _ _ _ _ 0xF 0x0 0xF 0xF).trans (by simp; rfl)

theorem fon (mask : BitVec 5) : Statement (.fon mask) :=
  encodeFlagOp_row _ _

theorem foff (mask : BitVec 5) : Statement (.foff mask) :=
  encodeFlagOp_row _ _

theorem fset5 (mask : BitVec 5) : Statement (.fset5 mask) :=
  encodeFlagOp_row _ _

theorem fset4 (mask : BitVec 5) : Statement (.fset4 mask) :=
  encodeFlagOp_row _ _

theorem load (d : Reg) (o : Nat) (b : Reg) : Statement (.load d o b) :=
  encodeMem_row _ _ _ _

theorem store (d : Reg) (o : Nat) (b : Reg) : Statement (.store d o b) :=
  encodeMem_row _ _ _ _

theorem br (b : Reg) : Statement (.br b) :=
  (ofFields_row _ _ _ _ 0xF 0xF 0xF 0x0).trans (by simp; rfl)

theorem brr (o : BitVec 8) : Statement (.brr o) :=
  (encodeSet_row8 _ _ _).trans rfl

theorem bl (b : Reg) : Statement (.bl b) :=
  (ofFields_row _ _ _ _ 0xF 0xF 0xF 0x0).trans (by simp; rfl)

theorem blr (o : BitVec 8) : Statement (.blr o) :=
  (encodeSet_row8 _ _ _).trans rfl

theorem bge (b : Reg) : Statement (.bge b) :=
  (ofFields_row _ _ _ _ 0xF 0xF 0xF 0x0).trans (by simp; rfl)

theorem bger (o : BitVec 8) : Statement (.bger o) :=
  (encodeSet_row8 _ _ _).trans rfl

theorem ble (b : Reg) : Statement (.ble b) :=
  (ofFields_row _ _ _ _ 0xF 0xF 0xF 0x0).trans (by simp; rfl)

theorem bler (o : BitVec 8) : Statement (.bler o) :=
  (encodeSet_row8 _ _ _).trans rfl

theorem bg (b : Reg) : Statement (.bg b) :=
  (ofFields_row _ _ _ _ 0xF 0xF 0xF 0x0).trans (by simp; rfl)

theorem bgr (o : BitVec 8) : Statement (.bgr o) :=
  (encodeSet_row8 _ _ _).trans rfl

theorem bule (b : Reg) : Statement (.bule b) :=
  (ofFields_row _ _ _ _ 0xF 0xF 0xF 0x0).trans (by simp; rfl)

theorem buler (o : BitVec 8) : Statement (.buler o) :=
  (encodeSet_row8 _ _ _).trans rfl

theorem bug (b : Reg) : Statement (.bug b) :=
  (ofFields_row _ _ _ _ 0xF 0xF 0xF 0x0).trans (by simp; rfl)

theorem bugr (o : BitVec 8) : Statement (.bugr o) :=
  (encodeSet_row8 _ _ _).trans rfl

theorem bz (b : Reg) : Statement (.bz b) :=
  (ofFields_row _ _ _ _ 0xF 0xF 0xF 0x0).trans (by simp; rfl)

theorem bzr (o : BitVec 8) : Statement (.bzr o) :=
  (encodeSet_row8 _ _ _).trans rfl

theorem bnz (b : Reg) : Statement (.bnz b) :=
  (ofFields_row _ _ _ _ 0xF 0xF 0xF 0x0).trans (by simp; rfl)

theorem bnzr (o : BitVec 8) : Statement (.bnzr o) :=
  (encodeSet_row8 _ _ _).trans rfl

theorem bc (b : Reg) : Statement (.bc b) :=
  (ofFields_row _ _ _ _ 0xF 0xF 0xF 0x0).trans (by simp; rfl)

theorem bcr (o : BitVec 8) : Statement (.bcr o) :=
  (encodeSet_row8 _ _ _).trans rfl

theorem bnc (b : Reg) : Statement (.bnc b) :=
  (ofFields_row _ _ _ _ 0xF 0xF 0xF 0x0).trans (by simp; rfl)

theorem bncr (o : BitVec 8) : Statement (.bncr o) :=
  (encodeSet_row8 _ _ _).trans rfl

theorem bs (b : Reg) : Statement (.bs b) :=
  (ofFields_row _ _ _ _ 0xF 0xF 0xF 0x0).trans (by simp; rfl)

theorem bsr (o : BitVec 8) : Statement (.bsr o) :=
  (encodeSet_row8 _ _ _).trans rfl

theorem bns (b : Reg) : Statement (.bns b) :=
  (ofFields_row _ _ _ _ 0xF 0xF 0xF 0x0).trans (by simp; rfl)

theorem bnsr (o : BitVec 8) : Statement (.bnsr o) :=
  (encodeSet_row8 _ _ _).trans rfl

theorem bv (b : Reg) : Statement (.bv b) :=
  (ofFields_row _ _ _ _ 0xF 0xF 0xF 0x0).trans (by simp; rfl)

theorem bvr (o : BitVec 8) : Statement (.bvr o) :=
  (encodeSet_row8 _ _ _).trans rfl

theorem bnv (b : Reg) : Statement (.bnv b) :=
  (ofFields_row _ _ _ _ 0xF 0xF 0xF 0x0).trans (by simp; rfl)

theorem bnvr (o : BitVec 8) : Statement (.bnvr o) :=
  (encodeSet_row8 _ _ _).trans rfl

theorem call (a b : Reg) : Statement (.call a b) :=
  (ofFields_row _ _ _ _ 0xF 0xF 0x0 0x0).trans (by simp; rfl)

theorem ret (a b : Reg) : Statement (.ret a b) :=
  (ofFields_row _ _ _ _ 0xF 0xF 0x0 0x0).trans (by simp; rfl)

theorem swi (i : Nat) : Statement (.swi i) :=
  (ofFields_row _ _ _ _ 0xF 0xF 0xF 0x0).trans (by simp; rfl)

theorem rti : Statement (.rti) :=
  (ofFields_row _ _ _ _ 0xF 0xF 0xF 0xF).trans (by simp; rfl)

end Sys2Proof.Laws.RowMatch
end

