-- ==== Sys2Proof/Laws/Run.lean ====
section
/-! SUPPORT. How a step and a run of several steps come apart. -/

namespace Sys2Proof.Machine

/-- A next state comes from executing what the word at PC decodes to. -/
theorem step_next_inv (s t : State) (h : step s = .next t) :
    ∃ i, decode s.fetch = .instr i ∧ exec i s = .next t := by
  simp only [step] at h
  split at h
  · exact ⟨_, ‹_›, h⟩
  · cases h

/-- The first step of a run. -/
theorem run_succ_of_step (n : Nat) (s u : State) (h : step s = .next u) :
    Host.Core.run Sys2Proof.core (n + 1) s = Host.Core.run Sys2Proof.core n u := by
  simp only [Host.Core.run, show Sys2Proof.core.step s = .next u from h]

/-- A run that reaches a state took its first step. -/
theorem run_succ_inv (n : Nat) (s t : State) (h : Host.Core.run Sys2Proof.core (n + 1) s = .next t) :
    ∃ u, step s = .next u ∧ Host.Core.run Sys2Proof.core n u = .next t := by
  cases hs : step s with
  | next u => exact ⟨u, rfl, by rw [← h, run_succ_of_step n s u hs]⟩
  | fault r => cases r
  | refused r =>
    simp only [Host.Core.run, show Sys2Proof.core.step s = .refused r from hs] at h
    cases h

end Sys2Proof.Machine
end

