-- ==== Sys2Proof/Tests/Slice0.lean ====
section
/-! SUPPORT. Tests: ill-formed terms refused, words written out from the formats of spec/30_encoding.md, single
steps from the tables of spec/95_test_vectors.md, and for every statement with hypotheses a witness that they can be
met. Expected values come from the spec's formats, tables and worked examples. -/

namespace Sys2Proof.Tests

open Sys2Proof Sys2Proof.Machine

/-! ### Well-formedness (R94) -/

theorem test_wf_inc_zero : (Instr.inc .r1 0).wf = false := by decide
theorem test_wf_inc_65 : (Instr.inc .r1 65).wf = false := by decide
theorem test_wf_dec_zero : (Instr.dec .r1 0).wf = false := by decide
theorem test_wf_dec_65 : (Instr.dec .r1 65).wf = false := by decide
theorem test_wf_load_32 : (Instr.load .r1 32 .r2).wf = false := by decide
theorem test_wf_store_32 : (Instr.store .r1 32 .r2).wf = false := by decide
theorem test_wf_swi_16 : (Instr.swi 16).wf = false := by decide
theorem test_wf_bounds : (Instr.inc .r1 1).wf = true ∧ (Instr.inc .r1 64).wf = true ∧ (Instr.dec .r1 64).wf = true ∧
    (Instr.load .r1 31 .r2).wf = true ∧ (Instr.store .r1 31 .r2).wf = true ∧ (Instr.swi 15).wf = true := by decide

/-! ### Decoding and encoding: words written field by field from R82 to R93 -/

theorem test_decode_set : decode 0b1110_0011_0101_1000 = .instr (.setlo .r3 0x58) ∧
    decode 0b1111_1011_0100_0010 = .instr (.sethi .r11 0x42) := by decide
theorem test_decode_three_address : decode 0b1000_0011_0001_0010 = .instr (.and .r3 .r1 .r2) ∧
    decode 0b1001_1100_1111_0000 = .instr (.or .r12 .r15 .r0) ∧
    decode 0b1010_0001_0010_0011 = .instr (.add .r1 .r2 .r3) ∧
    decode 0b1011_0101_0100_0011 = .instr (.sub .r5 .r4 .r3) ∧
    decode 0b1100_1011_1011_0100 = .instr (.mul .r11 .r11 .r4) ∧
    decode 0b1101_0111_1000_1001 = .instr (.xor .r7 .r8 .r9) := by decide
theorem test_decode_incdec : decode 0b0011_0001_1000_0101 = .instr (.inc .r1 6) ∧
    decode 0b0011_0001_1011_1111 = .instr (.inc .r1 64) ∧
    decode 0b0011_0011_1100_0000 = .instr (.dec .r3 1) ∧
    decode 0b0011_0001_1111_1111 = .instr (.dec .r1 64) := by decide
theorem test_decode_shifts : decode 0b0011_0010_0000_0001 = .instr (.lsl .r2 .r1) ∧
    decode 0b0011_0010_0001_0001 = .instr (.lsr .r2 .r1) ∧
    decode 0b0011_0010_0010_0001 = .instr (.lsl8 .r2 .r1) ∧
    decode 0b0011_0010_0011_0001 = .instr (.lsr8 .r2 .r1) ∧
    decode 0b0011_0010_0100_0001 = .instr (.asl .r2 .r1) ∧
    decode 0b0011_0010_0101_0001 = .instr (.asr .r2 .r1) := by decide
theorem test_decode_flag_operations : decode 0b0011_0001_0111_0000 = .instr (.savef .r1) ∧
    decode 0b0011_0001_0111_1000 = .instr (.rstrf .r1) ∧
    decode 0b0011_0001_0110_0101 = .instr (.fon 0x15) ∧
    decode 0b0011_1000_0110_1010 = .instr (.foff 0x0A) ∧
    decode 0b0011_0101_0110_0001 = .instr (.fset5 0x11) ∧
    decode 0b0011_1100_0110_0101 = .instr (.fset4 0x05) ∧
    decode 0b0011_1101_0110_0101 = .instr (.fset4 0x15) := by decide
theorem test_decode_memory : decode 0b0101_0111_0011_0010 = .instr (.load .r7 0x13 .r2) ∧
    decode 0b0100_0001_0000_1011 = .instr (.load .r1 0 .r11) ∧
    decode 0b0111_0111_0011_0010 = .instr (.store .r7 0x13 .r2) ∧
    decode 0b0110_0001_0000_1011 = .instr (.store .r1 0 .r11) := by decide
theorem test_decode_register_branches : decode 0b0001_0000_0000_1011 = .instr (.br .r11) ∧
    decode 0b0001_0010_0000_1011 = .instr (.bl .r11) ∧
    decode 0b0001_0011_0000_1011 = .instr (.bge .r11) ∧
    decode 0b0001_0100_0000_1011 = .instr (.ble .r11) ∧
    decode 0b0001_0101_0000_1011 = .instr (.bg .r11) ∧
    decode 0b0001_0110_0000_1011 = .instr (.bule .r11) ∧
    decode 0b0001_0111_0000_1011 = .instr (.bug .r11) ∧
    decode 0b0001_1000_0000_1011 = .instr (.bz .r11) ∧
    decode 0b0001_1001_0000_1011 = .instr (.bnz .r11) ∧
    decode 0b0001_1010_0000_1011 = .instr (.bc .r11) ∧
    decode 0b0001_1011_0000_1011 = .instr (.bnc .r11) ∧
    decode 0b0001_1100_0000_1011 = .instr (.bs .r11) ∧
    decode 0b0001_1101_0000_1011 = .instr (.bns .r11) ∧
    decode 0b0001_1110_0000_1011 = .instr (.bv .r11) ∧
    decode 0b0001_1111_0000_1011 = .instr (.bnv .r11) := by decide
theorem test_decode_relative_branches : decode 0b0000_0000_1111_1000 = .instr (.brr (-8)) ∧
    decode 0b0000_0010_1111_1000 = .instr (.blr (-8)) ∧
    decode 0b0000_0011_1111_1000 = .instr (.bger (-8)) ∧
    decode 0b0000_0100_1111_1000 = .instr (.bler (-8)) ∧
    decode 0b0000_0101_1111_1000 = .instr (.bgr (-8)) ∧
    decode 0b0000_0110_1111_1000 = .instr (.buler (-8)) ∧
    decode 0b0000_0111_1111_1000 = .instr (.bugr (-8)) ∧
    decode 0b0000_1000_1111_1000 = .instr (.bzr (-8)) ∧
    decode 0b0000_1001_1111_1000 = .instr (.bnzr (-8)) ∧
    decode 0b0000_1010_1111_1000 = .instr (.bcr (-8)) ∧
    decode 0b0000_1011_1111_1000 = .instr (.bncr (-8)) ∧
    decode 0b0000_1100_1111_1000 = .instr (.bsr (-8)) ∧
    decode 0b0000_1101_1111_1000 = .instr (.bnsr (-8)) ∧
    decode 0b0000_1110_1111_1000 = .instr (.bvr (-8)) ∧
    decode 0b0000_1111_1111_1000 = .instr (.bnvr (-8)) := by decide
theorem test_decode_call_return_reserved : decode 0b0010_0000_1100_1101 = .instr (.call .r12 .r13) ∧
    decode 0b0010_0001_1100_1101 = .instr (.ret .r12 .r13) ∧
    decode 0b0010_0010_0000_0011 = .instr (.swi 3) ∧
    decode 0b0010_0011_0000_0000 = .instr (.rti) := by decide
theorem test_encode_set : encode (.setlo .r3 0x58) = 0b1110_0011_0101_1000 ∧
    encode (.sethi .r11 0x42) = 0b1111_1011_0100_0010 := by decide
theorem test_encode_three_address : encode (.and .r3 .r1 .r2) = 0b1000_0011_0001_0010 ∧
    encode (.or .r12 .r15 .r0) = 0b1001_1100_1111_0000 ∧
    encode (.add .r1 .r2 .r3) = 0b1010_0001_0010_0011 ∧
    encode (.sub .r5 .r4 .r3) = 0b1011_0101_0100_0011 ∧
    encode (.mul .r11 .r11 .r4) = 0b1100_1011_1011_0100 ∧
    encode (.xor .r7 .r8 .r9) = 0b1101_0111_1000_1001 := by decide
theorem test_encode_incdec : encode (.inc .r1 6) = 0b0011_0001_1000_0101 ∧
    encode (.inc .r1 64) = 0b0011_0001_1011_1111 ∧
    encode (.dec .r3 1) = 0b0011_0011_1100_0000 ∧
    encode (.dec .r1 64) = 0b0011_0001_1111_1111 := by decide
theorem test_encode_shifts : encode (.lsl .r2 .r1) = 0b0011_0010_0000_0001 ∧
    encode (.lsr .r2 .r1) = 0b0011_0010_0001_0001 ∧
    encode (.lsl8 .r2 .r1) = 0b0011_0010_0010_0001 ∧
    encode (.lsr8 .r2 .r1) = 0b0011_0010_0011_0001 ∧
    encode (.asl .r2 .r1) = 0b0011_0010_0100_0001 ∧
    encode (.asr .r2 .r1) = 0b0011_0010_0101_0001 := by decide
theorem test_encode_flag_operations : encode (.savef .r1) = 0b0011_0001_0111_0000 ∧
    encode (.rstrf .r1) = 0b0011_0001_0111_1000 ∧
    encode (.fon 0x15) = 0b0011_0001_0110_0101 ∧
    encode (.foff 0x0A) = 0b0011_1000_0110_1010 ∧
    encode (.fset5 0x11) = 0b0011_0101_0110_0001 ∧
    encode (.fset4 0x05) = 0b0011_1100_0110_0101 ∧
    encode (.fset4 0x15) = 0b0011_1101_0110_0101 := by decide
theorem test_encode_memory : encode (.load .r7 0x13 .r2) = 0b0101_0111_0011_0010 ∧
    encode (.load .r1 0 .r11) = 0b0100_0001_0000_1011 ∧
    encode (.store .r7 0x13 .r2) = 0b0111_0111_0011_0010 ∧
    encode (.store .r1 0 .r11) = 0b0110_0001_0000_1011 := by decide
theorem test_encode_register_branches : encode (.br .r11) = 0b0001_0000_0000_1011 ∧
    encode (.bl .r11) = 0b0001_0010_0000_1011 ∧
    encode (.bge .r11) = 0b0001_0011_0000_1011 ∧
    encode (.ble .r11) = 0b0001_0100_0000_1011 ∧
    encode (.bg .r11) = 0b0001_0101_0000_1011 ∧
    encode (.bule .r11) = 0b0001_0110_0000_1011 ∧
    encode (.bug .r11) = 0b0001_0111_0000_1011 ∧
    encode (.bz .r11) = 0b0001_1000_0000_1011 ∧
    encode (.bnz .r11) = 0b0001_1001_0000_1011 ∧
    encode (.bc .r11) = 0b0001_1010_0000_1011 ∧
    encode (.bnc .r11) = 0b0001_1011_0000_1011 ∧
    encode (.bs .r11) = 0b0001_1100_0000_1011 ∧
    encode (.bns .r11) = 0b0001_1101_0000_1011 ∧
    encode (.bv .r11) = 0b0001_1110_0000_1011 ∧
    encode (.bnv .r11) = 0b0001_1111_0000_1011 := by decide
theorem test_encode_relative_branches : encode (.brr (-8)) = 0b0000_0000_1111_1000 ∧
    encode (.blr (-8)) = 0b0000_0010_1111_1000 ∧
    encode (.bger (-8)) = 0b0000_0011_1111_1000 ∧
    encode (.bler (-8)) = 0b0000_0100_1111_1000 ∧
    encode (.bgr (-8)) = 0b0000_0101_1111_1000 ∧
    encode (.buler (-8)) = 0b0000_0110_1111_1000 ∧
    encode (.bugr (-8)) = 0b0000_0111_1111_1000 ∧
    encode (.bzr (-8)) = 0b0000_1000_1111_1000 ∧
    encode (.bnzr (-8)) = 0b0000_1001_1111_1000 ∧
    encode (.bcr (-8)) = 0b0000_1010_1111_1000 ∧
    encode (.bncr (-8)) = 0b0000_1011_1111_1000 ∧
    encode (.bsr (-8)) = 0b0000_1100_1111_1000 ∧
    encode (.bnsr (-8)) = 0b0000_1101_1111_1000 ∧
    encode (.bvr (-8)) = 0b0000_1110_1111_1000 ∧
    encode (.bnvr (-8)) = 0b0000_1111_1111_1000 := by decide
theorem test_encode_call_return_reserved : encode (.call .r12 .r13) = 0b0010_0000_1100_1101 ∧
    encode (.ret .r12 .r13) = 0b0010_0001_1100_1101 ∧
    encode (.swi 3) = 0b0010_0010_0000_0011 ∧
    encode (.rti) = 0b0010_0011_0000_0000 := by decide

/-! ### Words without a meaning (R100; spec/95_test_vectors.md section 2.11) -/

theorem test_decode_unused_condition : decode 0x0100 = .unspecified .unusedCondition ∧
    decode 0x01FF = .unspecified .unusedCondition ∧
    decode 0x1100 = .unspecified .unusedCondition ∧
    decode 0x110B = .unspecified .unusedCondition ∧
    decode 0x11F0 = .unspecified .unusedCondition := by decide
theorem test_decode_breg_bits_7_4 : decode 0x101B = .unspecified .bregBits7to4 ∧
    decode 0x10F0 = .unspecified .bregBits7to4 ∧
    decode 0x1F1B = .unspecified .bregBits7to4 := by decide
theorem test_decode_opcode_0010 : decode 0x2210 = .unspecified .opcode0010 ∧
    decode 0x22FF = .unspecified .opcode0010 ∧
    decode 0x2301 = .unspecified .opcode0010 ∧
    decode 0x23FF = .unspecified .opcode0010 ∧
    decode 0x2400 = .unspecified .opcode0010 ∧
    decode 0x2800 = .unspecified .opcode0010 ∧
    decode 0x2FFF = .unspecified .opcode0010 := by decide
theorem test_decode_flagop : decode 0x3260 = .unspecified .flagop ∧
    decode 0x3360 = .unspecified .flagop ∧
    decode 0x3660 = .unspecified .flagop ∧
    decode 0x3A60 = .unspecified .flagop ∧
    decode 0x3E6F = .unspecified .flagop := by decide
theorem test_decode_saverstr_low_bits : decode 0x3171 = .unspecified .saverstrLowBits ∧
    decode 0x3177 = .unspecified .saverstrLowBits ∧
    decode 0x3179 = .unspecified .saverstrLowBits ∧
    decode 0x317F = .unspecified .saverstrLowBits := by decide
theorem test_table_word : decodeTableWord 16 0xA123 = some (.add .r1 .r2 .r3) ∧ decodeTableWord 16 0x2400 = none := by
  decide

/-! ### Single steps (spec/95_test_vectors.md sections 2.1 to 2.10) -/

/-- The state a vector starts from: word, PC, flags, registers, data cells; everything else as after reset. -/
def placed (w : Nat) (pc : Word) (f : BitVec 5) (regs : List (Reg × Word)) (cells : List (Word × Word)) : State :=
  let s : State := { State.resetWith (Flags.ofBits f) with pc := pc }
  let s := regs.foldl (fun s p => s.setReg p.1 p.2) s
  let s := cells.foldl (fun s p => s.writeData p.1 p.2) s
  s.withFetchWord 16 w

/-- The state after one step, if there is one. -/
def next? (s : State) : Option State :=
  match step s with
  | .next t => some t
  | .fault _ => none
  | .refused _ => none

/-- Why the step is refused, if it is. -/
def refusal (s : State) : Option Refusal :=
  match step s with
  | .next _ => none
  | .fault _ => none
  | .refused r => some r

/-- A register, the flags and PC after one step. -/
def reg (s : State) (i : Reg) : Option (Word × BitVec 5 × Word) :=
  (next? s).map (fun t => (t.reg i, t.flags.toBits, t.pc))

/-- A data cell, the flags and PC after one step. -/
def cell (s : State) (a : Word) : Option (Word × BitVec 5 × Word) :=
  (next? s).map (fun t => (t.dataCell a, t.flags.toBits, t.pc))

/-- The flags and PC after one step. -/
def flagsAndPc (s : State) : Option (BitVec 5 × Word) := (next? s).map (fun t => (t.flags.toBits, t.pc))

/-- Ra, Rb, FP, the flags and PC after one step. -/
def exchange (s : State) (a b : Reg) : Option (Word × Word × Word × BitVec 5 × Word) :=
  (next? s).map (fun t => (t.reg a, t.reg b, t.reg .fp, t.flags.toBits, t.pc))

/-- PC after a branch word at 0x0100 with R11 = 0x0174 and flags `f`. -/
def branchPc (w : Nat) (f : BitVec 5) : Option Word := (next? (placed w 0x0100 f [(.r11, 0x0174)] [])).map State.pc

theorem test_setlo_sign_extends :
    reg (placed 0xE180 0x0100 0x00 [] []) .r1 = some (0xFF80, 0x00, 0x0101) := by decide
theorem test_setlo_r0_is_discarded :
    reg (placed 0xE005 0x0100 0x00 [] []) .r0 = some (0x0000, 0x00, 0x0101) := by decide
theorem test_sethi_keeps_low_byte :
    reg (placed 0xF1AB 0x0100 0x00 [(.r1, 0x12CD)] []) .r1 = some (0xABCD, 0x00, 0x0101) := by decide
theorem test_sethi_r0_is_discarded :
    reg (placed 0xF005 0x0100 0x00 [] []) .r0 = some (0x0000, 0x00, 0x0101) := by decide
theorem test_and_keeps_v_and_c :
    reg (placed 0x8312 0x0100 0x0C [(.r1, 0xF0F0), (.r2, 0x8001)] []) .r3 = some (0x8000, 0x0D, 0x0101) := by decide
theorem test_and_zero_result :
    reg (placed 0x8312 0x0100 0x01 [(.r1, 0x00FF), (.r2, 0xFF00)] []) .r3 = some (0x0000, 0x02, 0x0101) := by decide
theorem test_or_keeps_carry_block :
    reg (placed 0x9312 0x0100 0x1F [(.r1, 0x00F0), (.r2, 0x0F00)] []) .r3 = some (0x0FF0, 0x1C, 0x0101) := by decide
theorem test_or_with_r0 :
    reg (placed 0x9310 0x0100 0x00 [] []) .r3 = some (0x0000, 0x02, 0x0101) := by decide
theorem test_xor_sign :
    reg (placed 0xD312 0x0100 0x00 [(.r1, 0xFFFF), (.r2, 0x00FF)] []) .r3 = some (0xFF00, 0x01, 0x0101) := by decide
theorem test_xor_with_itself :
    reg (placed 0xD311 0x0100 0x09 [(.r1, 0xBEEF)] []) .r3 = some (0x0000, 0x0A, 0x0101) := by decide
theorem test_add_takes_carry :
    reg (placed 0xA312 0x0100 0x08 [(.r1, 0x7FFF), (.r2, 0x0001)] []) .r3 = some (0x8001, 0x05, 0x0101) := by decide
theorem test_add_r0_writes_flags_only :
    reg (placed 0xA010 0x0100 0x00 [(.r1, 0x8000)] []) .r0 = some (0x0000, 0x01, 0x0101) := by decide
theorem test_sub_equal_sets_carry :
    reg (placed 0xB312 0x0100 0x10 [(.r1, 0x0005), (.r2, 0x0005)] []) .r3 = some (0x0000, 0x1A, 0x0101) := by decide
theorem test_sub_takes_borrow :
    reg (placed 0xB312 0x0100 0x00 [(.r1, 0x0005), (.r2, 0x0005)] []) .r3 = some (0xFFFF, 0x01, 0x0101) := by decide
theorem test_mul_high_signed :
    reg (placed 0xC312 0x0100 0x01 [(.r1, 0xFFFF), (.r2, 0x0002)] []) .r3 = some (0xFFFF, 0x09, 0x0101) := by decide
theorem test_mul_undefined_mode_is_refused :
    refusal (placed 0xC312 0x0100 0x09 [(.r1, 0x0002), (.r2, 0x0003)] []) = some .mulFlagMode := by decide
theorem test_inc_ignores_carry :
    reg (placed 0x3180 0x0100 0x08 [(.r1, 0x7FFF)] []) .r1 = some (0x8000, 0x05, 0x0101) := by decide
theorem test_inc_by_64 :
    reg (placed 0x31BF 0x0100 0x10 [(.r1, 0x7FC0)] []) .r1 = some (0x8000, 0x15, 0x0101) := by decide
theorem test_dec_no_borrow_sets_carry :
    reg (placed 0x31FF 0x0100 0x10 [(.r1, 0x0040)] []) .r1 = some (0x0000, 0x1A, 0x0101) := by decide
theorem test_dec_r0_writes_flags_only :
    reg (placed 0x30C0 0x0100 0x10 [] []) .r0 = some (0x0000, 0x11, 0x0101) := by decide
theorem test_lsl_takes_carry :
    reg (placed 0x3201 0x0100 0x08 [(.r1, 0x8001)] []) .r2 = some (0x0003, 0x08, 0x0101) := by decide
theorem test_lsl_keeps_overflow :
    reg (placed 0x3201 0x0100 0x16 [(.r1, 0x4000)] []) .r2 = some (0x8000, 0x15, 0x0101) := by decide
theorem test_lsr_takes_carry :
    reg (placed 0x3211 0x0100 0x08 [(.r1, 0x8001)] []) .r2 = some (0xC000, 0x09, 0x0101) := by decide
theorem test_lsr_carry_blocked :
    reg (placed 0x3211 0x0100 0x18 [(.r1, 0x8001)] []) .r2 = some (0x4000, 0x18, 0x0101) := by decide
theorem test_lsl8_shifts_by_eight :
    reg (placed 0x3221 0x0100 0x0C [(.r1, 0x12AB)] []) .r2 = some (0xAB00, 0x0D, 0x0101) := by decide
theorem test_lsl8_keeps_carry :
    reg (placed 0x3221 0x0100 0x08 [(.r1, 0xFF00)] []) .r2 = some (0x0000, 0x0A, 0x0101) := by decide
theorem test_lsr8_shifts_by_eight :
    reg (placed 0x3231 0x0100 0x0D [(.r1, 0xAB12)] []) .r2 = some (0x00AB, 0x0C, 0x0101) := by decide
theorem test_lsr8_keeps_carry :
    reg (placed 0x3231 0x0100 0x08 [(.r1, 0x00FF)] []) .r2 = some (0x0000, 0x0A, 0x0101) := by decide
theorem test_asl_overflow :
    reg (placed 0x3241 0x0100 0x10 [(.r1, 0x4000)] []) .r2 = some (0x8000, 0x15, 0x0101) := by decide
theorem test_asl_takes_carry :
    reg (placed 0x3241 0x0100 0x08 [(.r1, 0x8000)] []) .r2 = some (0x0001, 0x0C, 0x0101) := by decide
theorem test_asr_rounds_down :
    reg (placed 0x3251 0x0100 0x08 [(.r1, 0xFFFD)] []) .r2 = some (0xFFFE, 0x09, 0x0101) := by decide
theorem test_asr_keeps_overflow :
    reg (placed 0x3251 0x0100 0x04 [(.r1, 0x8000)] []) .r2 = some (0xC000, 0x05, 0x0101) := by decide
theorem test_savef_zero_extends :
    reg (placed 0x3170 0x0100 0x15 [(.r1, 0xFFFF)] []) .r1 = some (0x0015, 0x15, 0x0101) := by decide
theorem test_savef_r0_is_discarded :
    reg (placed 0x3070 0x0100 0x1F [] []) .r0 = some (0x0000, 0x1F, 0x0101) := by decide
theorem test_rstrf_ignores_high_bits :
    flagsAndPc (placed 0x3178 0x0100 0x15 [(.r1, 0xFFEA)] []) = some (0x0A, 0x0101) := by decide
theorem test_rstrf_r0_clears_flags :
    flagsAndPc (placed 0x3078 0x0100 0x1F [] []) = some (0x00, 0x0101) := by decide
theorem test_fon_sets_named_flags :
    flagsAndPc (placed 0x3165 0x0100 0x0A [] []) = some (0x1F, 0x0101) := by decide
theorem test_foff_clears_named_flags :
    flagsAndPc (placed 0x386A 0x0100 0x1F [] []) = some (0x15, 0x0101) := by decide
theorem test_fset5_sets_all_flags :
    flagsAndPc (placed 0x3561 0x0100 0x0E [] []) = some (0x11, 0x0101) := by decide
theorem test_fset4_keeps_carry_block :
    flagsAndPc (placed 0x3C65 0x0100 0x1A [] []) = some (0x15, 0x0101) := by decide
theorem test_fset4_ignores_bit_8 :
    flagsAndPc (placed 0x3D65 0x0100 0x0A [] []) = some (0x05, 0x0101) := by decide
theorem test_load_split_offset :
    reg (placed 0x5732 0x0100 0x0C [(.r2, 0x1000)] [(0x1013, 0x8001)]) .r7 = some (0x8001, 0x0D, 0x0101) := by decide
theorem test_load_address_wraps :
    reg (placed 0x57F2 0x0100 0x00 [(.r2, 0xFFF0)] [(0x000F, 0x1234)]) .r7 = some (0x1234, 0x00, 0x0101) := by decide
theorem test_store_split_offset :
    cell (placed 0x7732 0x0100 0x1F [(.r2, 0x1000), (.r7, 0xBEEF)] []) 0x1013 = some (0xBEEF, 0x1F, 0x0101) := by decide
theorem test_store_address_wraps :
    cell (placed 0x73F3 0x0100 0x00 [(.r3, 0xFFFF)] []) 0x001E = some (0xFFFF, 0x00, 0x0101) := by decide
theorem test_brr_backward_wraps :
    flagsAndPc (placed 0x0080 0x0010 0x00 [] []) = some (0x00, 0xFF90) := by decide
theorem test_bncr_wraps :
    flagsAndPc (placed 0x0B02 0xFFFF 0x10 [] []) = some (0x10, 0x0001) := by decide
theorem test_br_to_register :
    flagsAndPc (placed 0x100B 0x3944 0x1F [(.r11, 0x0174)] []) = some (0x1F, 0x0174) := by decide
theorem test_call_exchanges :
    exchange (placed 0x20CD 0x0005 0x1F [(.r12, 0x0105), (.r13, 0x000C), (.r14, 0x0100)] []) .r12 .r13 = some (0x0100, 0x0006, 0x0105, 0x1F, 0x000C) := by decide
theorem test_call_clash_is_refused :
    refusal (placed 0x20CE 0x0005 0x00 [(.r12, 0x0020), (.r14, 0x0055)] []) = some .callRegisterClash := by decide
theorem test_return_undoes_call :
    exchange (placed 0x21CD 0x000F 0x00 [(.r12, 0x0100), (.r13, 0x0006), (.r14, 0x0105)] []) .r12 .r13 = some (0x0105, 0x0010, 0x0100, 0x00, 0x0006) := by decide
theorem test_return_r0_leaves_fp_zero :
    exchange (placed 0x210D 0x0005 0x1F [(.r13, 0x0030), (.r14, 0x0055)] []) .r0 .r13 = some (0x0000, 0x0006, 0x0000, 0x1F, 0x0030) := by decide
theorem test_swi_is_refused : refusal (placed 0x2203 0x0100 0x00 [] []) = some (.swi 3) := by decide
theorem test_rti_is_refused : refusal (placed 0x2300 0x0100 0x00 [] []) = some .rti := by decide
theorem test_unspecified_word_is_refused :
    refusal (placed 0x2400 0x0100 0x00 [] []) = some (.unspecifiedWord .opcode0010) := by decide

/-! ### Branches: one taken and one not taken row of the truth table of spec/95_test_vectors.md section 2.9 -/

theorem test_bl : branchPc 0x120B 0x01 = some 0x0174 ∧ branchPc 0x120B 0x05 = some 0x0101 := by decide
theorem test_blr : branchPc 0x0204 0x11 = some 0x0104 ∧ branchPc 0x0204 0x15 = some 0x0101 := by decide
theorem test_bge : branchPc 0x130B 0x05 = some 0x0174 ∧ branchPc 0x130B 0x01 = some 0x0101 := by decide
theorem test_bger : branchPc 0x0304 0x15 = some 0x0104 ∧ branchPc 0x0304 0x11 = some 0x0101 := by decide
theorem test_ble : branchPc 0x140B 0x06 = some 0x0174 ∧ branchPc 0x140B 0x05 = some 0x0101 := by decide
theorem test_bler : branchPc 0x0404 0x16 = some 0x0104 ∧ branchPc 0x0404 0x15 = some 0x0101 := by decide
theorem test_bg : branchPc 0x150B 0x05 = some 0x0174 ∧ branchPc 0x150B 0x07 = some 0x0101 := by decide
theorem test_bgr : branchPc 0x0504 0x15 = some 0x0104 ∧ branchPc 0x0504 0x17 = some 0x0101 := by decide
theorem test_bule : branchPc 0x160B 0x0A = some 0x0174 ∧ branchPc 0x160B 0x08 = some 0x0101 := by decide
theorem test_buler : branchPc 0x0604 0x1A = some 0x0104 ∧ branchPc 0x0604 0x18 = some 0x0101 := by decide
theorem test_bug : branchPc 0x170B 0x08 = some 0x0174 ∧ branchPc 0x170B 0x0A = some 0x0101 := by decide
theorem test_bugr : branchPc 0x0704 0x18 = some 0x0104 ∧ branchPc 0x0704 0x1A = some 0x0101 := by decide
theorem test_bz : branchPc 0x180B 0x02 = some 0x0174 ∧ branchPc 0x180B 0x0D = some 0x0101 := by decide
theorem test_bzr : branchPc 0x0804 0x12 = some 0x0104 ∧ branchPc 0x0804 0x1D = some 0x0101 := by decide
theorem test_bnz : branchPc 0x190B 0x0D = some 0x0174 ∧ branchPc 0x190B 0x02 = some 0x0101 := by decide
theorem test_bnzr : branchPc 0x0904 0x1D = some 0x0104 ∧ branchPc 0x0904 0x12 = some 0x0101 := by decide
theorem test_bc : branchPc 0x1A0B 0x08 = some 0x0174 ∧ branchPc 0x1A0B 0x07 = some 0x0101 := by decide
theorem test_bcr : branchPc 0x0A04 0x18 = some 0x0104 ∧ branchPc 0x0A04 0x17 = some 0x0101 := by decide
theorem test_bnc : branchPc 0x1B0B 0x07 = some 0x0174 ∧ branchPc 0x1B0B 0x08 = some 0x0101 := by decide
theorem test_bncr : branchPc 0x0B04 0x17 = some 0x0104 ∧ branchPc 0x0B04 0x18 = some 0x0101 := by decide
theorem test_bs : branchPc 0x1C0B 0x01 = some 0x0174 ∧ branchPc 0x1C0B 0x0E = some 0x0101 := by decide
theorem test_bsr : branchPc 0x0C04 0x11 = some 0x0104 ∧ branchPc 0x0C04 0x1E = some 0x0101 := by decide
theorem test_bns : branchPc 0x1D0B 0x0E = some 0x0174 ∧ branchPc 0x1D0B 0x01 = some 0x0101 := by decide
theorem test_bnsr : branchPc 0x0D04 0x1E = some 0x0104 ∧ branchPc 0x0D04 0x11 = some 0x0101 := by decide
theorem test_bv : branchPc 0x1E0B 0x04 = some 0x0174 ∧ branchPc 0x1E0B 0x0B = some 0x0101 := by decide
theorem test_bvr : branchPc 0x0E04 0x14 = some 0x0104 ∧ branchPc 0x0E04 0x1B = some 0x0101 := by decide
theorem test_bnv : branchPc 0x1F0B 0x0B = some 0x0174 ∧ branchPc 0x1F0B 0x04 = some 0x0101 := by decide
theorem test_bnvr : branchPc 0x0F04 0x1B = some 0x0104 ∧ branchPc 0x0F04 0x14 = some 0x0101 := by decide

theorem test_halt_stays : flagsAndPc (placed 0x0000 0x0020 0x00 [] []) = some (0x00, 0x0020) := by decide
theorem test_nop_advances : flagsAndPc (placed 0x0001 0x0020 0x00 [] []) = some (0x00, 0x0021) := by decide

/-! ### The assembler: listings of the source (spec/95_test_vectors.md section 1) -/

/-- The image of a program, if it assembles. -/
def image (prog : List AsmStmt) : Option (List Word × List (Option Word)) :=
  match assemble prog with
  | .ok img => some (img.code, img.data)
  | .error _ => none

/-- Figure 5.1. -/
theorem test_assemble_if_then :
    image [.cbon, .imm (.setlo .r1) (.num 0xB6), .cmp .r1 .r0, .branchRelTo .ge ['S'], .neg .r1 .r1, .label ['S'],
      .instr (.lsr .r1 .r1)] =
    some ([0x3160, 0xE1B6, 0x3068, 0xB010, 0x0303, 0x3068, 0xB101, 0x3111], []) := by decide

/-- The register-mode variant of Figure 5.1, placed at 0x0200. -/
theorem test_assemble_register_mode :
    (match assembleAt 0x0200 [.cbon, .imm (.setlo .r1) (.num 0xB6), .cmp .r1 .r0, .branchTo .ge ['S'], .neg .r1 .r1,
        .label ['S'], .instr (.lsr .r1 .r1)] with | .ok img => img.code | .error _ => []) =
    [0x3160, 0xE1B6, 0x3068, 0xB010, 0xEB09, 0xFB02, 0x130B, 0x3068, 0xB101, 0x3111] := by decide

/-- The data statements of Figure 6.1 and the first instructions of its program. -/
theorem test_assemble_data :
    image [.dlabel ['V'], .dlabel ['X'], .integer (.num 12), .dlabel ['Y'], .dskip (.num 1), .dlabel ['Z'],
      .integer (.num 4), .cbon, .set .rt (.name ['X']), .imm (.load .r1 .rt) (.num 0), .set .rt (.name ['Y'])] =
    some ([0x3160, 0xEB01, 0xFBC0, 0x410B, 0xEB02, 0xFBC0], [some 12, none, some 4]) := by decide

/-- The call of section 7.3.1: a function at address 12. -/
theorem test_assemble_call :
    image (List.replicate 9 .nop ++ [.callTo .fpAlt ['U'], .label ['U'], .instr (.ret .fpAlt .pcRet)]) =
    some (List.replicate 9 0x0001 ++ [0xED0C, 0xFD00, 0x20CD, 0x21CD], []) := by decide

theorem test_assemble_character : image [.imm (.setlo .r3) (.chr ['X'])] = some ([0xE358], []) := by decide
theorem test_assemble_string :
    image [.lpString ['a', '\\', 'n', 'b']] = some ([], [some 3, some 0x61, some 0x0A, some 0x62]) := by decide
/-- Figure 5.1's BGER at address 4 with its label at 7, written as the numeric form with a label, and with a constant,
which is the offset itself (R306, R320). -/
theorem test_assemble_relative_operand :
    image [.nop, .nop, .nop, .nop, .imm (.relative .ge) (.name ['S']), .nop, .nop, .label ['S'], .constant ['N'] (.num 3),
      .imm (.relative .ge) (.name ['N']), .branchRelTo .ge ['N']] =
    some ([1, 1, 1, 1, 0x0303, 1, 1, 0x0303, 0x0303], []) := by decide

/-- Why a program does not assemble. -/
def why (code : Nat) (prog : List AsmStmt) : Option AsmError :=
  match assembleAt code prog with
  | .ok _ => none
  | .error e => some e

/-- Log entry 24: a data label is no branch target, a label no number, but SET takes both. -/
theorem test_assemble_kinds_of_names :
    why 0 [.dlabel ['D'], .branchTo .g ['D']] = some (.wrongKind ['D']) ∧
    why 0 [.dlabel ['D'], .integer (.name ['D'])] = some (.wrongKind ['D']) ∧
    why 0 [.label ['L'], .imm (.inc .r1) (.name ['L'])] = some (.wrongKind ['L']) ∧
    why 0 [.callTo .fpAlt ['L']] = some (.undefinedName ['L']) ∧
    why 0 [.dlabel ['L'], .label ['L']] = some (.duplicateName ['L']) ∧
    image [.label ['L'], .dlabel ['D'], .set .r1 (.name ['D']), .set .r1 (.name ['L'])] =
      some ([0xE101, 0xF1C0, 0xE100, 0xF100], []) := by decide

/-- Log entry 23: the last cell may be filled and not passed. -/
theorem test_assemble_last_cell : why 65535 [.nop] = none ∧ why 65535 [.nop, .nop] = some .doesNotFit := by decide

/-- Log entry 25: CALL(R13, L) assembles; its third word is refused when it executes. -/
theorem test_assemble_call_clash :
    image [.label ['L'], .callTo .pcRet ['L']] = some ([0xED00, 0xFD00, 0x20DD], []) ∧
    refusal (placed 0x20DD 0x0002 0x00 [] []) = some .callRegisterClash := by decide

/-- R304, and log entry 27 for the keyword `int` and the letter é. -/
theorem test_names :
    validName ['_', 'a', '9'] = true ∧ validName ['9', 'a'] = false ∧ validName [] = false ∧
    validName ['i', 'n', 't'] = true ∧ validName ['é'] = false := by decide

/-- Log entry 28: a bare double quote has the code of its escape sequence (R323). -/
theorem test_bare_quote :
    stringCodes ['"'] = some [0x22] ∧ stringCodes ['\\', '"'] = some [0x22] ∧ stringCodes ['\\', 'q'] = none := by decide

theorem test_assemble_too_far :
    image (.branchRelTo .always ['L'] :: List.replicate 127 .nop ++ [.label ['L']]) = none := by decide
theorem test_assemble_inc_zero : image [.imm (.inc .r1) (.num 0)] = none := by decide
theorem test_load_places_words :
    ((State.reset.load ⟨[0xE105, 0x0000], [none, some 7]⟩).instrCell 0x0000 = 0xE105) ∧
    ((State.reset.load ⟨[0xE105, 0x0000], [none, some 7]⟩).dataCell 0xC002 = 7) := by decide

/-! ### Witnesses: for each statement with hypotheses, values that meet them together -/

/-- A small state with every flag off and R1 = 5, R2 = 3, R12, R13, R14 as in the first CALL vector. -/
def base : State := placed 0x20CD 0x0005 0x00 [(.r1, 5), (.r2, 3), (.r12, 0x0105), (.r13, 0x000C), (.r14, 0x0100)] []

/-- `base` with other flags. -/
def baseWith (f : BitVec 5) : State := base.setFlags (Flags.ofBits f)

/-- The outcome is a next state. -/
def answers (o : Result) : Bool :=
  match o with
  | .next _ => true
  | .fault _ => false
  | .refused _ => false

/-- The machine after an outcome that is a next state; after a stop, the reset state. -/
def after (o : Result) : State :=
  match o with
  | .next t => t
  | .fault _ => State.reset
  | .refused _ => State.reset

theorem witness_EncodeThenDecode :
    (Instr.inc .r15 1).wf = true ∧ (Instr.dec .r1 64).wf = true ∧ (Instr.load .r15 31 .r15).wf = true ∧
    (Instr.swi 15).wf = true := by decide

theorem witness_DecodeThenEncode :
    decode 0x3D65 = .instr (.fset4 0x15) ∧ decode 0xFFFF = .instr (.sethi .r15 0xFF) ∧
    decode 0x0000 = .instr (.brr 0) := by decide

/-- A word for each leaf of the procedure. -/
theorem witness_DecodeFollowsProcedure :
    (([0xE000, 0xF000, 0x8000, 0x9000, 0xA000, 0xB000, 0xC000, 0xD000, 0x4000, 0x5FFF, 0x6000, 0x7FFF] : List Word).map
      (fun w => w.extractLsb' 12 4) = [14, 15, 8, 9, 10, 11, 12, 13, 4, 5, 6, 7]) ∧
    (([0x3F80, 0x3FBF, 0x3FC0, 0x3FFF, 0x3101, 0x3111, 0x3121, 0x3131, 0x3141, 0x3151, 0x3160, 0x3171] : List Word).map
      (fun w => (w.getLsbD 7, w.getLsbD 6, w.extractLsb' 4 3)) =
      [(true, false, 0), (true, false, 3), (true, true, 4), (true, true, 7), (false, false, 0), (false, false, 1),
       (false, false, 2), (false, false, 3), (false, true, 4), (false, true, 5), (false, true, 6), (false, true, 7)]) ∧
    (([0x3160, 0x3960, 0x3560, 0x3D60, 0x3260] : List Word).map (fun w => (w.extractLsb' 9 3, w.getLsbD 9)) =
      [(0, false), (4, false), (2, false), (6, false), (1, true)]) ∧
    (([0x3171, 0x3177, 0x3170, 0x3178] : List Word).map (fun w => (w.extractLsb' 0 3, w.getLsbD 3)) =
      [(1, false), (7, false), (0, false), (0, true)]) ∧
    (([0x2000, 0x21FF, 0x2200, 0x220F, 0x2300, 0x2301, 0x2FFF] : List Word).map
      (fun w => (w.extractLsb' 8 4, w.extractLsb' 4 8, w.extractLsb' 0 12)) =
      [(0, 0x00, 0x000), (1, 0x1F, 0x1FF), (2, 0x20, 0x200), (2, 0x20, 0x20F), (3, 0x30, 0x300), (3, 0x30, 0x301),
       (15, 0xFF, 0xFFF)]) := by decide

/-- A fetched word of each class. -/
theorem witness_UnspecifiedWordsByClass :
    ([0x01FF, 0x1FF0, 0x2FFF, 0x3F6F, 0x3F7F].map (fun w => decode (placed w 0 0 [] []).fetch)) =
      [.unspecified .unusedCondition, .unspecified .bregBits7to4, .unspecified .opcode0010, .unspecified .flagop,
       .unspecified .saverstrLowBits] := by decide

theorem witness_StepRunsDecodedInstruction :
    decode (base.instrCell base.pc) = .instr (.call .r12 .r13) ∧
    (let s := placed 0xA312 0xFFFF 0x08 [] []; decode (s.instrCell s.pc) = .instr (.add .r3 .r1 .r2)) ∧
    (let s := placed 0x3260 0x0100 0x00 [] []; decode (s.instrCell s.pc) = .unspecified .flagop) := by decide

theorem witness_StoredInstructionIsExecuted :
    (Instr.call .r12 .r13).wf = true ∧ base.instrCell base.pc = encode (.call .r12 .r13) := by decide

/-- Both sides of the equivalences are met: a step with a next state and, for each kind of stop, one without. -/
theorem witness_StepOutcomes :
    (next? base).isSome = true ∧ (Instr.call .r12 .r13).defined base.flags = true ∧
    ([0xC312, 0x20CC, 0x2200, 0x2300, 0x2400].map (fun w => (refusal (placed w 0 0x02 [] [])).isSome)) =
      [true, true, true, true, true] := by decide

theorem witness_ZeroRegister : Reg.r1 ≠ .r0 ∧ Reg.r15 ≠ .r0 ∧ Reg.r2 ≠ .r1 := by decide

theorem witness_RegisterAccessTable :
    answers (exec (.call .r12 .r13) base) = true ∧ Reg.r1 ∉ (Instr.call .r12 .r13).writes ∧
    Reg.r1 ∉ (Instr.call .r12 .r13).reads ∧ answers (exec (.setlo .r1 0x80) base) = true ∧
    Reg.r1 ∉ (Instr.setlo .r1 0x80).reads := by decide

/-- SUB with carry-block and c as they are and the three flags it does not read changed. -/
theorem witness_FlagAccessTable :
    answers (exec (.sub .r3 .r1 .r2) (baseWith 0x08)) = true ∧
    Flags.toBits (Flags.ofBits 0x0F) &&& (Instr.sub .r3 .r1 .r2).flagsRead =
      (baseWith 0x08).flags.toBits &&& (Instr.sub .r3 .r1 .r2).flagsRead := by decide

theorem witness_OnlyTransfersMovePc :
    answers (exec (.add .r3 .r1 .r2) base) = true ∧ (Instr.add .r3 .r1 .r2).transfers = false := by decide

/-- Two different states that agree on what a step reads, before a LOAD and before a refused word. -/
theorem witness_StepReadsOnly :
    let s₁ := placed 0x4102 0 0 [(.r2, 9)] [(9, 7), (10, 1)]
    let s₂ := placed 0x4102 0 0 [(.r2, 9)] [(9, 7), (10, 2)]
    s₁ ≠ s₂ ∧ s₁.regs = s₂.regs ∧ s₁.pc = s₂.pc ∧ s₁.flags = s₂.flags ∧ s₁.fetch = s₂.fetch ∧
    decode s₁.fetch = .instr (.load .r1 0 .r2) ∧
    s₁.dataCell (s₁.effAddr .r2 0) = s₂.dataCell (s₂.effAddr .r2 0) ∧ (next? s₁).isSome = true ∧
    refusal (placed 0x2400 0 0 [] [(1, 1)]) = refusal (placed 0x2400 0 0 [] [(1, 2)]) := by decide

/-- Cells at both ends of the address space, and a step that stores. -/
theorem witness_StepKeepsCanonicalMemory :
    let s := placed 0x6102 0xFFFF 0 [(.r1, 5), (.r2, 7)] [(0, 1), (0xFFFF, 2)]
    s.wf = true ∧ (next? s).isSome = true := by decide

theorem witness_CanonicalMemoryIsUnique :
    Memory.wf [(0, 1), (65535, 2)] = true ∧ Memory.wf (Memory.write (Memory.write [] 65535 2) 0 1) = true ∧
    Memory.wf [(65536, 1)] = false ∧ Memory.wf [(2, 1), (1, 1)] = false := by decide

theorem witness_InstructionMemoryIsConstant :
    (next? base).isSome = true ∧ answers (Host.Core.run Sys2Proof.core 1 base) = true := by decide

theorem witness_DataChangesOnlyByStore :
    (next? (placed 0x6102 0 0 [(.r1, 5), (.r2, 7)] [])).isSome = true := by decide

/-- STORE(R1, 0, R2) at 0, then LOAD(R3, 0, R2) at 1, with and without an instruction in between. -/
theorem witness_LoadReturnsLatestStore :
    let s₀ := (placed 0x6102 0 0 [(.r1, 5), (.r2, 7)] []).writeInstr 1 0x4302
    let s := after (step s₀)
    decode s₀.fetch = .instr (.store .r1 0 .r2) ∧ next? s₀ = some s ∧
    answers (Host.Core.run Sys2Proof.core 0 s) = true ∧ decode s.fetch = .instr (.load .r3 0 .r2) ∧
    s.effAddr .r2 0 = s₀.effAddr .r2 0 ∧
    (let u₀ := ((placed 0x6102 0 0 [(.r1, 5), (.r2, 7)] []).writeInstr 1 0x0001).writeInstr 2 0x4302
     let u := after (step u₀)
     let t := after (Host.Core.run Sys2Proof.core 1 u)
     next? u₀ = some u ∧ answers (Host.Core.run Sys2Proof.core 1 u) = true ∧ decode u.fetch = .instr (.brr 1) ∧
     decode t.fetch = .instr (.load .r3 0 .r2) ∧ t.effAddr .r2 0 = u₀.effAddr .r2 0) := by decide

theorem witness_SethiReplacesHighByte : fieldOp 0xF1AB = 0b1111 := by decide
theorem witness_SetPairBuildsAnyWord : Reg.r1 ≠ .r0 := by decide

theorem witness_BitwiseInstructions :
    fieldOp 0x8312 = 0b1000 ∧ fieldOp 0x9310 = 0b1001 ∧ fieldOp 0xDFFF = 0b1101 := by decide

theorem witness_MulResults :
    ((baseWith 0x1F).flags.cb = true ∧ (baseWith 0x10).flags.cb = true) ∧
    (baseWith 0x00).flags = ⟨false, false, false, false, false⟩ ∧
    (baseWith 0x01).flags = ⟨true, false, false, false, false⟩ := by decide

theorem witness_MulUndefinedModesRefused :
    ((baseWith 0x08).flags.cb = false ∧ (baseWith 0x08).flags.c = true) ∧
    ((baseWith 0x04).flags.cb = false ∧ (baseWith 0x04).flags.v = true) ∧
    ((baseWith 0x02).flags.cb = false ∧ (baseWith 0x02).flags.z = true) := by decide

theorem witness_MulPairMakesLongProduct :
    Reg.r3 ≠ .r0 ∧ Reg.r4 ≠ .r0 ∧ Reg.r4 ≠ .r3 ∧ Reg.r4 ≠ .r1 ∧ Reg.r4 ≠ .r2 := by decide

theorem witness_TwoWordAddAndSubtract :
    (baseWith 0x0F).flags.cb = false ∧ Reg.r1 ≠ .r0 ∧ Reg.r2 ≠ .r0 ∧ Reg.r2 ≠ .r1 ∧ Reg.r2 ≠ .r3 ∧ Reg.r2 ≠ .r5 := by
  decide

theorem witness_IncAddsDelta :
    (fieldOp 0x3180 = 0b0011 ∧ BitVec.getLsbD (0x3180 : Word) 7 = true ∧ BitVec.getLsbD (0x3180 : Word) 6 = false) ∧
    (fieldOp 0x3FBF = 0b0011 ∧ BitVec.getLsbD (0x3FBF : Word) 7 = true ∧ BitVec.getLsbD (0x3FBF : Word) 6 = false) ∧
    (1 ≤ 1 ∧ 1 ≤ 64) ∧ (1 ≤ 64 ∧ 64 ≤ 64) := by decide

theorem witness_DecSubtractsDelta :
    (fieldOp 0x31C0 = 0b0011 ∧ BitVec.getLsbD (0x31C0 : Word) 7 = true ∧ BitVec.getLsbD (0x31C0 : Word) 6 = true) ∧
    (fieldOp 0x3FFF = 0b0011 ∧ BitVec.getLsbD (0x3FFF : Word) 7 = true ∧ BitVec.getLsbD (0x3FFF : Word) 6 = true) ∧
    (1 ≤ 1 ∧ 1 ≤ 64) ∧ (1 ≤ 64 ∧ 64 ≤ 64) := by decide

theorem witness_LogicalShiftsByOne :
    (fieldOp 0x3201 = 0b0011 ∧ fieldA 0x3201 = 0b0000) ∧ (fieldOp 0x3F1F = 0b0011 ∧ fieldA 0x3F1F = 0b0001) := by
  decide

theorem witness_ShiftsByEight :
    (fieldOp 0x3221 = 0b0011 ∧ fieldA 0x3221 = 0b0010) ∧ (fieldOp 0x3F3F = 0b0011 ∧ fieldA 0x3F3F = 0b0011) := by
  decide

/-- SAVEF(R1), then a state that differs in the flags and keeps R1. -/
theorem witness_SaveAndRestoreFlags :
    let s := baseWith 0x15
    let t := after (exec (.savef .r1) s)
    let u := t.setFlags (Flags.ofBits 0x0A)
    Reg.r1 ≠ .r0 ∧ answers (exec (.savef .r1) s) = true ∧ u.reg .r1 = t.reg .r1 := by decide

theorem witness_SetAndClearNamedFlags :
    (fieldOp 0x3165 = 0b0011 ∧ fieldA 0x3165 = 0b0110 ∧ BitVec.extractLsb' 9 3 (0x3165 : Word) = 0b000) ∧
    (fieldOp 0x396F = 0b0011 ∧ fieldA 0x396F = 0b0110 ∧ BitVec.extractLsb' 9 3 (0x396F : Word) = 0b100) := by decide

theorem witness_SetAllFlags :
    fieldOp 0x3561 = 0b0011 ∧ fieldA 0x3561 = 0b0110 ∧ BitVec.extractLsb' 9 3 (0x3561 : Word) = 0b010 := by decide

theorem witness_SignedOrderBranches : (baseWith 0x08).flags.c = true ∧ (baseWith 0x10).flags.cb = true := by decide
theorem witness_UnsignedOrderBranches : (baseWith 0x08).flags.c = true ∧ (baseWith 0x10).flags.cb = true := by decide
theorem witness_SingleFlagBranches : (baseWith 0x08).flags.c = true ∧ (baseWith 0x10).flags.cb = true := by decide
theorem witness_FlagsAfterComparison : (baseWith 0x0F).flags.c = true ∧ (baseWith 0x17).flags.cb = true := by decide

theorem witness_HaltAndNop :
    Cond.holds .z (Flags.ofBits 0x02) = true ∧ Cond.holds .ug (Flags.ofBits 0x08) = true ∧
    Cond.holds .always (Flags.ofBits 0x00) = true := by decide

theorem witness_HaltedStateNeverChanges :
    (placed 0x0000 0x0000 0x1F [] []).halted = true ∧ (placed 0x0000 0xFFFF 0x00 [(.r1, 1)] [(2, 3)]).halted = true := by
  decide

/-- The operand pairs the exchange is defined for, R0 in either place and a = R14 among them. -/
theorem witness_CallAndReturnExchange :
    (fieldOp 0x20CD = 0b0010 ∧ fieldD 0x20CD = 0b0000) ∧ (fieldOp 0x21CD = 0b0010 ∧ fieldD 0x21CD = 0b0001) ∧
    ([(.r12, .r13), (.r0, .r13), (.r12, .r0), (.r0, .r0), (.r14, .r13)] : List (Reg × Reg)).all
      (fun p => (decide (p.1 = .r0) || !decide (p.1 = p.2)) && !decide (p.2 = .r14)) = true := by decide

theorem witness_CallRegisterClashRefused :
    (Reg.r12 = .r12 ∧ Reg.r12 ≠ .r0) ∧ (Reg.r14 = .r14 ∧ Reg.r0 ≠ Reg.r14) := by decide

/-- The first two rows of spec/95_test_vectors.md section 2.10: the RETURN stands at another address. -/
theorem witness_ReturnUndoesCall :
    let t := after (exec (.call .r12 .r13) base)
    let u := t.setPc 0x000F
    Reg.r12 ≠ .r0 ∧ Reg.r13 ≠ .r0 ∧ answers (exec (.call .r12 .r13) base) = true ∧
    u.reg .r12 = t.reg .r12 ∧ u.reg .r13 = t.reg .r13 ∧ u.reg .fp = t.reg .fp := by decide

theorem witness_ReservedInstructionsRefused :
    BitVec.extractLsb' 4 12 (0x2200 : Word) = 0x220 ∧ BitVec.extractLsb' 4 12 (0x220F : Word) = 0x220 := by decide

theorem witness_StatementSizes :
    (match AsmStmt.code ⟨[(['L'], 300)], [], []⟩ 0 (.branchTo .g ['L']) with | .ok ws => ws.length | .error _ => 0) = 3 ∧
    (match AsmStmt.code ⟨[], [], []⟩ 0 (.setrf .r1 (.num (-32768))) with | .ok ws => ws.length | .error _ => 0) = 4 := by
  decide

theorem witness_PseudoOperationEffects : Reg.r1 ≠ .r11 ∧ Reg.r2 ≠ .r1 ∧ Reg.r2 ≠ .r11 := by decide

/-- A program with one word and data cells of which one is skipped, and the longest program that fits. -/
theorem witness_LoaderPlacesProgram :
    ([0x0000] : List Word).length ≤ 65536 ∧
    0xC001 + ([some 1, none, some 2] : List (Option Word)).length ≤ 65536 ∧
    ([0x0000] : List Word)[0]? = some 0x0000 ∧
    ([some 1, none, some 2] : List (Option Word))[2]? = some (some 2) ∧ ([0x0000] : List Word).length ≤ (1 : Word).toNat := by
  decide

theorem witness_LoaderPlacesProgram_longest (v w : Word) :
    (List.replicate 65536 w).length ≤ 65536 ∧ 0xC001 + (List.replicate 16383 (some v)).length ≤ 65536 := by
  rw [List.length_replicate, List.length_replicate]
  exact ⟨Nat.le_refl _, by decide⟩

/-- A label in range, at both ends of the range, and just past each end; and the state the relative branch starts in. -/
theorem witness_LabelOperandsReachLabel :
    lookupName ['L'] [(['L'], (7 : Int))] = some 7 ∧ (-128 ≤ (7 : Int) - (4 : Nat) ∧ (7 : Int) - (4 : Nat) ≤ 127) ∧
    (placed 0x0303 0x0004 0x00 [] []).pc = BitVec.ofNat 16 4 ∧
    lookupName ['L'] [(['L'], (131 : Int))] = some 131 ∧ (131 : Int) - (4 : Nat) = 127 ∧
    lookupName ['L'] [(['L'], (0 : Int))] = some 0 ∧ (0 : Int) - (128 : Nat) = -128 ∧
    (127 < (132 : Int) - (4 : Nat)) ∧ ((0 : Int) - (129 : Nat) < -128) ∧ Reg.r12 ≠ .r13 ∧ Reg.r0 ≠ .r13 := by decide

end Sys2Proof.Tests
end

section
/-! PROOF. SETHI (spec/40_set.md R121). -/

namespace Sys2Proof.Machine

/-- The meaning of SETHI: Rd is written by `withHighByte`, and the flags handed on are the old ones. -/
theorem exec_sethi (d : Reg) (v : BitVec 8) (s : State) :
    exec (.sethi d v) s = .next (s.retire d (withHighByte v (s.reg d)) s.flags) := rfl

/-- Settles O22: the words by `decode_1111`; the effect is that of `retire`, and the value written is read bit by bit
off `getLsbD_withHighByte`. -/
theorem sethiReplacesHighByte : Obligations.SethiReplacesHighByte := by
  unfold Obligations.SethiReplacesHighByte
  refine ⟨decode_1111, fun d v s => ?_⟩
  have hframe := s.retire_spec d (withHighByte v (s.reg d)) s.flags
  exact ⟨_, _, exec_sethi d v s, hframe, getLsbD_withHighByte v (s.reg d)⟩

end Sys2Proof.Machine
end

section
/-! PROOF. AND, OR, XOR (spec/41_alu.md R137 to R139). -/

namespace Sys2Proof.Machine

/-- The meaning of AND. -/
theorem exec_and (d a b : Reg) (s : State) :
    exec (.and d a b) s = .next (s.retireComputed d (computeSZ s.flags (s.reg a &&& s.reg b))) := rfl

/-- The meaning of OR. -/
theorem exec_or (d a b : Reg) (s : State) :
    exec (.or d a b) s = .next (s.retireComputed d (computeSZ s.flags (s.reg a ||| s.reg b))) := rfl

/-- The meaning of XOR. -/
theorem exec_xor (d a b : Reg) (s : State) :
    exec (.xor d a b) s = .next (s.retireComputed d (computeSZ s.flags (s.reg a ^^^ s.reg b))) := rfl

/-- What every instruction that retires `r` through `computeSZ` does (R130): `p` is what its own rule says of the
value written. -/
theorem writes_of_exec_computeSZ {i : Instr} {s : State} {d : Reg} {r : Word} {p : Word → Prop}
    (hexec : exec i s = .next (s.retireComputed d (computeSZ s.flags r))) (hr : p r) :
    ∃ t r f, exec i s = .next t ∧ WritesRegister s t d r f ∧ p r ∧ SZOf f r ∧ KeepsVCCb s.flags f := by
  obtain ⟨-, hsz, hkept⟩ := computeSZ_spec s.flags r
  exact ⟨_, r, _, hexec, s.retireComputed_spec d (computeSZ s.flags r), hr, hsz, hkept⟩

/-- Settles O24: the words by `decode_1000`, `decode_1001` and `decode_1101`; each effect is
`writes_of_exec_computeSZ` for the bit-wise operation of that instruction. -/
theorem bitwiseInstructions : Obligations.BitwiseInstructions := by
  unfold Obligations.BitwiseInstructions
  refine ⟨fun w => ⟨decode_1000 w, decode_1001 w, decode_1101 w⟩, fun d a b s => ⟨?and, ?or, ?xor⟩, fun _ _ => rfl⟩
  case and => exact writes_of_exec_computeSZ (exec_and d a b s) fun _ _ => BitVec.getLsbD_and
  case or => exact writes_of_exec_computeSZ (exec_or d a b s) fun _ _ => BitVec.getLsbD_or
  case xor => exact writes_of_exec_computeSZ (exec_xor d a b s) fun _ _ => BitVec.getLsbD_xor

end Sys2Proof.Machine
end

section
/-! PROOF. LSL, LSR, LSL8, LSR8 (spec/43_shift.md R160 to R163). -/

namespace Sys2Proof.Machine

/-! ### What the four instructions do -/

/-- The meaning of LSL. -/
theorem exec_lsl (d b : Reg) (s : State) : exec (.lsl d b) s = .next (s.retireComputed d
    (computeShift s.flags (shiftLeftIn (s.reg b) s.flags.carryIn) ((s.reg b).getLsbD 15))) := rfl

/-- The meaning of LSR. -/
theorem exec_lsr (d b : Reg) (s : State) : exec (.lsr d b) s = .next (s.retireComputed d
    (computeShift s.flags (shiftRightIn s.flags.carryIn (s.reg b)) ((s.reg b).getLsbD 0))) := rfl

/-- The meaning of LSL8. -/
theorem exec_lsl8 (d b : Reg) (s : State) :
    exec (.lsl8 d b) s = .next (s.retireComputed d (computeSZ s.flags (s.reg b <<< 8))) := rfl

/-- The meaning of LSR8. -/
theorem exec_lsr8 (d b : Reg) (s : State) :
    exec (.lsr8 d b) s = .next (s.retireComputed d (computeSZ s.flags (s.reg b >>> 8))) := rfl

/-- What every instruction that retires a one-bit shift of `r` with `out` shifted out does (R166): `p` is what its own
rule says of the value written together with the new c. -/
theorem writes_of_exec_computeShift {i : Instr} {s : State} {d : Reg} {r : Word} {out : Bool}
    (p : Word → Bool → Prop) (hexec : exec i s = .next (s.retireComputed d (computeShift s.flags r out)))
    (hr : p r out) :
    ∃ t r f, exec i s = .next t ∧ WritesRegister s t d r f ∧ p r f.c ∧ f.c = out ∧ SZOf f r ∧
      f.v = s.flags.v ∧ f.cb = s.flags.cb := by
  obtain ⟨-, hsz, hv, hc, hcb⟩ := computeShift_spec s.flags r out
  exact ⟨_, r, _, hexec, s.retireComputed_spec d (computeShift s.flags r out), hr, hc, hsz, hv, hcb⟩

/-! ### One bit: the word and c together -/

/-- The bit of weight `2 ^ i`, as a number. -/
theorem toNat_getLsbD (x : Word) (i : Nat) : (x.getLsbD i).toNat = x.toNat / 2 ^ i % 2 := by
  rw [← BitVec.testBit_toNat, Nat.toNat_testBit]

/-- Shifting left loses nothing: the bit shifted out, on top of the result, makes up the exact 17-bit double (R160). -/
theorem shiftLeftIn_with_bit_out (x : Word) (cin : Bool) :
    (shiftLeftIn x cin).toNat + 65536 * (x.getLsbD 15).toNat = 2 * x.toNat + cin.toNat := by
  have hx := x.isLt
  have hcin := cin.toNat_lt
  rw [shiftLeftIn_toNat, toNat_getLsbD]
  omega

/-- Shifting right loses nothing: the bit shifted out, below the result, makes up the word with the bit shifted in on
top of it (R161). -/
theorem shiftRightIn_with_bit_out (top : Bool) (x : Word) :
    2 * (shiftRightIn top x).toNat + (x.getLsbD 0).toNat = x.toNat + 65536 * top.toNat := by
  rw [shiftRightIn_toNat, toNat_getLsbD]
  omega

/-- Settles O33: the words by the decoder's rules for major opcode 0011; each effect is `writes_of_exec_computeShift`
for the 17-bit equation of that direction. -/
theorem logicalShiftsByOne : Obligations.LogicalShiftsByOne := by
  unfold Obligations.LogicalShiftsByOne
  refine ⟨fun w hop => ?words, fun d b s => ⟨?lsl, ?lsr⟩⟩
  case words =>
    rw [decode_0011 w hop]
    exact ⟨decode0011_0000 w, decode0011_0001 w⟩
  case lsl =>
    exact writes_of_exec_computeShift
      (fun r c => r.toNat + 65536 * c.toNat = 2 * (s.reg b).toNat + s.flags.carryIn.toNat)
      (exec_lsl d b s) (shiftLeftIn_with_bit_out _ _)
  case lsr =>
    exact writes_of_exec_computeShift
      (fun r c => 2 * r.toNat + c.toNat = (s.reg b).toNat + 65536 * s.flags.carryIn.toNat)
      (exec_lsr d b s) (shiftRightIn_with_bit_out _ _)

/-! ### Eight bits: zeros in -/

/-- The left shift by eight, bit by bit (R162). -/
theorem getLsbD_shiftLeft_eight (x : Word) (i : Nat) (hi : i < 16) :
    (x <<< 8).getLsbD i = if i < 8 then false else x.getLsbD (i - 8) := by
  rw [BitVec.getLsbD_shiftLeft]
  split <;> simp [*]

/-- The right shift by eight, bit by bit (R163). -/
theorem getLsbD_ushiftRight_eight (x : Word) (i : Nat) :
    (x >>> 8).getLsbD i = if i < 8 then x.getLsbD (i + 8) else false := by
  rw [BitVec.getLsbD_ushiftRight, Nat.add_comm 8 i]
  split
  · rfl
  · exact BitVec.getLsbD_of_ge x (i + 8) (by omega)

/-- Settles O34: the words by the decoder's rules for major opcode 0011; each effect is `writes_of_exec_computeSZ` for
the shift of that direction, and s of LSR8 is its bit 15, one of the zeros shifted in. -/
theorem shiftsByEight : Obligations.ShiftsByEight := by
  unfold Obligations.ShiftsByEight
  refine ⟨fun w hop => ?words, fun d b s => ⟨?lsl8, ?lsr8⟩⟩
  case words =>
    rw [decode_0011 w hop]
    exact ⟨decode0011_0010 w, decode0011_0011 w⟩
  case lsl8 => exact writes_of_exec_computeSZ (exec_lsl8 d b s) (getLsbD_shiftLeft_eight (s.reg b))
  case lsr8 =>
    obtain ⟨t, r, f, hexec, hwrites, hbits, ⟨hs15, hz⟩, hkept⟩ :=
      writes_of_exec_computeSZ
        (p := fun r => ∀ i, i < 16 → r.getLsbD i = if i < 8 then (s.reg b).getLsbD (i + 8) else false)
        (exec_lsr8 d b s) fun i _ => getLsbD_ushiftRight_eight (s.reg b) i
    have hs : f.s = false := hs15.trans (hbits 15 (by decide))
    exact ⟨t, r, f, hexec, hwrites, hbits, ⟨hs15, hz⟩, hs, hkept⟩

end Sys2Proof.Machine
end

section
/-! PROOF. FON, FOFF, FSET5 (spec/44_flags.md R182 to R184). -/

namespace Sys2Proof.Machine

/-! ### Words and meanings -/

/-- The words of format FLAGOP decode by bits 11:9 alone (R87, R97). -/
theorem decode_flagOp (w : Word) (hop : fieldOp w = 0b0011) (ha : fieldA w = 0b0110) :
    decode w = decodeFlagOp (w.extractLsb' 9 3) (fieldMask w) :=
  (decode_0011 w hop).trans (decode0011_0110 w ha)

/-- The meaning of FON. -/
theorem exec_fon (m : BitVec 5) (s : State) :
    exec (.fon m) s = .next (s.retireFlags (Flags.ofBits (s.flags.toBits ||| m))) := rfl

/-- The meaning of FOFF. -/
theorem exec_foff (m : BitVec 5) (s : State) :
    exec (.foff m) s = .next (s.retireFlags (Flags.ofBits (s.flags.toBits &&& ~~~m))) := rfl

/-- The meaning of FSET5. -/
theorem exec_fset5 (m : BitVec 5) (s : State) : exec (.fset5 m) s = .next (s.retireFlags (Flags.ofBits m)) := rfl

/-- What every instruction that retires the flags `f` alone does: `g` is how its own rule writes them. -/
theorem writesNoRegister_of_exec {i : Instr} {s : State} {f g : Flags} (hexec : exec i s = .next (s.retireFlags f))
    (hflags : f = g) : ∃ t, exec i s = .next t ∧ WritesNoRegister s t g (s.pc + 1) :=
  ⟨_, hexec, hflags ▸ s.retireFlags_spec f⟩

/-! ### A mask on F, flag by flag -/

/-- F with the bits of a mask set. -/
theorem Flags.ofBits_toBits_or (f : Flags) (m : BitVec 5) : Flags.ofBits (f.toBits ||| m) =
    ⟨f.s || m.getLsbD 0, f.z || m.getLsbD 1, f.v || m.getLsbD 2, f.c || m.getLsbD 3, f.cb || m.getLsbD 4⟩ := by
  obtain ⟨hs, hz, hv, hc, hcb⟩ := f.getLsbD_toBits
  simp only [Flags.ofBits, BitVec.getLsbD_or, hs, hz, hv, hc, hcb]

/-- F with the bits of a mask cleared. -/
theorem Flags.ofBits_toBits_and_not (f : Flags) (m : BitVec 5) : Flags.ofBits (f.toBits &&& ~~~m) =
    ⟨f.s && !m.getLsbD 0, f.z && !m.getLsbD 1, f.v && !m.getLsbD 2, f.c && !m.getLsbD 3, f.cb && !m.getLsbD 4⟩ := by
  obtain ⟨hs, hz, hv, hc, hcb⟩ := f.getLsbD_toBits
  simp only [Flags.ofBits, BitVec.getLsbD_and, BitVec.getLsbD_not, Nat.reduceLT, decide_true, Bool.true_and,
    hs, hz, hv, hc, hcb]

/-! ### The two obligations -/

/-- Settles O38: the words by `decode_flagOp`, each effect by the law of the mask on F, flag by flag, and the four
standard words by encoding them. -/
theorem setAndClearNamedFlags : Obligations.SetAndClearNamedFlags := by
  unfold Obligations.SetAndClearNamedFlags
  refine ⟨fun w hop ha => ?words, fun m s => ?fon, fun m s => ?foff, ?con, ?cbon, ?coff, ?ccboff⟩
  case words =>
    rw [decode_flagOp w hop ha]
    exact ⟨fun h => by rw [h]; rfl, fun h => by rw [h]; rfl⟩
  case fon => exact writesNoRegister_of_exec (exec_fon m s) (s.flags.ofBits_toBits_or m)
  case foff => exact writesNoRegister_of_exec (exec_foff m s) (s.flags.ofBits_toBits_and_not m)
  case con | cbon | coff | ccboff => decide

/-- Settles O39: the words by `decode_flagOp`; the flags retired are those the mask stands for, and they do not depend
on the old ones. -/
theorem setAllFlags : Obligations.SetAllFlags := by
  unfold Obligations.SetAllFlags
  refine ⟨fun w hop ha h => ?words, fun m s => ?fset5⟩
  case words => rw [decode_flagOp w hop ha, h]; rfl
  case fset5 => exact writesNoRegister_of_exec (exec_fset5 m s) rfl

end Sys2Proof.Machine
end

section
/-! PROOF. What a comparison leaves in the flags (spec/46_branch.md R243; spec/41_alu.md R132). -/

namespace Sys2Proof.Machine

/-- The reading of R243: the flags `f` compare `x` with `y`, equality in z, the unsigned order in c and the signed
order in s xor v. -/
structure ComparisonFlags (f : Flags) (x y : Word) : Prop where
  /-- z: equality. -/
  zero : f.z = true ↔ x = y
  /-- c: the unsigned order. -/
  carry : f.c = true ↔ y.toNat ≤ x.toNat
  /-- s xor v: the signed order. -/
  signed : (f.s ^^ f.v) = true ↔ x.toInt < y.toInt

/-- With z beside s xor v, the signed order includes equality. -/
theorem ComparisonFlags.signed_le {f : Flags} {x y : Word} (hf : ComparisonFlags f x y) :
    ((f.s ^^ f.v) || f.z) = true ↔ x.toInt ≤ y.toInt := by
  rw [Bool.or_eq_true, hf.signed, hf.zero, ← BitVec.toInt_inj, le_iff_lt_or_eq]

/-! ### The difference of two words -/

/-- The word a difference leaves is 0 exactly when the two words are equal (R132). -/
theorem difference_eq_zero_iff (x y r : Word) (hr : (r.toNat : Int) = ((x.toNat : Int) - y.toNat) % 65536) :
    r = 0 ↔ x = y := by
  have hx := x.isLt
  have hy := y.isLt
  have hzero : (0 : Word).toNat = 0 := rfl
  rw [← BitVec.toNat_inj, ← BitVec.toNat_inj, hzero]
  omega

/-- The true sign of a difference: bit 15 of the word it leaves, the opposite of it where the exact signed difference
does not fit (R243). -/
theorem sign_xor_overflow_iff (x y r : Word) (v : Bool) (hr : (r.toNat : Int) = ((x.toNat : Int) - y.toNat) % 65536)
    (hv : v = true ↔ x.toInt - y.toInt < -32768 ∨ 32767 < x.toInt - y.toInt) :
    (r.getLsbD 15 ^^ v) = true ↔ x.toInt < y.toInt := by
  have hx := x.isLt
  have hy := y.isLt
  have hxi := BitVec.toInt_eq_toNat_cond x
  have hyi := BitVec.toInt_eq_toNat_cond y
  have hs : r.getLsbD 15 = true ↔ 32768 ≤ r.toNat := by rw [getLsbD_15, decide_eq_true_iff]
  rw [Bool.xor_iff_ne, ne_eq, Bool.eq_iff_iff, hs, hv]
  split at hxi <;> split at hyi <;> omega

/-! ### SUB without a borrow in, and CMP -/

/-- The meaning of SUB. -/
theorem exec_sub (d a b : Reg) (s : State) :
    exec (.sub d a b) s = .next (s.retireComputed d (subWords s.flags (s.reg a) (s.reg b))) := rfl

/-- No borrow is taken in exactly when the carry is on or blocked (R9, R28). -/
theorem Flags.borrowIn_eq_false_iff (f : Flags) : f.borrowIn = false ↔ f.c = true ∨ f.cb = true := by
  rw [Flags.borrowIn, Bool.and_eq_false_iff, Bool.not_eq_false', Bool.not_eq_false']

/-- A subtraction that takes no borrow in compares its operands. -/
theorem subWords_comparisonFlags (f : Flags) (x y : Word) (h : f.borrowIn = false) :
    ComparisonFlags (subWords f x y).flags x y := by
  have hspec := computeDiff_spec f ((x.toNat : Int) - y.toNat) (x.toInt - y.toInt)
  have hsub : subWords f x y = computeDiff f ((x.toNat : Int) - y.toNat) (x.toInt - y.toInt) := by
    simp [subWords, h]
  rw [← hsub] at hspec
  obtain ⟨hr, ⟨hs, hz⟩, hc, hv, -⟩ := hspec
  refine ⟨hz.trans (difference_eq_zero_iff x y _ hr), ?carry, ?signed⟩
  case carry => rw [hc]; omega
  case signed => rw [hs]; exact sign_xor_overflow_iff x y _ _ hr hv

/-- After a SUB that takes no borrow in, the flags compare Ra with Rb. -/
theorem exec_sub_comparisonFlags (d a b : Reg) (s : State) (h : s.flags.c = true ∨ s.flags.cb = true) :
    ∃ t, exec (.sub d a b) s = .next t ∧ ComparisonFlags t.flags (s.reg a) (s.reg b) :=
  ⟨_, exec_sub d a b s, subWords_comparisonFlags _ _ _ (s.flags.borrowIn_eq_false_iff.mpr h)⟩

/-- CMP is SUB into R0 with the carry on, from the next instruction (R293). -/
theorem execAll_cmp (a b : Reg) (s : State) : execAll [.fon 0x08, .sub .r0 a b] s =
    exec (.sub .r0 a b) (s.retireFlags { s.flags with c := true }) := by
  have hcon : Flags.ofBits (s.flags.toBits ||| 0x08) = { s.flags with c := true } := by
    simp [Flags.ofBits_toBits_or]
  simp only [execAll, exec_fon, exec_sub, hcon]

/-- After CMP the flags compare Ra with Rb, whatever they were. -/
theorem execAll_cmp_comparisonFlags (a b : Reg) (s : State) :
    ∃ t, execAll [.fon 0x08, .sub .r0 a b] s = .next t ∧ ComparisonFlags t.flags (s.reg a) (s.reg b) := by
  rw [execAll_cmp]
  exact exec_sub_comparisonFlags .r0 a b _ (.inl rfl)

/-- A flag expression that reads a test off the flags of a comparison is the test after CMP and after SUB. -/
theorem takenAfterCompare_of_comparisonFlags {taken : Flags → Bool} {test : Word → Word → Prop}
    (h : ∀ f x y, ComparisonFlags f x y → (taken f = true ↔ test x y)) : TakenAfterCompare taken test := by
  refine ⟨fun a b s => ?cmp, fun d a b s hb => ?sub⟩
  case cmp =>
    obtain ⟨t, hexec, hflags⟩ := execAll_cmp_comparisonFlags a b s
    exact ⟨t, hexec, h _ _ _ hflags⟩
  case sub =>
    obtain ⟨t, hexec, hflags⟩ := exec_sub_comparisonFlags d a b s hb
    exact ⟨t, hexec, h _ _ _ hflags⟩

end Sys2Proof.Machine
end

section
/-! PROOF. The register-mode branches, all fifteen conditions at once (spec/46_branch.md R210; spec/30_encoding.md R89,
R99). -/

namespace Sys2Proof.Machine

/-! ### The codes of the conditions -/

/-- The code of a condition in `ir[11:8]`, by the table of R210. -/
def condCode : Cond → BitVec 4
  | .always => 0b0000
  | .l => 0b0010
  | .ge => 0b0011
  | .le => 0b0100
  | .g => 0b0101
  | .ule => 0b0110
  | .ug => 0b0111
  | .z => 0b1000
  | .nz => 0b1001
  | .c => 0b1010
  | .nc => 0b1011
  | .s => 0b1100
  | .ns => 0b1101
  | .v => 0b1110
  | .nv => 0b1111

/-- The code 0001 is unused. -/
theorem condCode_ne_unused (cond : Cond) : condCode cond ≠ 0b0001 := by cases cond <;> decide

/-- Every other code is that of a condition. -/
theorem exists_condCode (n : BitVec 4) (h : n ≠ 0b0001) : ∃ cond, condCode cond = n := by
  have hall : ∀ n : BitVec 4, n ≠ 0b0001 → ∃ cond ∈ [Cond.always, .l, .ge, .le, .g, .ule, .ug, .z, .nz, .c, .nc,
      .s, .ns, .v, .nv], condCode cond = n := by decide
  obtain ⟨cond, -, hcode⟩ := hall n h
  exact ⟨cond, hcode⟩

/-- The decoder reads the code of a condition as that condition's branch (R99). -/
theorem decodeRegister_condCode (cond : Cond) (b : Reg) :
    decodeRegister (condCode cond) b = .instr (branchInstr cond b) := by
  cases cond <;> rfl

/-! ### Telling the register-mode branches from all other words -/

/-- The condition and the register of a register-mode branch; none for everything else a word may decode to. -/
def branchOf? : Decoded → Option (Cond × Reg)
  | .instr (.br b) => some (.always, b)
  | .instr (.bl b) => some (.l, b)
  | .instr (.bge b) => some (.ge, b)
  | .instr (.ble b) => some (.le, b)
  | .instr (.bg b) => some (.g, b)
  | .instr (.bule b) => some (.ule, b)
  | .instr (.bug b) => some (.ug, b)
  | .instr (.bz b) => some (.z, b)
  | .instr (.bnz b) => some (.nz, b)
  | .instr (.bc b) => some (.c, b)
  | .instr (.bnc b) => some (.nc, b)
  | .instr (.bs b) => some (.s, b)
  | .instr (.bns b) => some (.ns, b)
  | .instr (.bv b) => some (.v, b)
  | .instr (.bnv b) => some (.nv, b)
  | _ => none

/-- `branchOf?` undoes `branchInstr`. -/
@[simp] theorem branchOf?_branchInstr (cond : Cond) (b : Reg) :
    branchOf? (.instr (branchInstr cond b)) = some (cond, b) := by
  cases cond <;> rfl

/-- Not among the relative branches (R90). -/
theorem branchOf?_decodeRelative (n : BitVec 4) (o : BitVec 8) : branchOf? (decodeRelative n o) = none := by
  unfold decodeRelative; split <;> rfl

/-- Not in major opcode 0010 (R98). -/
theorem branchOf?_decode0010 (n2 n1 n0 : BitVec 4) : branchOf? (decode0010 n2 n1 n0) = none := by
  unfold decode0010; split_ifs <;> rfl

/-- Not among the flag operations (R87). -/
theorem branchOf?_decodeFlagOp (op : BitVec 3) (m : BitVec 5) : branchOf? (decodeFlagOp op m) = none := by
  unfold decodeFlagOp; split <;> rfl

/-- Not SAVEF or RSTRF (R86). -/
theorem branchOf?_decodeSaveRestore (d : Reg) (n0 : BitVec 4) : branchOf? (decodeSaveRestore d n0) = none := by
  unfold decodeSaveRestore; split_ifs <;> rfl

/-- Not in major opcode 0011 (R97). -/
theorem branchOf?_decode0011 (w : Word) : branchOf? (decode0011 w) = none := by
  unfold decode0011
  split
  case h_7 => exact branchOf?_decodeFlagOp _ _
  case h_8 => exact branchOf?_decodeSaveRestore _ _
  all_goals rfl

/-- A register-mode branch has major opcode 0001 (R95). -/
theorem branchOf?_decode (w : Word) (h : fieldOp w ≠ 0b0001) : branchOf? (decode w) = none := by
  unfold decode
  split
  case h_1 => exact branchOf?_decodeRelative _ _
  case h_2 hop => exact absurd hop h
  case h_3 => exact branchOf?_decode0010 _ _ _
  case h_4 => exact branchOf?_decode0011 w
  all_goals rfl

/-! ### Words and effect -/

/-- A word decodes to a register-mode branch exactly when it is laid out as R89 says. -/
theorem decode_eq_branchInstr_iff (w : Word) (cond : Cond) (b : Reg) : decode w = .instr (branchInstr cond b) ↔
    fieldOp w = 0b0001 ∧ fieldD w = condCode cond ∧ fieldA w = 0b0000 ∧ Reg.ofBits (fieldB w) = b := by
  constructor
  case mp =>
    intro hdecode
    have hbranch : branchOf? (decode w) = some (cond, b) := by rw [hdecode, branchOf?_branchInstr]
    have hop : fieldOp w = 0b0001 := by
      by_contra hop
      simp [branchOf?_decode w hop] at hbranch
    rw [decode_0001 w hop] at hbranch
    split_ifs at hbranch with hunused ha
    · cases hbranch
    · obtain ⟨cond', hcode⟩ := exists_condCode (fieldD w) hunused
      rw [← hcode, decodeRegister_condCode, branchOf?_branchInstr, Option.some_inj, Prod.mk.injEq] at hbranch
      obtain ⟨rfl, hb⟩ := hbranch
      exact ⟨hop, hcode.symm, ha, hb⟩
    · cases hbranch
  case mpr =>
    rintro ⟨hop, hcode, ha, rfl⟩
    have hused : fieldD w ≠ 0b0001 := hcode ▸ condCode_ne_unused cond
    rw [decode_0001 w hop, if_neg hused, if_pos ha, hcode, decodeRegister_condCode]

/-- The meaning of a register-mode branch. -/
theorem exec_branchInstr (cond : Cond) (b : Reg) (s : State) :
    exec (branchInstr cond b) s = .next (s.branchReg cond b) := by
  cases cond <;> rfl

/-- R210 for every condition: the words and the effect of its register-mode branch. -/
theorem registerBranch (cond : Cond) : RegisterBranch (condCode cond) (branchInstr cond) (Cond.holds cond) where
  words := fun w b => decode_eq_branchInstr_iff w cond b
  runs := fun b s => ⟨_, exec_branchInstr cond b s, s.branchTo_spec cond (s.reg b)⟩

end Sys2Proof.Machine
end

section
/-! PROOF. The branches on the signed order and on one flag, in register mode (spec/46_branch.md R211 to R219, R225,
R227, R233 to R239). -/

namespace Sys2Proof.Machine

/-! ### What the conditions test after a comparison -/

/-- BL tests the signed order (R213). -/
theorem takenAfterCompare_l : TakenAfterCompare (Cond.holds .l) (fun x y => x.toInt < y.toInt) :=
  takenAfterCompare_of_comparisonFlags fun _ _ _ hf => hf.signed

/-- BGE tests the opposite of BL (R215). -/
theorem takenAfterCompare_ge : TakenAfterCompare (Cond.holds .ge) (fun x y => y.toInt ≤ x.toInt) :=
  takenAfterCompare_of_comparisonFlags fun _ _ _ hf => Bool.not_iff_not.trans (hf.signed.not.trans Int.not_lt)

/-- BLE tests the signed order with equality (R217). -/
theorem takenAfterCompare_le : TakenAfterCompare (Cond.holds .le) (fun x y => x.toInt ≤ y.toInt) :=
  takenAfterCompare_of_comparisonFlags fun _ _ _ hf => hf.signed_le

/-- BG tests the opposite of BLE (R219). -/
theorem takenAfterCompare_g : TakenAfterCompare (Cond.holds .g) (fun x y => y.toInt < x.toInt) :=
  takenAfterCompare_of_comparisonFlags fun _ _ _ hf => Bool.not_iff_not.trans (hf.signed_le.not.trans Int.not_le)

/-- BZ tests equality (R225). -/
theorem takenAfterCompare_z : TakenAfterCompare (Cond.holds .z) (fun x y => x = y) :=
  takenAfterCompare_of_comparisonFlags fun _ _ _ hf => hf.zero

/-- BNZ tests the opposite of BZ (R227). -/
theorem takenAfterCompare_nz : TakenAfterCompare (Cond.holds .nz) (fun x y => x ≠ y) :=
  takenAfterCompare_of_comparisonFlags fun _ _ _ hf => Bool.not_iff_not.trans hf.zero.not

/-! ### The two obligations -/

/-- Settles O43: words and effect of each by `registerBranch`; what they test by the reading of s, v and z in
`ComparisonFlags`. -/
theorem signedOrderBranches : Obligations.SignedOrderBranches := by
  unfold Obligations.SignedOrderBranches
  exact ⟨registerBranch .l, registerBranch .ge, registerBranch .le, registerBranch .g,
    takenAfterCompare_l, takenAfterCompare_ge, takenAfterCompare_le, takenAfterCompare_g⟩

/-- Settles O45: words and effect of each by `registerBranch`; what BZ and BNZ test by the reading of z in
`ComparisonFlags`. -/
theorem singleFlagBranches : Obligations.SingleFlagBranches := by
  unfold Obligations.SingleFlagBranches
  exact ⟨registerBranch .always, registerBranch .z, registerBranch .nz, registerBranch .s, registerBranch .ns,
    registerBranch .v, registerBranch .nv, takenAfterCompare_z, takenAfterCompare_nz⟩

end Sys2Proof.Machine
end

section
/-! PROOF. The decoder and the encoder undo each other (spec/30_encoding.md R82 to R101). -/

namespace Sys2Proof.Machine

/-! ### The branches as two families -/

/-- Case analysis on an instruction that keeps the thirty branches together as the two families of R210. -/
theorem instr_cases {motive : Instr → Prop}
    (setlo : ∀ d v, motive (.setlo d v)) (sethi : ∀ d v, motive (.sethi d v))
    (and : ∀ d a b, motive (.and d a b)) (or : ∀ d a b, motive (.or d a b))
    (add : ∀ d a b, motive (.add d a b)) (sub : ∀ d a b, motive (.sub d a b))
    (mul : ∀ d a b, motive (.mul d a b)) (xor : ∀ d a b, motive (.xor d a b))
    (inc : ∀ d delta, motive (.inc d delta)) (dec : ∀ d delta, motive (.dec d delta))
    (lsl : ∀ d b, motive (.lsl d b)) (lsr : ∀ d b, motive (.lsr d b))
    (lsl8 : ∀ d b, motive (.lsl8 d b)) (lsr8 : ∀ d b, motive (.lsr8 d b))
    (asl : ∀ d b, motive (.asl d b)) (asr : ∀ d b, motive (.asr d b))
    (savef : ∀ d, motive (.savef d)) (rstrf : ∀ d, motive (.rstrf d))
    (fon : ∀ m, motive (.fon m)) (foff : ∀ m, motive (.foff m))
    (fset5 : ∀ m, motive (.fset5 m)) (fset4 : ∀ m, motive (.fset4 m))
    (load : ∀ d o b, motive (.load d o b)) (store : ∀ d o b, motive (.store d o b))
    (register : ∀ cond b, motive (branchInstr cond b)) (relative : ∀ cond o, motive (branchRelInstr cond o))
    (call : ∀ a b, motive (.call a b)) (ret : ∀ a b, motive (.ret a b))
    (swi : ∀ n, motive (.swi n)) (rti : motive .rti) : ∀ i, motive i
  | .setlo d v => setlo d v
  | .sethi d v => sethi d v
  | .and d a b => and d a b
  | .or d a b => or d a b
  | .add d a b => add d a b
  | .sub d a b => sub d a b
  | .mul d a b => mul d a b
  | .xor d a b => xor d a b
  | .inc d delta => inc d delta
  | .dec d delta => dec d delta
  | .lsl d b => lsl d b
  | .lsr d b => lsr d b
  | .lsl8 d b => lsl8 d b
  | .lsr8 d b => lsr8 d b
  | .asl d b => asl d b
  | .asr d b => asr d b
  | .savef d => savef d
  | .rstrf d => rstrf d
  | .fon m => fon m
  | .foff m => foff m
  | .fset5 m => fset5 m
  | .fset4 m => fset4 m
  | .load d o b => load d o b
  | .store d o b => store d o b
  | .br b => register .always b
  | .bl b => register .l b
  | .bge b => register .ge b
  | .ble b => register .le b
  | .bg b => register .g b
  | .bule b => register .ule b
  | .bug b => register .ug b
  | .bz b => register .z b
  | .bnz b => register .nz b
  | .bc b => register .c b
  | .bnc b => register .nc b
  | .bs b => register .s b
  | .bns b => register .ns b
  | .bv b => register .v b
  | .bnv b => register .nv b
  | .brr o => relative .always o
  | .blr o => relative .l o
  | .bger o => relative .ge o
  | .bler o => relative .le o
  | .bgr o => relative .g o
  | .buler o => relative .ule o
  | .bugr o => relative .ug o
  | .bzr o => relative .z o
  | .bnzr o => relative .nz o
  | .bcr o => relative .c o
  | .bncr o => relative .nc o
  | .bsr o => relative .s o
  | .bnsr o => relative .ns o
  | .bvr o => relative .v o
  | .bnvr o => relative .nv o
  | .call a b => call a b
  | .ret a b => ret a b
  | .swi n => swi n
  | .rti => rti

/-- The word of a register-mode branch (R89). -/
theorem encode_branchInstr (cond : Cond) (b : Reg) : encode (branchInstr cond b) = encodeBreg (condCode cond) b := by
  cases cond <;> rfl

/-- The word of a relative branch (R90). -/
theorem encode_branchRelInstr (cond : Cond) (o : BitVec 8) :
    encode (branchRelInstr cond o) = encodeSet 0b0000 (condCode cond) o := by
  cases cond <;> rfl

/-- The decoder reads the code of a condition as that condition's relative branch (R99). -/
theorem decodeRelative_condCode (cond : Cond) (o : BitVec 8) :
    decodeRelative (condCode cond) o = .instr (branchRelInstr cond o) := by
  cases cond <;> rfl

/-! ### Decoding an encoded instruction -/

/-- The format's bits of a MEM word are the upper three of its major opcode (R88, R95). -/
theorem fieldOp_high (w : Word) : (fieldOp w).extractLsb' 1 3 = w.extractLsb' 13 3 := by
  ext i hi
  simp only [fieldOp, BitVec.getElem_extractLsb', BitVec.getLsbD_extractLsb']
  interval_cases i <;> simp

/-- A four-bit field whose upper three bits are known is one of two. -/
theorem eq_or_eq_of_high (n : BitVec 4) (p : BitVec 3) (h : n.extractLsb' 1 3 = p) :
    n = p.setWidth 4 <<< 1 ∨ n = p.setWidth 4 <<< 1 ||| 1 := by
  revert n p; decide

/-- Bits 15:13 = 010 are LOAD, bit 12 belonging to the offset (R88). -/
theorem decode_load (w : Word) (h : w.extractLsb' 13 3 = 0b010) :
    decode w = .instr (.load (Reg.ofBits (fieldD w)) (fieldOffset w) (Reg.ofBits (fieldB w))) := by
  rcases eq_or_eq_of_high (fieldOp w) 0b010 (by rw [fieldOp_high, h]) with hop | hop
  · exact decode_0100 w hop
  · exact decode_0101 w hop

/-- Bits 15:13 = 011 are STORE, bit 12 belonging to the offset (R88). -/
theorem decode_store (w : Word) (h : w.extractLsb' 13 3 = 0b011) :
    decode w = .instr (.store (Reg.ofBits (fieldD w)) (fieldOffset w) (Reg.ofBits (fieldB w))) := by
  rcases eq_or_eq_of_high (fieldOp w) 0b011 (by rw [fieldOp_high, h]) with hop | hop
  · exact decode_0110 w hop
  · exact decode_0111 w hop

/-- The bounds of δ (R94). -/
theorem wfDelta_iff (delta : Nat) : wfDelta delta = true ↔ 1 ≤ delta ∧ delta ≤ 64 := by
  simp [wfDelta]

/-- The bound of an offset (R88). -/
theorem wfOffset_iff (o : Nat) : wfOffset o = true ↔ o ≤ 31 := decide_eq_true_iff

/-- The bound of an interrupt number (R92). -/
theorem wfSwi_iff (n : Nat) : wfSwi n = true ↔ n ≤ 15 := decide_eq_true_iff

/-- Every well-formed instruction comes back from its word, format by format. -/
theorem decode_encode (i : Instr) (h : i.wf = true) : decode (encode i) = .instr i := by
  cases i using instr_cases with
  | setlo d v => simp [encode, decode_1110]
  | sethi d v => simp [encode, decode_1111]
  | and d a b => simp [encode, decode_1000]
  | or d a b => simp [encode, decode_1001]
  | add d a b => simp [encode, decode_1010]
  | sub d a b => simp [encode, decode_1011]
  | mul d a b => simp [encode, decode_1100]
  | xor d a b => simp [encode, decode_1101]
  | inc d delta =>
    obtain ⟨hlo, hhi⟩ := (wfDelta_iff delta).mp h
    simp [encode, decode_0011, decode0011_inc, fieldDelta_encodeIncDec _ _ _ hlo hhi]
  | dec d delta =>
    obtain ⟨hlo, hhi⟩ := (wfDelta_iff delta).mp h
    simp [encode, decode_0011, decode0011_dec, fieldDelta_encodeIncDec _ _ _ hlo hhi]
  | lsl d b => simp [encode, decode_0011, decode0011_0000]
  | lsr d b => simp [encode, decode_0011, decode0011_0001]
  | lsl8 d b => simp [encode, decode_0011, decode0011_0010]
  | lsr8 d b => simp [encode, decode_0011, decode0011_0011]
  | asl d b => simp [encode, decode_0011, decode0011_0100]
  | asr d b => simp [encode, decode_0011, decode0011_0101]
  | savef d => simp [encode, decode_0011, decode0011_0111, decodeSaveRestore]
  | rstrf d => simp [encode, decode_0011, decode0011_0111, decodeSaveRestore]
  | fon m | foff m | fset5 m | fset4 m =>
    rw [encode, decode_flagOp _ (by simp) (by simp), fieldMask_encodeFlagOp,
      show (encodeFlagOp _ m).extractLsb' 9 3 = _ from fieldFlagOp_encodeFlagOp _ m]
    rfl
  | load d o b =>
    simp [encode, decode_load, fieldOffset_encodeMem _ _ _ _ ((wfOffset_iff o).mp h)]
  | store d o b =>
    simp [encode, decode_store, fieldOffset_encodeMem _ _ _ _ ((wfOffset_iff o).mp h)]
  | register cond b =>
    rw [encode_branchInstr, decode_eq_branchInstr_iff]
    simp [encodeBreg]
  | relative cond o =>
    rw [encode_branchRelInstr, decode_0000 _ (by simp), fieldD_encodeSet, fieldV_encodeSet, decodeRelative_condCode]
  | call a b => simp [encode, decode_0010, decode0010]
  | ret a b => simp [encode, decode_0010, decode0010]
  | swi n =>
    have hn : n < 16 := Nat.lt_succ_of_le ((wfSwi_iff n).mp h)
    simp [encode, decode_0010, decode0010, Nat.mod_eq_of_lt hn]
  | rti => simp [encode, decode_0010, decode0010]

/-- Settles O2: format by format, each field is read back from the word it was written to. -/
theorem encodeThenDecode : Obligations.EncodeThenDecode := by
  unfold Obligations.EncodeThenDecode
  exact decode_encode

/-- Settles O7: the step decodes the word it fetches, and by `decode_encode` that word is the instruction. -/
theorem storedInstructionIsExecuted : Obligations.StoredInstructionIsExecuted := by
  unfold Obligations.StoredInstructionIsExecuted
  refine ⟨fun s i hwf hcell => ?cell, fun s i hwf => ?placed⟩
  case cell =>
    have hfetch : s.fetch = encode i := hcell
    exact step_instr s i (by rw [hfetch, decode_encode i hwf])
  case placed =>
    have hfetch : (s.withFetchWord 16 (encode i).toNat).fetch = encode i := by
      rw [State.fetch_withFetchWord, Nat.mod_eq_of_lt (encode i).isLt, BitVec.ofNat_toNat, BitVec.setWidth_eq]
    exact step_instr _ i (by rw [hfetch, decode_encode i hwf])

/-! ### Encoding a decoded word -/

/-- What a word `w` decodes to loses nothing of it: an instruction is well-formed and encodes to `w`. -/
def KeepsWord (w : Word) : Decoded → Prop
  | .instr i => i.wf = true ∧ encode i = w
  | .unspecified _ => True

/-- A word whose major opcode is known is that opcode and the three other fields. -/
theorem ofFields_of_op {w : Word} {op : BitVec 4} (hop : fieldOp w = op) :
    ofFields op (fieldD w) (fieldA w) (fieldB w) = w := by
  rw [← hop, ofFields_fields]

/-- A word whose major opcode is known is that opcode, the field d and the byte. -/
theorem encodeSet_of_op {w : Word} {op : BitVec 4} (hop : fieldOp w = op) :
    encodeSet op (fieldD w) (fieldV w) = w := by
  rw [← hop, encodeSet_fields]

/-- An INCDEC word is its fields (R84). -/
theorem encodeIncDec_fields (w : Word) (hop : fieldOp w = 0b0011) :
    encodeIncDec (fieldIncDec w) (Reg.ofBits (fieldD w)) (fieldDelta w) = w := by
  have heps : BitVec.ofNat 6 (fieldDelta w - 1) = fieldEps w := by simp [fieldDelta]
  rw [encodeIncDec, Reg.toBits_ofBits, heps]
  conv_rhs => rw [← ofFields_of_op hop]
  ext i hi
  simp only [ofFields, fieldD, fieldA, fieldB, fieldEps, fieldIncDec, BitVec.getElem_or, BitVec.getElem_shiftLeft,
    BitVec.getElem_setWidth, BitVec.getLsbD_extractLsb']
  interval_cases i <;> simp

/-- A FLAGOP word is its fields (R87). -/
theorem encodeFlagOp_fields (w : Word) (hop : fieldOp w = 0b0011) (ha : fieldA w = 0b0110) :
    encodeFlagOp (w.extractLsb' 9 3) (fieldMask w) = w := by
  conv_rhs => rw [← ofFields_of_op hop, ha]
  ext i hi
  simp only [encodeFlagOp, ofFields, fieldD, fieldB, fieldMask, BitVec.getElem_or, BitVec.getElem_shiftLeft,
    BitVec.getElem_setWidth, BitVec.getLsbD_extractLsb', BitVec.getLsbD_or, BitVec.getLsbD_shiftLeft,
    BitVec.getLsbD_setWidth]
  interval_cases i <;> simp

/-- The offset of a word fits its field. -/
theorem fieldOffset_le (w : Word) : fieldOffset w ≤ 31 := by
  have h4 := (w.extractLsb' 12 1).isLt
  have h0 := (w.extractLsb' 4 4).isLt
  unfold fieldOffset
  omega

/-- The two parts of the offset, read back from the number (R88). -/
theorem ofNat_fieldOffset (w : Word) :
    (BitVec.ofNat 5 (fieldOffset w)).extractLsb' 4 1 = w.extractLsb' 12 1 ∧
      (BitVec.ofNat 5 (fieldOffset w)).extractLsb' 0 4 = w.extractLsb' 4 4 := by
  have h4 := (w.extractLsb' 12 1).isLt
  have h0 := (w.extractLsb' 4 4).isLt
  simp only [← BitVec.toNat_inj, BitVec.extractLsb'_toNat, BitVec.toNat_ofNat, Nat.shiftRight_eq_div_pow,
    fieldOffset] at h4 h0 ⊢
  omega

/-- A MEM word is its fields (R88). -/
theorem encodeMem_fields (w : Word) :
    encodeMem (w.extractLsb' 13 3) (Reg.ofBits (fieldD w)) (fieldOffset w) (Reg.ofBits (fieldB w)) = w := by
  obtain ⟨hhigh, hlow⟩ := ofNat_fieldOffset w
  rw [encodeMem, Reg.toBits_ofBits, Reg.toBits_ofBits, hhigh, hlow]
  ext i hi
  simp only [fieldD, fieldB, BitVec.getElem_or, BitVec.getElem_shiftLeft, BitVec.getElem_setWidth,
    BitVec.getLsbD_extractLsb']
  interval_cases i <;> simp

/-- LOAD and STORE lose nothing of their word, when the format's bits are those of the major opcode. -/
theorem encodeMem_of_high {w : Word} {p : BitVec 3} (h : (fieldOp w).extractLsb' 1 3 = p) :
    wfOffset (fieldOffset w) = true ∧
      encodeMem p (Reg.ofBits (fieldD w)) (fieldOffset w) (Reg.ofBits (fieldB w)) = w := by
  rw [← h, fieldOp_high]
  exact ⟨(wfOffset_iff _).mpr (fieldOffset_le w), encodeMem_fields w⟩

end Sys2Proof.Machine
end

section
/-! PROOF. Every word that decodes to an instruction is its encoding, and which words decode to none
(spec/30_encoding.md R96 to R100). -/

namespace Sys2Proof.Machine

/-! ### Nothing of a decoded word is lost -/

/-- The INC and DEC words: the upper half of the field a is the bits 7:6 (R84). -/
theorem encodeIncDec_of_high {w : Word} {p : BitVec 2} (hop : fieldOp w = 0b0011)
    (h : (fieldA w).extractLsb' 2 2 = p) :
    wfDelta (fieldDelta w) = true ∧ encodeIncDec p (Reg.ofBits (fieldD w)) (fieldDelta w) = w := by
  have heps := (fieldEps w).isLt
  have hdelta : fieldDelta w = (fieldEps w).toNat + 1 := rfl
  rw [← h, fieldA_high]
  exact ⟨(wfDelta_iff _).mpr (by omega), encodeIncDec_fields w hop⟩

/-- Major opcode 0000 (R90). -/
theorem decodeRelative_keepsWord (w : Word) (hop : fieldOp w = 0b0000) :
    KeepsWord w (decodeRelative (fieldD w) (fieldV w)) := by
  by_cases hunused : fieldD w = 0b0001
  · rw [hunused]; trivial
  · obtain ⟨cond, hcode⟩ := exists_condCode (fieldD w) hunused
    rw [← hcode, decodeRelative_condCode]
    refine ⟨by cases cond <;> rfl, ?_⟩
    rw [encode_branchRelInstr, hcode, encodeSet_of_op hop]

/-- Major opcode 0001 with bits 7:4 = 0000 (R89). -/
theorem decodeRegister_keepsWord (w : Word) (hop : fieldOp w = 0b0001) (ha : fieldA w = 0b0000) :
    KeepsWord w (decodeRegister (fieldD w) (Reg.ofBits (fieldB w))) := by
  by_cases hunused : fieldD w = 0b0001
  · rw [hunused]; trivial
  · obtain ⟨cond, hcode⟩ := exists_condCode (fieldD w) hunused
    rw [← hcode, decodeRegister_condCode]
    refine ⟨by cases cond <;> rfl, ?_⟩
    rw [encode_branchInstr, hcode, encodeBreg, Reg.toBits_ofBits, ← ha, ofFields_of_op hop]

/-- Major opcode 0010 (R91 to R93). -/
theorem decode0010_keepsWord (w : Word) (hop : fieldOp w = 0b0010) :
    KeepsWord w (decode0010 (fieldD w) (fieldA w) (fieldB w)) := by
  have hw := ofFields_of_op hop
  have hswi : wfSwi (fieldB w).toNat = true := (wfSwi_iff _).mpr (Nat.le_of_lt_succ (fieldB w).isLt)
  unfold decode0010
  split_ifs with hcall hret hswi' hrti
  · exact ⟨rfl, by simpa [encode, hcall] using hw⟩
  · exact ⟨rfl, by simpa [encode, hret] using hw⟩
  · exact ⟨hswi, by simpa [encode, hswi'] using hw⟩
  · exact ⟨rfl, by simpa [encode, hrti] using hw⟩
  · trivial

/-- The flag operations (R87). -/
theorem decodeFlagOp_keepsWord (w : Word) (hop : fieldOp w = 0b0011) (ha : fieldA w = 0b0110) :
    KeepsWord w (decodeFlagOp (w.extractLsb' 9 3) (fieldMask w)) := by
  have hw := encodeFlagOp_fields w hop ha
  unfold decodeFlagOp
  split
  case h_1 hfop | h_2 hfop | h_3 hfop | h_4 hfop => exact ⟨rfl, by rw [hfop] at hw; exact hw⟩
  case h_5 | h_6 | h_7 | h_8 => trivial

/-- SAVEF and RSTRF (R86). -/
theorem decodeSaveRestore_keepsWord (w : Word) (hop : fieldOp w = 0b0011) (ha : fieldA w = 0b0111) :
    KeepsWord w (decodeSaveRestore (Reg.ofBits (fieldD w)) (fieldB w)) := by
  have hw := ofFields_of_op hop
  unfold decodeSaveRestore
  split_ifs with hsave hrestore
  · exact ⟨rfl, by simpa [encode, ha, hsave] using hw⟩
  · exact ⟨rfl, by simpa [encode, ha, hrestore] using hw⟩
  · trivial

/-- Within major opcode 0011, the field a is INC's, DEC's or one of the eight below (R84, R97). -/
theorem fieldA_cases (n : BitVec 4) : n.extractLsb' 2 2 = 0b10 ∨ n.extractLsb' 2 2 = 0b11 ∨ n = 0b0000 ∨ n = 0b0001 ∨
    n = 0b0010 ∨ n = 0b0011 ∨ n = 0b0100 ∨ n = 0b0101 ∨ n = 0b0110 ∨ n = 0b0111 := by
  revert n; decide

/-- A shift's word (R85). -/
theorem shift_keepsWord {w : Word} {sub : BitVec 4} {i : Instr} (hop : fieldOp w = 0b0011) (ha : fieldA w = sub)
    (hwf : i.wf = true)
    (hi : encode i = ofFields 0b0011 (Reg.ofBits (fieldD w)).toBits sub (Reg.ofBits (fieldB w)).toBits) :
    KeepsWord w (.instr i) :=
  ⟨hwf, by rw [hi, Reg.toBits_ofBits, Reg.toBits_ofBits, ← ha, ofFields_of_op hop]⟩

/-- Major opcode 0011 (R97). -/
theorem decode0011_keepsWord (w : Word) (hop : fieldOp w = 0b0011) : KeepsWord w (decode0011 w) := by
  rcases fieldA_cases (fieldA w) with ha | ha | ha | ha | ha | ha | ha | ha | ha | ha
  · rw [decode0011_inc w (by rw [← fieldA_high, ha])]
    exact encodeIncDec_of_high hop ha
  · rw [decode0011_dec w (by rw [← fieldA_high, ha])]
    exact encodeIncDec_of_high hop ha
  · rw [decode0011_0000 w ha]; exact shift_keepsWord hop ha rfl rfl
  · rw [decode0011_0001 w ha]; exact shift_keepsWord hop ha rfl rfl
  · rw [decode0011_0010 w ha]; exact shift_keepsWord hop ha rfl rfl
  · rw [decode0011_0011 w ha]; exact shift_keepsWord hop ha rfl rfl
  · rw [decode0011_0100 w ha]; exact shift_keepsWord hop ha rfl rfl
  · rw [decode0011_0101 w ha]; exact shift_keepsWord hop ha rfl rfl
  · rw [decode0011_0110 w ha]; exact decodeFlagOp_keepsWord w hop ha
  · rw [decode0011_0111 w ha]; exact decodeSaveRestore_keepsWord w hop ha

/-- The major opcodes, those of LOAD and of STORE in pairs (R95). -/
theorem fieldOp_cases (n : BitVec 4) : n = 0b0000 ∨ n = 0b0001 ∨ n = 0b0010 ∨ n = 0b0011 ∨
    n.extractLsb' 1 3 = 0b010 ∨ n.extractLsb' 1 3 = 0b011 ∨ n = 0b1000 ∨ n = 0b1001 ∨ n = 0b1010 ∨ n = 0b1011 ∨
    n = 0b1100 ∨ n = 0b1101 ∨ n = 0b1110 ∨ n = 0b1111 := by
  revert n; decide

/-- A three-address word (R83). -/
theorem threeAddress_keepsWord {w : Word} {op : BitVec 4} {i : Instr} (hop : fieldOp w = op) (hwf : i.wf = true)
    (hi : encode i = ofFields op (Reg.ofBits (fieldD w)).toBits (Reg.ofBits (fieldA w)).toBits
      (Reg.ofBits (fieldB w)).toBits) : KeepsWord w (.instr i) :=
  ⟨hwf, by simpa only [Reg.toBits_ofBits, ofFields_of_op hop] using hi⟩

/-- A SETLO or SETHI word (R82). -/
theorem set_keepsWord {w : Word} {op : BitVec 4} {i : Instr} (hop : fieldOp w = op) (hwf : i.wf = true)
    (hi : encode i = encodeSet op (Reg.ofBits (fieldD w)).toBits (fieldV w)) : KeepsWord w (.instr i) :=
  ⟨hwf, by simpa only [Reg.toBits_ofBits, encodeSet_of_op hop] using hi⟩

/-- Every word decodes to something that keeps it, by the major opcode. -/
theorem decode_keepsWord (w : Word) : KeepsWord w (decode w) := by
  rcases fieldOp_cases (fieldOp w) with
    hop | hop | hop | hop | hop | hop | hop | hop | hop | hop | hop | hop | hop | hop
  · rw [decode_0000 w hop]; exact decodeRelative_keepsWord w hop
  · rw [decode_0001 w hop]
    split_ifs with hunused ha
    · trivial
    · exact decodeRegister_keepsWord w hop ha
    · trivial
  · rw [decode_0010 w hop]; exact decode0010_keepsWord w hop
  · rw [decode_0011 w hop]; exact decode0011_keepsWord w hop
  · rw [decode_load w (by rw [← fieldOp_high, hop])]; exact encodeMem_of_high hop
  · rw [decode_store w (by rw [← fieldOp_high, hop])]; exact encodeMem_of_high hop
  · rw [decode_1000 w hop]; exact threeAddress_keepsWord hop rfl rfl
  · rw [decode_1001 w hop]; exact threeAddress_keepsWord hop rfl rfl
  · rw [decode_1010 w hop]; exact threeAddress_keepsWord hop rfl rfl
  · rw [decode_1011 w hop]; exact threeAddress_keepsWord hop rfl rfl
  · rw [decode_1100 w hop]; exact threeAddress_keepsWord hop rfl rfl
  · rw [decode_1101 w hop]; exact threeAddress_keepsWord hop rfl rfl
  · rw [decode_1110 w hop]; exact set_keepsWord hop rfl rfl
  · rw [decode_1111 w hop]; exact set_keepsWord hop rfl rfl

/-- Settles O3: by `decode_keepsWord`, which follows the decoder's cases. -/
theorem decodeThenEncode : Obligations.DecodeThenEncode := by
  unfold Obligations.DecodeThenEncode
  intro w i hdecode
  have hkeeps := decode_keepsWord w
  rwa [hdecode] at hkeeps

/-! ### The words without a meaning -/

/-- The words of a class, by the table of R100. -/
def ClassCovers (w : Word) : WordClass → Prop
  | .unusedCondition => (fieldOp w = 0b0000 ∨ fieldOp w = 0b0001) ∧ fieldD w = 0b0001
  | .bregBits7to4 => fieldOp w = 0b0001 ∧ fieldD w ≠ 0b0001 ∧ fieldA w ≠ 0b0000
  | .opcode0010 => fieldOp w = 0b0010 ∧ fieldD w ≠ 0b0000 ∧ fieldD w ≠ 0b0001 ∧
      (fieldD w = 0b0010 → fieldA w ≠ 0b0000) ∧ w ≠ 0x2300
  | .flagop => fieldOp w = 0b0011 ∧ fieldA w = 0b0110 ∧ w.getLsbD 9 = true
  | .saverstrLowBits => fieldOp w = 0b0011 ∧ fieldA w = 0b0111 ∧ w.extractLsb' 0 3 ≠ 0

/-- The one RTI word by its fields (R93). -/
theorem eq_rti_word_iff (w : Word) (hop : fieldOp w = 0b0010) :
    w = 0x2300 ↔ fieldD w = 0b0011 ∧ fieldA w = 0b0000 ∧ fieldB w = 0b0000 := by
  constructor
  · rintro rfl; decide
  · rintro ⟨hd, ha, hb⟩
    rw [← ofFields_of_op hop, hd, ha, hb]; decide

/-- Bit 9 is the lowest of the bits that select a flag operation. -/
theorem getLsbD_nine (w : Word) : w.getLsbD 9 = (w.extractLsb' 9 3).getLsbD 0 := by
  rw [BitVec.getLsbD_extractLsb']; simp

/-- Bits 2:0 are those of the field b. -/
theorem extract_zero_three (w : Word) : w.extractLsb' 0 3 = (fieldB w).extractLsb' 0 3 := by
  ext i hi
  simp only [fieldB, BitVec.getElem_extractLsb', BitVec.getLsbD_extractLsb']
  interval_cases i <;> simp

/-- Major opcode 0000 leaves one condition without a meaning. -/
theorem decodeRelative_eq_unspecified_iff (n : BitVec 4) (o : BitVec 8) (c : WordClass) :
    decodeRelative n o = .unspecified c ↔ n = 0b0001 ∧ c = .unusedCondition := by
  by_cases hunused : n = 0b0001
  · subst hunused
    simp [decodeRelative, eq_comm]
  · obtain ⟨cond, rfl⟩ := exists_condCode n hunused
    rw [decodeRelative_condCode]
    exact iff_of_false Decoded.noConfusion fun h => hunused h.1

/-- The register-mode branches leave one condition without a meaning. -/
theorem decodeRegister_eq_unspecified_iff (n : BitVec 4) (b : Reg) (c : WordClass) :
    decodeRegister n b = .unspecified c ↔ n = 0b0001 ∧ c = .unusedCondition := by
  by_cases hunused : n = 0b0001
  · subst hunused
    simp [decodeRegister, eq_comm]
  · obtain ⟨cond, rfl⟩ := exists_condCode n hunused
    rw [decodeRegister_condCode]
    exact iff_of_false Decoded.noConfusion fun h => hunused h.1

/-- Major opcode 0010 leaves what is no CALL, RETURN, SWI or RTI. -/
theorem decode0010_eq_unspecified_iff (n2 n1 n0 : BitVec 4) (c : WordClass) :
    decode0010 n2 n1 n0 = .unspecified c ↔ (n2 ≠ 0b0000 ∧ n2 ≠ 0b0001 ∧ (n2 = 0b0010 → n1 ≠ 0b0000) ∧
      ¬ (n2 = 0b0011 ∧ n1 = 0b0000 ∧ n0 = 0b0000)) ∧ c = .opcode0010 := by
  unfold decode0010
  split_ifs with hcall hret hswi hrti
  · exact iff_of_false not_false fun h => h.1.1 hcall
  · exact iff_of_false not_false fun h => h.1.2.1 hret
  · exact iff_of_false not_false fun h => h.1.2.2.1 hswi.1 hswi.2
  · exact iff_of_false not_false fun h => h.1.2.2.2 hrti
  · rw [Decoded.unspecified.injEq, @eq_comm _ WordClass.opcode0010]
    exact ⟨fun h => ⟨⟨hcall, hret, not_and.mp hswi, hrti⟩, h⟩, And.right⟩

/-- The flag operations leave the odd selections. -/
theorem decodeFlagOp_eq_unspecified_iff (op : BitVec 3) (m : BitVec 5) (c : WordClass) :
    decodeFlagOp op m = .unspecified c ↔ op.getLsbD 0 = true ∧ c = .flagop := by
  unfold decodeFlagOp
  split <;> simp [eq_comm]

/-- SAVEF and RSTRF leave the words whose bits 2:0 are not 000. -/
theorem decodeSaveRestore_eq_unspecified_iff (d : Reg) (n : BitVec 4) (c : WordClass) :
    decodeSaveRestore d n = .unspecified c ↔ n.extractLsb' 0 3 ≠ 0 ∧ c = .saverstrLowBits := by
  have hlow : n.extractLsb' 0 3 = 0 ↔ n = 0b0000 ∨ n = 0b1000 := by revert n; decide
  rw [ne_eq, hlow]
  unfold decodeSaveRestore
  split_ifs with hsave hrestore
  · exact iff_of_false not_false fun h => h.1 (.inl hsave)
  · exact iff_of_false not_false fun h => h.1 (.inr hrestore)
  · rw [Decoded.unspecified.injEq, @eq_comm _ WordClass.saverstrLowBits]
    exact ⟨fun h => ⟨not_or.mpr ⟨hsave, hrestore⟩, h⟩, And.right⟩

/-- The words of a class have a major opcode below 0100. -/
theorem ClassCovers.op_low {w : Word} {c : WordClass} (h : ClassCovers w c) : (fieldOp w).extractLsb' 2 2 = 0 := by
  cases c
  case unusedCondition => obtain ⟨hop | hop, -⟩ := h <;> rw [hop] <;> rfl
  all_goals
    obtain ⟨hop, -⟩ := h
    rw [hop]; rfl

/-- The words of a class in major opcode 0011 have the field a of the flag operations or of SAVEF and RSTRF. -/
theorem ClassCovers.a_flags {w : Word} {c : WordClass} (h : ClassCovers w c) (hop : fieldOp w = 0b0011) :
    fieldA w = 0b0110 ∨ fieldA w = 0b0111 := by
  cases c <;> simp_all [ClassCovers]

/-- Major opcode 0011 leaves words of its two classes of flag instructions. -/
theorem decode0011_eq_unspecified_iff (w : Word) (c : WordClass) (hop : fieldOp w = 0b0011) :
    decode0011 w = .unspecified c ↔ ClassCovers w c := by
  have hinstr {i : Instr} (hi : decode0011 w = .instr i) (ha : ¬ (fieldA w = 0b0110 ∨ fieldA w = 0b0111)) :
      decode0011 w = .unspecified c ↔ ClassCovers w c := by
    rw [hi]
    exact iff_of_false Decoded.noConfusion fun h => ha (h.a_flags hop)
  rcases fieldA_cases (fieldA w) with ha | ha | ha | ha | ha | ha | ha | ha | ha | ha
  · refine hinstr (decode0011_inc w (by rw [← fieldA_high, ha])) ?_
    rintro (h | h) <;> rw [h] at ha <;> exact absurd ha (by decide)
  · refine hinstr (decode0011_dec w (by rw [← fieldA_high, ha])) ?_
    rintro (h | h) <;> rw [h] at ha <;> exact absurd ha (by decide)
  · exact hinstr (decode0011_0000 w ha) (by rw [ha]; decide)
  · exact hinstr (decode0011_0001 w ha) (by rw [ha]; decide)
  · exact hinstr (decode0011_0010 w ha) (by rw [ha]; decide)
  · exact hinstr (decode0011_0011 w ha) (by rw [ha]; decide)
  · exact hinstr (decode0011_0100 w ha) (by rw [ha]; decide)
  · exact hinstr (decode0011_0101 w ha) (by rw [ha]; decide)
  · rw [decode0011_0110 w ha, decodeFlagOp_eq_unspecified_iff, ← getLsbD_nine]
    cases c <;> simp [ClassCovers, hop, ha]
  · rw [decode0011_0111 w ha, decodeSaveRestore_eq_unspecified_iff, ← extract_zero_three]
    cases c <;> simp [ClassCovers, hop, ha]

/-- The class of every word without a meaning, as R100 tabulates it. -/
theorem decode_eq_unspecified_iff (w : Word) (c : WordClass) : decode w = .unspecified c ↔ ClassCovers w c := by
  have hinstr {i : Instr} (hi : decode w = .instr i) (hhigh : (fieldOp w).extractLsb' 2 2 ≠ 0) :
      decode w = .unspecified c ↔ ClassCovers w c := by
    rw [hi]
    exact iff_of_false Decoded.noConfusion fun h => hhigh h.op_low
  rcases fieldOp_cases (fieldOp w) with
    hop | hop | hop | hop | hop | hop | hop | hop | hop | hop | hop | hop | hop | hop
  · rw [decode_0000 w hop, decodeRelative_eq_unspecified_iff]
    cases c <;> simp [ClassCovers, hop]
  · rw [decode_0001 w hop]
    split_ifs with hunused ha
    · cases c <;> simp [ClassCovers, hop, hunused]
    · rw [decodeRegister_eq_unspecified_iff]
      cases c <;> simp [ClassCovers, hop, ha]
    · have hne : fieldD w ≠ 1#4 ∧ fieldA w ≠ 0#4 := ⟨hunused, ha⟩
      cases c <;> simp [ClassCovers, hop, hne]
  · rw [decode_0010 w hop, decode0010_eq_unspecified_iff, ← eq_rti_word_iff w hop]
    cases c <;> simp [ClassCovers, hop]
  · rw [decode_0011 w hop, decode0011_eq_unspecified_iff w c hop]
  · refine hinstr (decode_load w (by rw [← fieldOp_high, hop])) ?_
    revert hop; generalize fieldOp w = n; revert n; decide
  · refine hinstr (decode_store w (by rw [← fieldOp_high, hop])) ?_
    revert hop; generalize fieldOp w = n; revert n; decide
  · exact hinstr (decode_1000 w hop) (by rw [hop]; decide)
  · exact hinstr (decode_1001 w hop) (by rw [hop]; decide)
  · exact hinstr (decode_1010 w hop) (by rw [hop]; decide)
  · exact hinstr (decode_1011 w hop) (by rw [hop]; decide)
  · exact hinstr (decode_1100 w hop) (by rw [hop]; decide)
  · exact hinstr (decode_1101 w hop) (by rw [hop]; decide)
  · exact hinstr (decode_1110 w hop) (by rw [hop]; decide)
  · exact hinstr (decode_1111 w hop) (by rw [hop]; decide)

/-- Settles O5: the table of R100 is `ClassCovers`, class by class. -/
theorem unspecifiedWordsByClass : Obligations.UnspecifiedWordsByClass := by
  unfold Obligations.UnspecifiedWordsByClass
  have hclass := decode_eq_unspecified_iff
  exact ⟨fun w => ⟨hclass w .unusedCondition, hclass w .bregBits7to4, hclass w .opcode0010, hclass w .flagop,
    hclass w .saverstrLowBits⟩, step_unspecified⟩

/-! ### The decision procedure, leaf by leaf -/

/-- The mask of a FLAGOP word is F as a number with these bits of the word (R87). -/
theorem fieldMask_eq_toBits (w : Word) : fieldMask w =
    Flags.toBits ⟨w.getLsbD 0, w.getLsbD 1, w.getLsbD 2, w.getLsbD 3, w.getLsbD 8⟩ := by
  rw [← Flags.toBits_ofBits (fieldMask w)]
  simp [Flags.ofBits, fieldMask]

/-- Bits 7:6 from the two bits. -/
theorem fieldIncDec_eq (w : Word) : fieldIncDec w = BitVec.ofBool (w.getLsbD 7) ++ BitVec.ofBool (w.getLsbD 6) := by
  refine BitVec.eq_of_getLsbD_eq fun i hi => ?_
  simp only [fieldIncDec, BitVec.getLsbD_extractLsb', BitVec.getLsbD_append]
  interval_cases i <;> simp

/-- The field a is bit 7 above bits 6:4. -/
theorem fieldA_eq (w : Word) : fieldA w = BitVec.ofBool (w.getLsbD 7) ++ w.extractLsb' 4 3 := by
  refine BitVec.eq_of_getLsbD_eq fun i hi => ?_
  simp only [fieldA, BitVec.getLsbD_extractLsb', BitVec.getLsbD_append]
  interval_cases i <;> simp

/-- The field b is bit 3 above bits 2:0. -/
theorem fieldB_eq (w : Word) : fieldB w = BitVec.ofBool (w.getLsbD 3) ++ w.extractLsb' 0 3 := by
  refine BitVec.eq_of_getLsbD_eq fun i hi => ?_
  simp only [fieldB, BitVec.getLsbD_extractLsb', BitVec.getLsbD_append]
  interval_cases i <;> simp

/-- Bits 11:4 are the fields d and a. -/
theorem extract_four_eight (w : Word) : w.extractLsb' 4 8 = fieldD w ++ fieldA w := by
  refine BitVec.eq_of_getLsbD_eq fun i hi => ?_
  simp only [fieldD, fieldA, BitVec.getLsbD_extractLsb', BitVec.getLsbD_append]
  interval_cases i <;> simp

/-- Bits 11:0 are the fields d, a and b. -/
theorem extract_zero_twelve (w : Word) : w.extractLsb' 0 12 = fieldD w ++ fieldA w ++ fieldB w := by
  refine BitVec.eq_of_getLsbD_eq fun i hi => ?_
  simp only [fieldD, fieldA, fieldB, BitVec.getLsbD_extractLsb', BitVec.getLsbD_append]
  interval_cases i <;> simp

/-- Bits 11:9 are the upper three of the field d. -/
theorem fieldD_high (w : Word) : (fieldD w).extractLsb' 1 3 = w.extractLsb' 9 3 := by
  ext i hi
  simp only [fieldD, BitVec.getElem_extractLsb', BitVec.getLsbD_extractLsb']
  interval_cases i <;> simp

/-- An SWI word by its fields (R92). -/
theorem extract_eq_swi_iff (w : Word) : w.extractLsb' 4 8 = 0b00100000 ↔ fieldD w = 0b0010 ∧ fieldA w = 0b0000 := by
  rw [extract_four_eight]
  generalize fieldD w = d, fieldA w = a
  revert d a; decide

/-- The RTI word by its fields (R93). -/
theorem extract_eq_rti_iff (w : Word) :
    w.extractLsb' 0 12 = 0b001100000000 ↔ fieldD w = 0b0011 ∧ fieldA w = 0b0000 ∧ fieldB w = 0b0000 := by
  rw [extract_zero_twelve]
  generalize fieldD w = d, fieldA w = a, fieldB w = b
  revert d a b; decide

/-- Settles O4: each leaf is the decoder's rule for the bits that select it, put as fields. -/
theorem decodeFollowsProcedure : Obligations.DecodeFollowsProcedure := by
  unfold Obligations.DecodeFollowsProcedure
  intro w
  refine ⟨decode_1110 w, decode_1111 w, decode_1000 w, decode_1001 w, decode_1010 w, decode_1011 w, decode_1100 w,
    decode_1101 w, fun hop => hop.elim (decode_0100 w) (decode_0101 w),
    fun hop => hop.elim (decode_0110 w) (decode_0111 w), fun hop => ?op0011, fun hop => ?op0010⟩
  case op0011 =>
    rw [decode_0011 w hop]
    refine ⟨fun h7 h6 => decode0011_inc w ?inc, fun h7 h6 => decode0011_dec w ?dec, fun h7 => ?low⟩
    case inc | dec => rw [fieldIncDec_eq, h7, h6]; rfl
    have ha {sub : BitVec 3} (h : w.extractLsb' 4 3 = sub) : fieldA w = BitVec.ofBool false ++ sub := by
      rw [fieldA_eq, h7, h]
    refine ⟨fun h => decode0011_0000 w (ha h), fun h => decode0011_0001 w (ha h), fun h => decode0011_0010 w (ha h),
      fun h => decode0011_0011 w (ha h), fun h => decode0011_0100 w (ha h), fun h => decode0011_0101 w (ha h),
      fun h => ?flagop, fun h => ?saveRestore⟩
    case flagop =>
      rw [decode0011_0110 w (ha h), fieldMask_eq_toBits]
      refine ⟨fun hfop => by rw [hfop]; rfl, fun hfop => by rw [hfop]; rfl, fun hfop => by rw [hfop]; rfl,
        fun hfop => by rw [hfop]; rfl, fun h9 => ?_⟩
      rw [decodeFlagOp_eq_unspecified_iff, ← getLsbD_nine]
      exact ⟨h9, rfl⟩
    case saveRestore =>
      rw [decode0011_0111 w (ha h)]
      refine ⟨fun hlow => ?_, fun hlow h3 => ?_, fun hlow h3 => ?_⟩
      · rw [decodeSaveRestore_eq_unspecified_iff, ← extract_zero_three]
        exact ⟨hlow, rfl⟩
      · rw [fieldB_eq, h3, hlow]; rfl
      · rw [fieldB_eq, h3, hlow]; rfl
  case op0010 =>
    rw [decode_0010 w hop]
    refine ⟨fun hd => ?call, fun hd => ?ret, fun hswi => ?swi, fun hrti => ?rti, fun hd hswi hrti => ?none⟩
    case call => rw [show fieldD w = 0b0000 from hd]; rfl
    case ret => rw [show fieldD w = 0b0001 from hd]; rfl
    case swi =>
      obtain ⟨hd, ha⟩ := (extract_eq_swi_iff w).mp hswi
      rw [hd, ha]; rfl
    case rti =>
      obtain ⟨hd, ha, hb⟩ := (extract_eq_rti_iff w).mp hrti
      rw [hd, ha, hb]; rfl
    case none =>
      rw [← fieldD_high] at hd
      rw [decode0010_eq_unspecified_iff]
      exact ⟨⟨fun h => hd (by rw [h]; rfl), fun h => hd (by rw [h]; rfl),
        not_and.mp ((extract_eq_swi_iff w).not.mp hswi), (extract_eq_rti_iff w).not.mp hrti⟩, rfl⟩

/-! ### Fixed words -/

/-- Settles O1: the twenty words decode by computation. -/
theorem sampleWordsDecode : Obligations.SampleWordsDecode := by
  unfold Obligations.SampleWordsDecode
  decide

/-- Settles O6: `step` is the execution of what the fetched word decodes to. -/
theorem stepRunsDecodedInstruction : Obligations.StepRunsDecodedInstruction := by
  unfold Obligations.StepRunsDecodedInstruction
  exact ⟨step_instr, step_unspecified⟩

/-- Bits 15:4 are the fields op, d and a. -/
theorem extract_four_twelve (w : Word) : w.extractLsb' 4 12 = fieldOp w ++ fieldD w ++ fieldA w := by
  refine BitVec.eq_of_getLsbD_eq fun i hi => ?_
  simp only [fieldOp, fieldD, fieldA, BitVec.getLsbD_extractLsb', BitVec.getLsbD_append]
  interval_cases i <;> simp

/-- Settles O53: the words by their fields; no state is looked at in the two refusals. -/
theorem reservedInstructionsRefused : Obligations.ReservedInstructionsRefused := by
  unfold Obligations.ReservedInstructionsRefused
  refine ⟨fun w hw => ?words, by decide, fun _ _ => rfl, fun _ => rfl⟩
  rw [extract_four_twelve] at hw
  have hfields : fieldOp w = 0b0010 ∧ fieldD w = 0b0010 ∧ fieldA w = 0b0000 := by
    revert hw
    generalize fieldOp w = op, fieldD w = d, fieldA w = a
    revert op d a; decide
  obtain ⟨hop, hd, ha⟩ := hfields
  rw [decode_0010 w hop, hd, ha]
  rfl

end Sys2Proof.Machine
end

section
/-! PROOF. The eight ways an instruction can end, and what each can read and change. The statements over all
instructions (spec/10_state.md R23 to R27, R31; spec/60_exceptions.md R340, R355) are read off this classification. -/

namespace Sys2Proof.Machine

/-! ### The classification -/

/-- What the execution of an instruction comes to, once its mode is known. -/
inductive Ending where
  /-- Rd and the flags become what `g` computes from the flags, Ra and Rb. -/
  | computes (d a b : Reg) (g : Flags → Word → Word → Computed)
  /-- LOAD. -/
  | loads (d : Reg) (o : Nat) (b : Reg)
  /-- STORE. -/
  | stores (d : Reg) (o : Nat) (b : Reg)
  /-- The flags alone become what `g` computes from the flags and Ra. -/
  | setsFlags (a : Reg) (g : Flags → Word → Flags)
  /-- A register-mode branch. -/
  | branchesReg (cond : Cond) (b : Reg)
  /-- A relative branch. -/
  | branchesRel (cond : Cond) (o : BitVec 8)
  /-- CALL or RETURN. -/
  | exchanges (a b : Reg)
  /-- No next state. -/
  | stops (r : Refusal)

/-- An ending, carried out. -/
def Ending.run (e : Ending) (s : State) : Result :=
  match e with
  | .computes d a b g => .next (s.retireComputed d (g s.flags (s.reg a) (s.reg b)))
  | .loads d o b => .next (s.retireComputed d (computeSZ s.flags (s.dataCell (s.effAddr b o))))
  | .stores d o b => .next ((s.writeData (s.effAddr b o) (s.reg d)).setPc s.nextPc)
  | .setsFlags a g => .next (s.retireFlags (g s.flags (s.reg a)))
  | .branchesReg cond b => .next (s.branchReg cond b)
  | .branchesRel cond o => .next (s.branchRel cond o)
  | .exchanges a b => .next (s.swapTransfer a b)
  | .stops r => .refused r

/-- MUL's ending, by its mode (R134). -/
def mulEnding (d a b : Reg) : MulMode → Ending
  | .low => .computes d a b mulLow
  | .highSigned => .computes d a b mulHighSigned
  | .undefined => .stops .mulFlagMode

/-- The ending of CALL and RETURN, by their operands (R263). -/
def callEnding (a b : Reg) : Ending := if callClash a b then .stops .callRegisterClash else .exchanges a b

/-- The ending of an instruction that starts with the flags `f`; a source an instruction does not have is R0. -/
def endingOf (i : Instr) (f : Flags) : Ending :=
  match i with
  | .setlo d v => .computes d .r0 .r0 (fun f _ _ => ⟨sext8 v, f⟩)
  | .sethi d v => .computes d d .r0 (fun f x _ => ⟨withHighByte v x, f⟩)
  | .and d a b => .computes d a b (fun f x y => computeSZ f (x &&& y))
  | .or d a b => .computes d a b (fun f x y => computeSZ f (x ||| y))
  | .add d a b => .computes d a b addWords
  | .sub d a b => .computes d a b subWords
  | .mul d a b => mulEnding d a b f.mulMode
  | .xor d a b => .computes d a b (fun f x y => computeSZ f (x ^^^ y))
  | .inc d delta => .computes d d .r0 (fun f x _ => incWord f x delta)
  | .dec d delta => .computes d d .r0 (fun f x _ => decWord f x delta)
  | .lsl d b => .computes d b .r0 (fun f x _ => computeShift f (shiftLeftIn x f.carryIn) (x.getLsbD 15))
  | .lsr d b => .computes d b .r0 (fun f x _ => computeShift f (shiftRightIn f.carryIn x) (x.getLsbD 0))
  | .lsl8 d b => .computes d b .r0 (fun f x _ => computeSZ f (x <<< 8))
  | .lsr8 d b => .computes d b .r0 (fun f x _ => computeSZ f (x >>> 8))
  | .asl d b => .computes d b .r0
      (fun f x _ => computeShift { f with v := aslOverflow x } (shiftLeftIn x f.carryIn) (x.getLsbD 15))
  | .asr d b => .computes d b .r0
      (fun f x _ => computeShift f (shiftRightIn (x.getLsbD 15) x) (x.getLsbD 0))
  | .savef d => .computes d .r0 .r0 (fun f _ _ => ⟨f.toBits.setWidth 16, f⟩)
  | .rstrf d => .setsFlags d (fun _ x => Flags.ofBits (x.extractLsb' 0 5))
  | .fon m => .setsFlags .r0 (fun f _ => Flags.ofBits (f.toBits ||| m))
  | .foff m => .setsFlags .r0 (fun f _ => Flags.ofBits (f.toBits &&& ~~~m))
  | .fset5 m => .setsFlags .r0 (fun _ _ => Flags.ofBits m)
  | .fset4 m => .setsFlags .r0 (fun f _ => { Flags.ofBits m with cb := f.cb })
  | .load d o b => .loads d o b
  | .store d o b => .stores d o b
  | .br b => .branchesReg .always b
  | .brr o => .branchesRel .always o
  | .bl b => .branchesReg .l b
  | .blr o => .branchesRel .l o
  | .bge b => .branchesReg .ge b
  | .bger o => .branchesRel .ge o
  | .ble b => .branchesReg .le b
  | .bler o => .branchesRel .le o
  | .bg b => .branchesReg .g b
  | .bgr o => .branchesRel .g o
  | .bule b => .branchesReg .ule b
  | .buler o => .branchesRel .ule o
  | .bug b => .branchesReg .ug b
  | .bugr o => .branchesRel .ug o
  | .bz b => .branchesReg .z b
  | .bzr o => .branchesRel .z o
  | .bnz b => .branchesReg .nz b
  | .bnzr o => .branchesRel .nz o
  | .bc b => .branchesReg .c b
  | .bcr o => .branchesRel .c o
  | .bnc b => .branchesReg .nc b
  | .bncr o => .branchesRel .nc o
  | .bs b => .branchesReg .s b
  | .bsr o => .branchesRel .s o
  | .bns b => .branchesReg .ns b
  | .bnsr o => .branchesRel .ns o
  | .bv b => .branchesReg .v b
  | .bvr o => .branchesRel .v o
  | .bnv b => .branchesReg .nv b
  | .bnvr o => .branchesRel .nv o
  | .call a b => callEnding a b
  | .ret a b => callEnding a b
  | .swi n => .stops (.swi n)
  | .rti => .stops .rti

/-- Every register-mode branch ends as its condition's branch. -/
@[simp] theorem endingOf_branchInstr (cond : Cond) (b : Reg) (f : Flags) :
    endingOf (branchInstr cond b) f = .branchesReg cond b := by
  cases cond <;> rfl

/-- Every relative branch ends as its condition's branch. -/
@[simp] theorem endingOf_branchRelInstr (cond : Cond) (o : BitVec 8) (f : Flags) :
    endingOf (branchRelInstr cond o) f = .branchesRel cond o := by
  cases cond <;> rfl

/-- The meaning of a relative branch. -/
theorem exec_branchRelInstr (cond : Cond) (o : BitVec 8) (s : State) :
    exec (branchRelInstr cond o) s = .next (s.branchRel cond o) := by
  cases cond <;> rfl

/-- MUL carries out the ending of its mode. -/
theorem exec_mul (d a b : Reg) (s : State) : exec (.mul d a b) s = (mulEnding d a b s.flags.mulMode).run s := by
  show execMul d a b s = _
  unfold execMul
  cases s.flags.mulMode <;> rfl

/-- CALL and RETURN carry out the ending of their operands. -/
theorem callOrReturn_eq_run (a b : Reg) (s : State) : callOrReturn a b s = (callEnding a b).run s := by
  unfold callOrReturn callEnding
  split <;> rfl

/-- Executing an instruction is carrying out its ending. -/
theorem exec_eq_run (i : Instr) (s : State) : exec i s = (endingOf i s.flags).run s := by
  cases i using instr_cases
  case mul d a b => exact exec_mul d a b s
  case register cond b => rw [exec_branchInstr, endingOf_branchInstr]; rfl
  case relative cond o => rw [exec_branchRelInstr, endingOf_branchRelInstr]; rfl
  case call a b => exact callOrReturn_eq_run a b s
  case ret a b => exact callOrReturn_eq_run a b s
  all_goals rfl

/-- A step that has a next state carries out the ending of the instruction it decodes. -/
theorem step_next_run {s t : State} (h : step s = .next t) :
    ∃ i, decode s.fetch = .instr i ∧ (endingOf i s.flags).run s = .next t := by
  obtain ⟨i, hdecode, hexec⟩ := step_next_inv s t h
  exact ⟨i, hdecode, by rw [← exec_eq_run, hexec]⟩

/-! ### Which endings have a next state -/

/-- The ending has no next state. -/
def Ending.isStop : Ending → Bool
  | .stops _ => true
  | _ => false

/-- An ending has a next state unless it is a stop. -/
theorem Ending.run_next_iff (e : Ending) (s : State) : (∃ t, e.run s = .next t) ↔ e.isStop = false := by
  cases e <;> simp [Ending.run, Ending.isStop]

/-- MUL stops in the undefined mode alone (R136). -/
theorem mulEnding_isStop (d a b : Reg) (f : Flags) :
    (mulEnding d a b f.mulMode).isStop = !(f.cb || !(f.c || f.v || f.z)) := by
  obtain ⟨s, z, v, c, cb⟩ := f
  cases s <;> cases z <;> cases v <;> cases c <;> cases cb <;> rfl

/-- CALL and RETURN stop where their operands clash (R263). -/
theorem callEnding_isStop (a b : Reg) :
    (callEnding a b).isStop = !((decide (a = .r0) || !decide (a = b)) && !decide (b = .r14)) := by
  have hclash : (callEnding a b).isStop = callClash a b := by
    unfold callEnding
    split <;> simp_all [Ending.isStop]
  rw [hclash]
  unfold callClash
  cases decide (a = b) <;> cases decide (a = .r0) <;> cases decide (b = .r14) <;> rfl

/-- An instruction is defined with the flags it finds exactly when its ending is no stop (R355). -/
theorem endingOf_isStop (i : Instr) (f : Flags) : (endingOf i f).isStop = !i.defined f := by
  cases i using instr_cases
  case mul d a b => exact mulEnding_isStop d a b f
  case call a b => exact callEnding_isStop a b
  case ret a b => exact callEnding_isStop a b
  case register cond b => cases cond <;> rfl
  case relative cond o => cases cond <;> rfl
  all_goals rfl

/-- An instruction has a next state exactly when it is defined. -/
theorem exec_next_iff (i : Instr) (s : State) : (∃ t, exec i s = .next t) ↔ i.defined s.flags = true := by
  rw [exec_eq_run, Ending.run_next_iff, endingOf_isStop, Bool.not_eq_false']

/-- Settles O8: the outcomes of an instruction by its ending, and no outcome is a fault, since there is none. -/
theorem stepOutcomes : Obligations.StepOutcomes := by
  unfold Obligations.StepOutcomes
  refine ⟨fun s => ⟨fun ⟨t, ht⟩ => ?next, fun ⟨i, hdecode, hdefined⟩ => ?defined⟩, fun s => ?total, exec_next_iff⟩
  case next =>
    obtain ⟨i, hdecode, hexec⟩ := step_next_inv s t ht
    exact ⟨i, hdecode, (exec_next_iff i s).mp ⟨t, hexec⟩⟩
  case defined =>
    rw [step_instr s i hdecode]
    exact (exec_next_iff i s).mpr hdefined
  case total =>
    cases step s with
    | next t => exact .inl ⟨t, rfl⟩
    | fault r => cases r
    | refused r => exact .inr ⟨r, rfl⟩

/-! ### What an ending changes -/

/-- The registers an ending writes. -/
def Ending.dests : Ending → List Reg
  | .computes d _ _ _ => [d]
  | .loads d _ _ => [d]
  | .exchanges a b => [a, b, .fp]
  | _ => []

/-- The ending may set PC to another address than the next. -/
def Ending.transfers : Ending → Bool
  | .branchesReg _ _ => true
  | .branchesRel _ _ => true
  | .exchanges _ _ => true
  | _ => false

/-- What is written to the data memory. -/
inductive DataChange (s t : State) (e : Ending) : Prop where
  /-- Nothing. -/
  | none (h : t.dmem = s.dmem)
  /-- The register of a STORE, to the cell it addresses. -/
  | store (d : Reg) (o : Nat) (b : Reg) (he : e = .stores d o b)
      (h : t.dmem = (s.writeData (s.effAddr b o) (s.reg d)).dmem)

section
variable {e : Ending} {s t : State}

/-- No ending writes the instruction memory (R51). -/
theorem Ending.run_imem (h : e.run s = .next t) : t.imem = s.imem := by
  cases e <;> cases h <;> rfl

/-- An ending changes the data memory by a STORE alone (R31). -/
theorem Ending.run_dmem (h : e.run s = .next t) : DataChange s t e := by
  cases e
  case stores d o b => cases h; exact .store d o b rfl rfl
  case stops => cases h
  all_goals
    cases h
    exact .none rfl

/-- An ending that is no transfer moves PC to the next address (R24, R25). -/
theorem Ending.run_pc (h : e.run s = .next t) (he : e.transfers = false) : t.pc = s.pc + 1 := by
  cases e
  case branchesReg | branchesRel | exchanges => cases he
  case stops => cases h
  all_goals
    cases h
    rfl

/-- A register that an ending does not write keeps its value. -/
theorem Ending.run_reg (h : e.run s = .next t) {q : Reg} (hq : q ∉ e.dests) : t.reg q = s.reg q := by
  cases e
  case computes d a b g =>
    cases h
    exact State.reg_setReg_ne _ _ _ _ (List.ne_of_not_mem_cons hq)
  case loads d o b =>
    cases h
    exact State.reg_setReg_ne _ _ _ _ (List.ne_of_not_mem_cons hq)
  case exchanges a b =>
    cases h
    simp only [Ending.dests, List.mem_cons, List.not_mem_nil, or_false, not_or] at hq
    obtain ⟨ha, hb, hfp⟩ := hq
    rw [State.swapTransfer_reg, State.reg_setReg_ne _ _ _ _ ha, State.reg_setReg_ne _ _ _ _ hfp,
      State.reg_setReg_ne _ _ _ _ hb]
  case stops => cases h
  all_goals
    cases h
    rfl

end

/-- The register table's "writes" for an instruction that does not stop (R23). -/
theorem endingOf_dests (i : Instr) (f : Flags) (h : (endingOf i f).isStop = false) :
    (endingOf i f).dests = i.writes := by
  have hcall (a b : Reg) (h : (callEnding a b).isStop = false) : (callEnding a b).dests = [a, b, .fp] := by
    revert h
    unfold callEnding
    split
    · exact fun h => nomatch h
    · exact fun _ => rfl
  cases i using instr_cases
  case mul d a b =>
    have hmul (m : MulMode) (h : (mulEnding d a b m).isStop = false) : (mulEnding d a b m).dests = [d] := by
      cases m
      case undefined => cases h
      all_goals rfl
    exact hmul _ h
  case call a b => exact hcall a b h
  case ret a b => exact hcall a b h
  case register cond b => cases cond <;> rfl
  case relative cond o => cases cond <;> rfl
  case swi n => cases h
  case rti => cases h
  all_goals rfl

/-- The instructions whose ending is a transfer (R25). -/
theorem endingOf_transfers (i : Instr) (f : Flags) (h : i.transfers = false) : (endingOf i f).transfers = false := by
  cases i using instr_cases
  case mul d a b =>
    show (mulEnding d a b f.mulMode).transfers = false
    cases f.mulMode <;> rfl
  case call a b => cases h
  case ret a b => cases h
  case register cond b => cases cond <;> cases h
  case relative cond o => cases cond <;> cases h
  all_goals rfl

/-- The instruction a memory access stands for. -/
def Ending.access : Ending → Option Instr
  | .loads d o b => some (.load d o b)
  | .stores d o b => some (.store d o b)
  | _ => none

/-- LOAD and STORE are the instructions whose endings are memory accesses. -/
theorem eq_of_endingOf_access {i j : Instr} {f : Flags} (h : (endingOf i f).access = some j) : i = j := by
  have hcall (a b : Reg) : (callEnding a b).access = none := by
    unfold callEnding
    split <;> rfl
  have hmul (d a b : Reg) (m : MulMode) : (mulEnding d a b m).access = none := by cases m <;> rfl
  cases i using instr_cases
  case mul d a b => exact absurd ((hmul d a b _).symm.trans h) (Option.some_ne_none j).symm
  case call a b => exact absurd ((hcall a b).symm.trans h) (Option.some_ne_none j).symm
  case ret a b => exact absurd ((hcall a b).symm.trans h) (Option.some_ne_none j).symm
  case register cond b => rw [endingOf_branchInstr] at h; cases h
  case relative cond o => rw [endingOf_branchRelInstr] at h; cases h
  case load | store =>
    cases h
    rfl
  all_goals cases h

/-- Settles O12: by the ending, which is no transfer. -/
theorem onlyTransfersMovePc : Obligations.OnlyTransfersMovePc := by
  unfold Obligations.OnlyTransfersMovePc
  intro i s t hexec htransfers
  rw [exec_eq_run] at hexec
  exact Ending.run_pc hexec (endingOf_transfers i s.flags htransfers)

end Sys2Proof.Machine
end

section
/-! PROOF. What an instruction can depend on: the register table, the flag table and the reads of a step
(spec/10_state.md R23, R27; spec/60_exceptions.md R340). -/

namespace Sys2Proof.Machine

/-! ### Two runs of one ending -/

/-- The registers an ending reads, R0 standing for a source that an instruction does not have. -/
def Ending.sources : Ending → List Reg
  | .computes _ a b _ => [a, b]
  | .loads _ _ b => [b]
  | .stores d _ b => [d, b]
  | .setsFlags a _ => [a]
  | .branchesReg _ b => [b]
  | .exchanges a b => [a, b, .fp]
  | _ => []

/-- From `s` to `t` and from `s'` to `t'` the same happens: equal flags and PC, equal values in the registers `ds`, no
difference in another register where there was none, and the same write to the data memory. -/
structure SameEffect (ds : List Reg) (s t s' t' : State) : Prop where
  /-- The flags. -/
  flags : t'.flags = t.flags
  /-- PC. -/
  pc : t'.pc = t.pc
  /-- The registers. -/
  regs : ∀ p, p ∈ ds ∨ s'.reg p = s.reg p → t'.reg p = t.reg p
  /-- The data memory. -/
  data : (t.dmem = s.dmem ∧ t'.dmem = s'.dmem) ∨
    ∃ a v, t.dmem = (s.writeData a v).dmem ∧ t'.dmem = (s'.writeData a v).dmem

/-- The same write to a register leaves no new difference. -/
theorem State.reg_setReg_congr {s s' : State} {d p : Reg} {v : Word} (h : p = d ∨ s'.reg p = s.reg p) :
    (s'.setReg d v).reg p = (s.setReg d v).reg p := by
  rw [State.reg_setReg, State.reg_setReg]
  split_ifs with h0 hd
  · rfl
  · rfl
  · exact h.resolve_left hd

/-- Two states that agree on what an ending reads: the sources, the flags, PC and a LOAD's cell. -/
structure Ending.Agree (e : Ending) (s s' : State) : Prop where
  /-- The registers read. -/
  regs : ∀ q ∈ e.sources, s'.reg q = s.reg q
  /-- The flags. -/
  flags : s'.flags = s.flags
  /-- PC. -/
  pc : s'.pc = s.pc
  /-- The cell of a LOAD. -/
  cell : ∀ d o b, e = .loads d o b → s'.dataCell (s'.effAddr b o) = s.dataCell (s.effAddr b o)

/-- What an ending does depends only on what it reads. -/
theorem Ending.run_congr {e : Ending} {s t s' : State} (h : e.run s = .next t) (hagree : e.Agree s s') :
    ∃ t', e.run s' = .next t' ∧ SameEffect e.dests s t s' t' := by
  obtain ⟨hregs, hflags, hpc, hcell⟩ := hagree
  have hnext : s'.pc + 1 = s.pc + 1 := by rw [hpc]
  cases e with
  | computes d a b g =>
    cases h
    have ha : s'.reg a = s.reg a := hregs a (by simp [Ending.sources])
    have hb : s'.reg b = s.reg b := hregs b (by simp [Ending.sources])
    refine ⟨_, rfl, ?_⟩
    rw [hflags, ha, hb]
    exact ⟨rfl, hnext, fun p hp => State.reg_setReg_congr (hp.imp_left List.mem_singleton.mp), .inl ⟨rfl, rfl⟩⟩
  | loads d o b =>
    cases h
    refine ⟨_, rfl, ?_⟩
    rw [hflags, hcell d o b rfl]
    exact ⟨rfl, hnext, fun p hp => State.reg_setReg_congr (hp.imp_left List.mem_singleton.mp), .inl ⟨rfl, rfl⟩⟩
  | stores d o b =>
    cases h
    have hd : s'.reg d = s.reg d := hregs d (by simp [Ending.sources])
    have hb : s'.reg b = s.reg b := hregs b (by simp [Ending.sources])
    have haddr : s'.effAddr b o = s.effAddr b o := by rw [State.effAddr, hb, State.effAddr]
    refine ⟨_, rfl, hflags, hnext, fun p hp => hp.resolve_left List.not_mem_nil, .inr ⟨s.effAddr b o, s.reg d, rfl, ?_⟩⟩
    rw [haddr, hd]; rfl
  | setsFlags a g =>
    cases h
    have ha : s'.reg a = s.reg a := hregs a (by simp [Ending.sources])
    refine ⟨_, rfl, ?_⟩
    rw [hflags, ha]
    exact ⟨rfl, hnext, fun p hp => hp.resolve_left List.not_mem_nil, .inl ⟨rfl, rfl⟩⟩
  | branchesReg cond b =>
    cases h
    have hb : s'.reg b = s.reg b := hregs b (by simp [Ending.sources])
    refine ⟨_, rfl, hflags, ?_, fun p hp => hp.resolve_left List.not_mem_nil, .inl ⟨rfl, rfl⟩⟩
    show (if Cond.holds cond s'.flags then s'.reg b else s'.pc + 1) =
      if Cond.holds cond s.flags then s.reg b else s.pc + 1
    rw [hflags, hb, hpc]
  | branchesRel cond o =>
    cases h
    refine ⟨_, rfl, hflags, ?_, fun p hp => hp.resolve_left List.not_mem_nil, .inl ⟨rfl, rfl⟩⟩
    show (if Cond.holds cond s'.flags then s'.pc + sext8 o else s'.pc + 1) =
      if Cond.holds cond s.flags then s.pc + sext8 o else s.pc + 1
    rw [hflags, hpc]
  | exchanges a b =>
    cases h
    have ha : s'.reg a = s.reg a := hregs a (by simp [Ending.sources])
    have hb : s'.reg b = s.reg b := hregs b (by simp [Ending.sources])
    have hfp : s'.reg .fp = s.reg .fp := hregs .fp (by simp [Ending.sources])
    refine ⟨_, rfl, hflags, hb, fun p hp => ?_, .inl ⟨rfl, rfl⟩⟩
    rw [State.swapTransfer_reg, State.swapTransfer_reg, ha, hfp, hnext]
    have hread : s'.reg p = s.reg p := by
      rcases hp with hp | hp
      · exact hregs p hp
      · exact hp
    exact State.reg_setReg_congr (.inr (State.reg_setReg_congr (.inr (State.reg_setReg_congr (.inr hread)))))
  | stops r => cases h

/-! ### The register table -/

/-- The register table's "reads" (R23): an ending reads no other register, R0 excepted. -/
theorem endingOf_sources (i : Instr) (f : Flags) (q : Reg) (h : q ∈ (endingOf i f).sources) :
    q = .r0 ∨ q ∈ i.reads := by
  have hcall (a b : Reg) (h : q ∈ (callEnding a b).sources) : q ∈ [a, b, .fp] := by
    revert h
    unfold callEnding
    split
    · exact fun h => absurd h List.not_mem_nil
    · exact id
  cases i using instr_cases
  case mul d a b =>
    have hmul (m : MulMode) (h : q ∈ (mulEnding d a b m).sources) : q ∈ [a, b] := by
      cases m
      case undefined => exact absurd h List.not_mem_nil
      all_goals exact h
    exact .inr (hmul _ h)
  case call a b => exact .inr (hcall a b h)
  case ret a b => exact .inr (hcall a b h)
  case register cond b =>
    rw [endingOf_branchInstr] at h
    cases cond <;> exact .inr h
  case relative cond o =>
    rw [endingOf_branchRelInstr] at h
    exact absurd h List.not_mem_nil
  case setlo | savef | fon | foff | fset5 | fset4 => exact .inl (by simpa [endingOf, Ending.sources] using h)
  case sethi | inc | dec | lsl | lsr | lsl8 | lsr8 | asl | asr =>
    exact (List.mem_cons.mp h).symm.imp_left List.mem_singleton.mp |>.imp_right List.mem_singleton.mpr
  case and | or | add | sub | xor | load | store | rstrf => exact .inr h
  case swi | rti => exact .inr h

/-- Settles O10: an instruction's ending writes the registers of the table, and `Ending.run_congr` says that a register
it does not read makes no difference. -/
theorem registerAccessTable : Obligations.RegisterAccessTable := by
  unfold Obligations.RegisterAccessTable
  refine ⟨fun i s t q hexec hq => ?writes, fun i s t q v hexec hq => ?reads⟩
  case writes =>
    rw [exec_eq_run] at hexec
    have hdests := endingOf_dests i s.flags ((Ending.run_next_iff _ s).mp ⟨t, hexec⟩)
    exact Ending.run_reg hexec (by rwa [hdests])
  case reads =>
    rw [exec_eq_run] at hexec
    have hdests := endingOf_dests i s.flags ((Ending.run_next_iff _ s).mp ⟨t, hexec⟩)
    have hsources : ∀ p ∈ (endingOf i s.flags).sources, (s.setReg q v).reg p = s.reg p := by
      intro p hp
      rcases endingOf_sources i s.flags p hp with rfl | hreads
      · rfl
      · exact State.reg_setReg_ne s p q v fun hpq => hq (hpq ▸ hreads)
    have hcell (d : Reg) (o : Nat) (b : Reg) (hload : endingOf i s.flags = .loads d o b) :
        (s.setReg q v).dataCell ((s.setReg q v).effAddr b o) = s.dataCell (s.effAddr b o) := by
      have hb : (s.setReg q v).reg b = s.reg b := hsources b (by simp [hload, Ending.sources])
      rw [State.effAddr, hb]; rfl
    obtain ⟨u, hu, heffect⟩ := Ending.run_congr hexec (s' := s.setReg q v) ⟨hsources, rfl, rfl, hcell⟩
    have hdmem : u.dmem = t.dmem := by
      rcases heffect.data with ⟨ht, hu⟩ | ⟨a, w, ht, hu⟩
      · exact hu.trans ht.symm
      · exact hu.trans ht.symm
    have himem : u.imem = t.imem := (Ending.run_imem hu).trans (Ending.run_imem hexec).symm
    refine ⟨u, by rw [exec_eq_run]; exact hu, heffect.flags, heffect.pc, hdmem, himem, fun p hp => heffect.regs p ?_⟩
    rw [hdests]
    exact hp.imp_right (State.reg_setReg_ne s p q v)

/-! ### What a step reads -/

/-- An ending is refused when it is a stop, in every state. -/
theorem Ending.run_refused {e : Ending} {s : State} {r : Refusal} (h : e.run s = .refused r) : e = .stops r := by
  cases e
  case stops => cases h; rfl
  all_goals cases h

/-- Settles O13: both steps carry out one ending, from states that agree on what it reads. -/
theorem stepReadsOnly : Obligations.StepReadsOnly := by
  unfold Obligations.StepReadsOnly
  intro s₁ s₂ hregs hpc hflags hfetch hcell
  refine ⟨fun r hr => ?refused, fun t₁ ht₁ => ?next⟩
  case refused =>
    unfold step at hr ⊢
    rw [← hfetch]
    cases hdecode : decode s₁.fetch with
    | unspecified c => rw [hdecode] at hr; exact hr
    | instr i =>
      have hrun : exec i s₁ = .refused r := by rw [hdecode] at hr; exact hr
      rw [exec_eq_run] at hrun
      show exec i s₂ = .refused r
      rw [exec_eq_run, ← hflags, Ending.run_refused hrun]
      rfl
  case next =>
    obtain ⟨i, hdecode, hrun⟩ := step_next_run ht₁
    have hload (d : Reg) (o : Nat) (b : Reg) (he : endingOf i s₁.flags = .loads d o b) :
        s₂.dataCell (s₂.effAddr b o) = s₁.dataCell (s₁.effAddr b o) := by
      have hi : i = .load d o b := eq_of_endingOf_access (f := s₁.flags) (by rw [he]; rfl)
      exact (hcell d o b (by rw [hdecode, hi])).symm
    obtain ⟨t₂, hrun₂, heffect⟩ := Ending.run_congr hrun (s' := s₂)
      ⟨fun q _ => (hregs q).symm, hflags.symm, hpc.symm, hload⟩
    have hstep₂ : step s₂ = .next t₂ := by
      rw [step_instr s₂ i (by rw [← hfetch, hdecode]), exec_eq_run, ← hflags, hrun₂]
    refine ⟨t₂, hstep₂, fun r => (heffect.regs r (.inr (hregs r).symm)).symm, heffect.pc.symm, heffect.flags.symm,
      fun a => ?_⟩
    rcases heffect.data with ⟨hkept₁, hkept₂⟩ | ⟨c, v, hwrite₁, hwrite₂⟩
    · exact .inl ⟨State.dataCell_congr s₁ t₁ hkept₁ a, State.dataCell_congr s₂ t₂ hkept₂ a⟩
    · rw [State.dataCell_congr _ t₁ hwrite₁ a, State.dataCell_congr _ t₂ hwrite₂ a, State.dataCell_writeData,
        State.dataCell_writeData]
      by_cases hac : a = c
      · simp only [hac, if_true, or_true]
      · simp only [hac, if_false, true_and, true_or]

/-! ### The flag table -/

/-- Two values of F agree on a mask when each flag of the mask is the same (R26). -/
theorem Flags.and_eq_and_iff (f g : Flags) (m : BitVec 5) : f.toBits &&& m = g.toBits &&& m ↔
    (m.getLsbD 0 = true → f.s = g.s) ∧ (m.getLsbD 1 = true → f.z = g.z) ∧ (m.getLsbD 2 = true → f.v = g.v) ∧
      (m.getLsbD 3 = true → f.c = g.c) ∧ (m.getLsbD 4 = true → f.cb = g.cb) := by
  obtain ⟨hs, hz, hv, hc, hcb⟩ := f.getLsbD_toBits
  obtain ⟨hs', hz', hv', hc', hcb'⟩ := g.getLsbD_toBits
  have hbits : f.toBits &&& m = g.toBits &&& m ↔
      ∀ i, i < 5 → (m.getLsbD i = true → f.toBits.getLsbD i = g.toBits.getLsbD i) := by
    rw [BitVec.eq_of_getLsbD_eq_iff]
    refine forall₂_congr fun i hi => ?_
    rw [BitVec.getLsbD_and, BitVec.getLsbD_and]
    cases m.getLsbD i <;> simp
  rw [hbits, ← hs, ← hs', ← hz, ← hz', ← hv, ← hv', ← hc, ← hc', ← hcb, ← hcb']
  constructor
  · exact fun h => ⟨h 0 (by decide), h 1 (by decide), h 2 (by decide), h 3 (by decide), h 4 (by decide)⟩
  · rintro ⟨h0, h1, h2, h3, h4⟩ i hi
    interval_cases i <;> assumption

/-- `g` computes its word and its flags from the flags of the mask `r` alone and keeps the flags outside the mask
`w`. -/
structure FlagUse (r w : BitVec 5) (g : Flags → Computed) : Prop where
  /-- The flags outside `w`. -/
  kept : ∀ f, (g f).flags.toBits &&& ~~~w = f.toBits &&& ~~~w
  /-- The word. -/
  result : ∀ f f', f'.toBits &&& r = f.toBits &&& r → (g f').result = (g f).result
  /-- The flags of `w`. -/
  flags : ∀ f f', f'.toBits &&& r = f.toBits &&& r → (g f').flags.toBits &&& w = (g f).flags.toBits &&& w

/-- The carry that is taken in depends on c and carry-block (R28). -/
theorem Flags.carryIn_congr {f f' : Flags} (h : f'.toBits &&& 0x18 = f.toBits &&& 0x18) : f'.carryIn = f.carryIn := by
  obtain ⟨-, -, -, hc, hcb⟩ := (Flags.and_eq_and_iff f' f 0x18).mp h
  rw [Flags.carryIn, hc rfl, hcb rfl, Flags.carryIn]

/-- The borrow that is taken in depends on c and carry-block (R28). -/
theorem Flags.borrowIn_congr {f f' : Flags} (h : f'.toBits &&& 0x18 = f.toBits &&& 0x18) :
    f'.borrowIn = f.borrowIn := by
  obtain ⟨-, -, -, hc, hcb⟩ := (Flags.and_eq_and_iff f' f 0x18).mp h
  rw [Flags.borrowIn, hc rfl, hcb rfl, Flags.borrowIn]

section
variable {r : BitVec 5}

/-- s and z alone are written (R130). -/
theorem flagUse_computeSZ (x : Word) : FlagUse r 0x03 (fun f => computeSZ f x) where
  kept := fun f => by simp [Flags.and_eq_and_iff, computeSZ, Flags.setSZ]
  result := fun _ _ _ => rfl
  flags := fun f f' _ => by simp [Flags.and_eq_and_iff, computeSZ, Flags.setSZ]

/-- The arithmetic instructions write s, z, v and c, and read what their word, c and v are computed from (R130). -/
theorem flagUse_arith {x : Flags → Word} {c v : Flags → Bool}
    (h : ∀ f f', f'.toBits &&& r = f.toBits &&& r → x f' = x f ∧ c f' = c f ∧ v f' = v f) :
    FlagUse r 0x0F (fun f => ⟨x f, f.arith (x f) (c f) (v f)⟩) where
  kept := fun f => by simp [Flags.and_eq_and_iff, Flags.arith, Flags.setSZ]
  result := fun f f' hagree => (h f f' hagree).1
  flags := fun f f' hagree => by
    obtain ⟨hx, hc, hv⟩ := h f f' hagree
    simp [Flags.and_eq_and_iff, Flags.arith, Flags.setSZ, hx, hc, hv]

/-- The one-bit shifts write s, z and c, and read what their word is computed from (R166). -/
theorem flagUse_computeShift {x : Flags → Word} {out : Bool}
    (h : ∀ f f', f'.toBits &&& r = f.toBits &&& r → x f' = x f) :
    FlagUse r 0x0B (fun f => computeShift f (x f) out) where
  kept := fun f => by simp [Flags.and_eq_and_iff, computeShift, Flags.setSZ]
  result := h
  flags := fun f f' hagree => by simp [Flags.and_eq_and_iff, computeShift, Flags.setSZ, h f f' hagree]

/-- ASL writes v besides (R164). -/
theorem flagUse_computeShift_v {x : Flags → Word} {out v : Bool}
    (h : ∀ f f', f'.toBits &&& r = f.toBits &&& r → x f' = x f) :
    FlagUse r 0x0F (fun f => computeShift { f with v := v } (x f) out) where
  kept := fun f => by simp [Flags.and_eq_and_iff, computeShift, Flags.setSZ]
  result := h
  flags := fun f f' hagree => by simp [Flags.and_eq_and_iff, computeShift, Flags.setSZ, h f f' hagree]

/-- An instruction that hands its flags on writes none, and reads what its word is computed from. -/
theorem flagUse_handOn {x : Flags → Word} (h : ∀ f f', f'.toBits &&& r = f.toBits &&& r → x f' = x f) :
    FlagUse r 0x00 (fun f => ⟨x f, f⟩) where
  kept := fun _ => rfl
  result := h
  flags := fun f f' _ => by simp

/-- RSTRF and FSET5 write all five flags and read none (R181, R184). -/
theorem flagUse_const (g : Flags) : FlagUse r 0x1F (fun _ => ⟨0, g⟩) where
  kept := fun f => by simp
  result := fun _ _ _ => rfl
  flags := fun _ _ _ => rfl

/-- FSET4 writes all flags but carry-block and reads none (R185). -/
theorem flagUse_setFour (g : Flags) : FlagUse r 0x0F (fun f => ⟨0, { g with cb := f.cb }⟩) where
  kept := fun f => by simp [Flags.and_eq_and_iff]
  result := fun _ _ _ => rfl
  flags := fun f f' _ => by simp [Flags.and_eq_and_iff]

/-- FON writes the flags of its mask (R182). -/
theorem flagUse_setMask (m : BitVec 5) : FlagUse r m (fun f => ⟨0, Flags.ofBits (f.toBits ||| m)⟩) where
  kept := fun f => by
    rw [Flags.toBits_ofBits]
    generalize f.toBits = n
    revert n m; decide
  result := fun _ _ _ => rfl
  flags := fun f f' _ => by
    have hall (n : BitVec 5) : (n ||| m) &&& m = m := by revert n m; decide
    rw [Flags.toBits_ofBits, Flags.toBits_ofBits, hall, hall]

/-- FOFF writes the flags of its mask (R183). -/
theorem flagUse_clearMask (m : BitVec 5) : FlagUse r m (fun f => ⟨0, Flags.ofBits (f.toBits &&& ~~~m)⟩) where
  kept := fun f => by rw [Flags.toBits_ofBits, BitVec.and_assoc, BitVec.and_self]
  result := fun _ _ _ => rfl
  flags := fun f f' _ => by
    have hnone (n : BitVec 5) : n &&& ~~~m &&& m = 0 := by revert n m; decide
    rw [Flags.toBits_ofBits, Flags.toBits_ofBits, hnone, hnone]

end

/-- What an ending does with the flags lies within a row of the flag table: `r` the flags read, `w` those written. -/
def Ending.FlagsWithin (e : Ending) (r w : BitVec 5) : Prop :=
  match e with
  | .computes _ _ _ g => ∀ x y, FlagUse r w (fun f => g f x y)
  | .loads _ _ _ => w = 0x03
  | .setsFlags _ g => ∀ x, FlagUse r w (fun f => ⟨0, g f x⟩)
  | .branchesReg cond _ => w = 0 ∧ ∀ f f', f'.toBits &&& r = f.toBits &&& r → Cond.holds cond f' = Cond.holds cond f
  | .branchesRel cond _ => w = 0 ∧ ∀ f f', f'.toBits &&& r = f.toBits &&& r → Cond.holds cond f' = Cond.holds cond f
  | .stores _ _ _ => w = 0
  | .exchanges _ _ => w = 0
  | .stops _ => True

/-- A mask of all five flags determines F. -/
theorem Flags.eq_of_and_all {f f' : Flags} (h : f'.toBits &&& 0x1F = f.toBits &&& 0x1F) : f' = f := by
  obtain ⟨hs, hz, hv, hc, hcb⟩ := (Flags.and_eq_and_iff f' f 0x1F).mp h
  cases f'; cases f
  simp_all

/-- The flags a condition reads (R210). -/
def condFlags : Cond → BitVec 5
  | .always => 0x00
  | .l => 0x05
  | .ge => 0x05
  | .le => 0x07
  | .g => 0x07
  | .ule => 0x0A
  | .ug => 0x0A
  | .z => 0x02
  | .nz => 0x02
  | .c => 0x08
  | .nc => 0x08
  | .s => 0x01
  | .ns => 0x01
  | .v => 0x04
  | .nv => 0x04

/-- The condition table reads no other flag. -/
theorem Cond.holds_congr (cond : Cond) (f f' : Flags) (h : f'.toBits &&& condFlags cond = f.toBits &&& condFlags cond) :
    Cond.holds cond f' = Cond.holds cond f := by
  rw [Flags.and_eq_and_iff] at h
  cases cond <;> simp_all [condFlags, Cond.holds]

/-- Every ending keeps within its instruction's row of the flag table (R27). -/
theorem endingOf_flagsWithin (i : Instr) (f : Flags) : (endingOf i f).FlagsWithin i.flagsRead i.flagsWritten := by
  have hcall (a b : Reg) (r : BitVec 5) : (callEnding a b).FlagsWithin r 0 := by
    unfold callEnding
    split
    · trivial
    · exact rfl
  cases i using instr_cases
  case setlo d v => exact fun _ _ => flagUse_handOn fun _ _ _ => rfl
  case sethi d v => exact fun _ _ => flagUse_handOn fun _ _ _ => rfl
  case savef d => exact fun _ _ => flagUse_handOn fun _ _ h => by rw [Flags.eq_of_and_all h]
  case and | or | xor | lsl8 | lsr8 => exact fun _ _ => flagUse_computeSZ _
  case add d a b => exact fun _ _ => flagUse_arith fun _ _ h => by simp only [Flags.carryIn_congr h, and_self]
  case sub d a b => exact fun _ _ => flagUse_arith fun _ _ h => by simp only [Flags.borrowIn_congr h, and_self]
  case mul d a b =>
    show (mulEnding d a b f.mulMode).FlagsWithin 0x1F 0x0F
    cases f.mulMode
    case undefined => trivial
    all_goals exact fun _ _ => flagUse_arith fun _ _ _ => ⟨rfl, rfl, rfl⟩
  case inc | dec => exact fun _ _ => flagUse_arith fun _ _ _ => ⟨rfl, rfl, rfl⟩
  case lsl | lsr => exact fun _ _ => flagUse_computeShift fun _ _ h => by rw [Flags.carryIn_congr h]
  case asl => exact fun _ _ => flagUse_computeShift_v fun _ _ h => by rw [Flags.carryIn_congr h]
  case asr => exact fun _ _ => flagUse_computeShift fun _ _ _ => rfl
  case rstrf d => exact fun _ => flagUse_const _
  case fset5 m => exact fun _ => flagUse_const _
  case fon m => exact fun _ => flagUse_setMask m
  case foff m => exact fun _ => flagUse_clearMask m
  case fset4 m => exact fun _ => flagUse_setFour (Flags.ofBits m)
  case load | store => exact rfl
  case register cond b =>
    rw [endingOf_branchInstr]
    exact ⟨by cases cond <;> rfl, fun f f' h => Cond.holds_congr cond f f' (by cases cond <;> exact h)⟩
  case relative cond o =>
    rw [endingOf_branchRelInstr]
    exact ⟨by cases cond <;> rfl, fun f f' h => Cond.holds_congr cond f f' (by cases cond <;> exact h)⟩
  case call a b => exact hcall a b _
  case ret a b => exact hcall a b _
  case swi | rti => trivial

/-- The ending does not change with flags that the instruction does not read: MUL reads all five. -/
theorem endingOf_congr (i : Instr) {f f' : Flags} (h : f'.toBits &&& i.flagsRead = f.toBits &&& i.flagsRead) :
    endingOf i f' = endingOf i f := by
  cases i using instr_cases
  case mul d a b => rw [Flags.eq_of_and_all h]
  case register cond b => rw [endingOf_branchInstr, endingOf_branchInstr]
  case relative cond o => rw [endingOf_branchRelInstr, endingOf_branchRelInstr]
  all_goals rfl

section
variable {e : Ending} {r w : BitVec 5} {s t : State}

/-- An ending keeps the flags outside its row. -/
theorem Ending.run_flags (he : e.FlagsWithin r w) (h : e.run s = .next t) :
    t.flags.toBits &&& ~~~w = s.flags.toBits &&& ~~~w := by
  cases e with
  | computes d a b g => cases h; exact (he _ _).kept s.flags
  | setsFlags a g => cases h; exact (he _).kept s.flags
  | loads d o b =>
    cases h
    rw [show w = 0x03 from he]
    exact (flagUse_computeSZ (r := 0) _).kept s.flags
  | stores | branchesReg | branchesRel | exchanges => cases h; rfl
  | stops r => cases h

/-- From two values of F that agree on the flags its row reads, an ending does the same: it writes the same flags and
agrees in everything else. -/
theorem Ending.run_setFlags (he : e.FlagsWithin r w) (h : e.run s = .next t) (f : Flags)
    (hagree : f.toBits &&& r = s.flags.toBits &&& r) :
    ∃ u, e.run (s.setFlags f) = .next u ∧ u.regs = t.regs ∧ u.pc = t.pc ∧ u.dmem = t.dmem ∧ u.imem = t.imem ∧
      u.flags.toBits &&& w = t.flags.toBits &&& w := by
  cases e with
  | computes d a b g =>
    cases h
    obtain ⟨-, hresult, hflags⟩ := he (s.reg a) (s.reg b)
    refine ⟨_, rfl, ?_, rfl, rfl, rfl, hflags _ _ hagree⟩
    exact congrArg (s.regs.set d) (hresult _ _ hagree)
  | setsFlags a g =>
    cases h
    exact ⟨_, rfl, rfl, rfl, rfl, rfl, (he (s.reg a)).flags _ _ hagree⟩
  | loads d o b =>
    cases h
    rw [show w = 0x03 from he]
    exact ⟨_, rfl, rfl, rfl, rfl, rfl, (flagUse_computeSZ _).flags _ _ hagree⟩
  | stores d o b =>
    cases h
    rw [show w = 0 from he]
    exact ⟨_, rfl, rfl, rfl, rfl, rfl, by simp⟩
  | branchesReg cond b =>
    cases h
    obtain ⟨hw, hcond⟩ := he
    refine ⟨_, rfl, rfl, ?_, rfl, rfl, by simp [hw]⟩
    show (if Cond.holds cond f then s.reg b else s.pc + 1) = if Cond.holds cond s.flags then s.reg b else s.pc + 1
    rw [hcond _ _ hagree]
  | branchesRel cond o =>
    cases h
    obtain ⟨hw, hcond⟩ := he
    refine ⟨_, rfl, rfl, ?_, rfl, rfl, by simp [hw]⟩
    show (if Cond.holds cond f then s.pc + sext8 o else s.pc + 1) =
      if Cond.holds cond s.flags then s.pc + sext8 o else s.pc + 1
    rw [hcond _ _ hagree]
  | exchanges a b =>
    cases h
    rw [show w = 0 from he]
    exact ⟨_, rfl, rfl, rfl, rfl, rfl, by simp⟩
  | stops r => cases h

end

/-- Settles O11: an instruction's ending keeps within its row of the table. -/
theorem flagAccessTable : Obligations.FlagAccessTable := by
  unfold Obligations.FlagAccessTable
  refine ⟨fun i s t hexec => ?writes, fun i s t f hexec hagree => ?reads⟩
  case writes =>
    rw [exec_eq_run] at hexec
    exact Ending.run_flags (endingOf_flagsWithin i s.flags) hexec
  case reads =>
    rw [exec_eq_run] at hexec
    rw [exec_eq_run, State.setFlags_flags, endingOf_congr i hagree]
    exact Ending.run_setFlags (endingOf_flagsWithin i s.flags) hexec f hagree

end Sys2Proof.Machine
end

section
/-! PROOF. The two memories over a step and over a run (spec/20_memory.md R50 to R63), reset and final states
(spec/10_state.md R21, R33; spec/70_reset_and_hazards.md R370, R376). -/

namespace Sys2Proof.Machine

/-! ### The canonical form -/

/-- The canonical form depends on the two memories alone. -/
theorem State.wf_congr {s t : State} (hd : t.dmem = s.dmem) (hi : t.imem = s.imem) : t.wf = s.wf := by
  rw [State.wf, hd, hi, State.wf]

/-- Every ending keeps the canonical form. -/
theorem Ending.run_wf {e : Ending} {s t : State} (h : e.run s = .next t) (hwf : s.wf = true) : t.wf = true := by
  have himem := Ending.run_imem h
  cases Ending.run_dmem h with
  | none hdmem => rwa [State.wf_congr hdmem himem]
  | store d o b _ hdmem =>
    rw [State.wf_congr (s := s.writeData (s.effAddr b o) (s.reg d)) hdmem himem]
    exact s.writeData_wf _ _ hwf

/-- Settles O16: by the ending of the instruction, which writes no memory or one data cell. -/
theorem stepKeepsCanonicalMemory : Obligations.StepKeepsCanonicalMemory := by
  unfold Obligations.StepKeepsCanonicalMemory
  intro s t hwf hstep
  obtain ⟨i, -, hrun⟩ := step_next_run hstep
  exact Ending.run_wf hrun hwf

/-- In a canonical memory the first cell is recorded at its own address and every later one above it. -/
theorem Memory.wfFrom_cons {lo k : Nat} {v : Word} {rest : Memory} (h : Memory.wfFrom lo ((k, v) :: rest) = true) :
    lo ≤ k ∧ k < 65536 ∧ Memory.wfFrom (k + 1) rest = true := by
  simp only [Memory.wfFrom, Bool.and_eq_true, decide_eq_true_eq] at h
  obtain ⟨⟨hlo, hk⟩, hrest⟩ := h
  exact ⟨hlo, hk, hrest⟩

/-- The first cell's value. -/
theorem Memory.find_head (k : Nat) (v : Word) (rest : Memory) : Memory.find ((k, v) :: rest) k = some v :=
  if_pos rfl

/-- Every other address is looked up in the rest. -/
theorem Memory.find_tail {k a : Nat} (v : Word) (rest : Memory) (h : a ≠ k) :
    Memory.find ((k, v) :: rest) a = Memory.find rest a :=
  if_neg h

/-- The value found at the first cell's address of one canonical memory shows that the other one does not start
above it. -/
theorem Memory.head_le {lo k k' : Nat} {v v' : Word} {m n : Memory}
    (hn : Memory.wfFrom lo ((k', v') :: n) = true)
    (h : Memory.find ((k, v) :: m) k = Memory.find ((k', v') :: n) k) : k' ≤ k := by
  by_contra hlt
  obtain ⟨-, -, hrest⟩ := Memory.wfFrom_cons hn
  rw [Memory.find_head, Memory.find_tail v' n (by omega), Memory.find_below n (k' + 1) k (by omega) hrest] at h
  cases h

/-- Two canonical memories that record the same values are equal, by comparing their first cells. -/
theorem Memory.eq_of_find (lo : Nat) (m n : Memory) (hm : Memory.wfFrom lo m = true) (hn : Memory.wfFrom lo n = true)
    (h : ∀ a, a < 65536 → Memory.find m a = Memory.find n a) : m = n := by
  induction m generalizing lo n with
  | nil =>
    cases n with
    | nil => rfl
    | cons q n =>
      obtain ⟨-, hk, -⟩ := Memory.wfFrom_cons hn
      have hq := h q.1 hk
      rw [Memory.find_head] at hq
      cases hq
  | cons p m ih =>
    obtain ⟨k, v⟩ := p
    obtain ⟨-, hk, hm'⟩ := Memory.wfFrom_cons hm
    cases n with
    | nil =>
      have hq := h k hk
      rw [Memory.find_head] at hq
      cases hq
    | cons q n =>
      obtain ⟨k', v'⟩ := q
      obtain ⟨-, hk', hn'⟩ := Memory.wfFrom_cons hn
      obtain rfl : k = k' := Nat.le_antisymm (Memory.head_le hm (h k' hk').symm) (Memory.head_le hn (h k hk))
      have hv := h k hk
      rw [Memory.find_head, Memory.find_head] at hv
      have hrest : m = n := by
        refine ih (k + 1) n hm' hn' fun a ha => ?_
        by_cases hle : a ≤ k
        · rw [Memory.find_below m (k + 1) a (by omega) hm', Memory.find_below n (k + 1) a (by omega) hn']
        · have hne : a ≠ k := by omega
          have ha' := h a ha
          rwa [Memory.find_tail v m hne, Memory.find_tail v' n hne] at ha'
      rw [hrest, Option.some.inj hv]

/-- Settles O17: by induction over the cells, the first cells of the two memories being the same. -/
theorem canonicalMemoryIsUnique : Obligations.CanonicalMemoryIsUnique := by
  unfold Obligations.CanonicalMemoryIsUnique
  intro m n hm hn h
  refine Memory.eq_of_find 0 m n hm hn fun a ha => ?_
  have ha' := h (BitVec.ofNat 16 a)
  rwa [BitVec.toNat_ofNat, Nat.mod_eq_of_lt ha] at ha'

/-! ### Instruction memory -/

/-- No step changes the instruction memory. -/
theorem step_imem {s t : State} (h : step s = .next t) : t.imem = s.imem := by
  obtain ⟨i, -, hrun⟩ := step_next_run h
  exact Ending.run_imem hrun

/-- No run changes the instruction memory. -/
theorem run_imem (n : Nat) (s t : State) (h : Host.Core.run Sys2Proof.core n s = .next t) : t.imem = s.imem := by
  induction n generalizing s with
  | zero => cases h; rfl
  | succ n ih =>
    obtain ⟨u, hstep, hrun⟩ := run_succ_inv n s t h
    rw [ih u hrun, step_imem hstep]

/-- Settles O18: by the ending for one step and by induction for a run. -/
theorem instructionMemoryIsConstant : Obligations.InstructionMemoryIsConstant := by
  unfold Obligations.InstructionMemoryIsConstant
  exact ⟨fun _ _ => step_imem, fun n s t h a => State.instrCell_congr s t (run_imem n s t h) a⟩

/-! ### Data memory -/

/-- A step keeps a data cell, or executes a STORE to it. -/
theorem step_dataCell {s t : State} (a : Word) (h : step s = .next t) : t.dataCell a = s.dataCell a ∨
    ∃ d o b, decode s.fetch = .instr (.store d o b) ∧ a = s.effAddr b o ∧ t.dataCell a = s.reg d := by
  obtain ⟨i, hdecode, hrun⟩ := step_next_run h
  cases Ending.run_dmem hrun with
  | none hdmem => exact .inl (State.dataCell_congr s t hdmem a)
  | store d o b he hdmem =>
    have hi : i = .store d o b := eq_of_endingOf_access (f := s.flags) (by rw [he]; rfl)
    rw [State.dataCell_congr _ t hdmem a, State.dataCell_writeData]
    by_cases ha : a = s.effAddr b o
    · exact .inr ⟨d, o, b, by rw [hdecode, hi], ha, if_pos ha⟩
    · exact .inl (if_neg ha)

/-- Settles O19. -/
theorem dataChangesOnlyByStore : Obligations.DataChangesOnlyByStore := by
  unfold Obligations.DataChangesOnlyByStore
  exact fun _ _ a h => step_dataCell a h

/-- A run that executes no STORE to a cell keeps it. -/
theorem run_dataCell (n : Nat) (s t : State) (a : Word) (hrun : Host.Core.run Sys2Proof.core n s = .next t)
    (hno : ∀ k u d o b, k < n → Host.Core.run Sys2Proof.core k s = .next u →
      decode u.fetch = .instr (.store d o b) → u.effAddr b o ≠ a) : t.dataCell a = s.dataCell a := by
  induction n generalizing s with
  | zero => cases hrun; rfl
  | succ n ih =>
    obtain ⟨u, hstep, hrest⟩ := run_succ_inv n s t hrun
    have hkept : t.dataCell a = u.dataCell a := by
      refine ih u hrest fun k v d o b hk hv => hno (k + 1) v d o b (by omega) ?_
      rw [run_succ_of_step k s u hstep, hv]
    rcases step_dataCell a hstep with hcell | ⟨d, o, b, hdecode, ha, -⟩
    · exact hkept.trans hcell
    · exact absurd ha.symm (hno 0 s d o b (by omega) rfl hdecode)

/-- The meaning of LOAD. -/
theorem exec_load (d b : Reg) (o : Nat) (s : State) : exec (.load d o b) s =
    .next (s.retireComputed d (computeSZ s.flags (s.dataCell (s.effAddr b o)))) := rfl

/-- The meaning of STORE. -/
theorem exec_store (d b : Reg) (o : Nat) (s : State) :
    exec (.store d o b) s = .next ((s.writeData (s.effAddr b o) (s.reg d)).setPc s.nextPc) := rfl

/-- Settles O20: the STORE leaves its value in the cell, the run keeps it, and the LOAD reads the cell. -/
theorem loadReturnsLatestStore : Obligations.LoadReturnsLatestStore := by
  unfold Obligations.LoadReturnsLatestStore
  refine ⟨run_dataCell, fun n s₀ s t d b d' b' o o' hstore hstep hrun hno hload haddr => ?_⟩
  have hwritten : s.dataCell (s₀.effAddr b o) = s₀.reg d := by
    rw [step_instr s₀ _ hstore, exec_store] at hstep
    cases hstep
    exact (State.dataCell_writeData ..).trans (if_pos rfl)
  refine ⟨_, (step_instr t _ hload).trans (exec_load ..), ?_⟩
  rw [haddr, run_dataCell n s t _ hrun hno, hwritten]
  exact State.reg_setReg_self t d' (s₀.reg d)

/-- Settles O41: LOAD retires through `computeSZ` with the cell at the effective address. -/
theorem loadReadsCell : Obligations.LoadReadsCell := by
  unfold Obligations.LoadReadsCell
  intro d b o s
  obtain ⟨-, hsz, hkept⟩ := computeSZ_spec s.flags (s.dataCell (s.effAddr b o))
  exact ⟨s.effAddr_toNat b o, _, _, exec_load d b o s, s.retireComputed_spec d _, hsz, hkept⟩

/-- Settles O42: STORE's one write is read back by `State.dataCell_writeData`. -/
theorem storeWritesCell : Obligations.StoreWritesCell := by
  unfold Obligations.StoreWritesCell
  intro d b o s
  have hcell (a : Word) := State.dataCell_writeData s (s.effAddr b o) a (s.reg d)
  exact ⟨s.effAddr_toNat b o, _, exec_store d b o s, (hcell _).trans (if_pos rfl),
    fun a ha => (hcell a).trans (if_neg ha), fun _ => rfl, rfl, rfl, fun _ => rfl⟩

/-! ### Registers, reset, final states -/

/-- Settles O9: by the laws of the register file. -/
theorem zeroRegister : Obligations.ZeroRegister := by
  unfold Obligations.ZeroRegister
  refine ⟨State.reg_r0, State.setReg_r0, fun s i j v hi => ⟨?_, State.reg_setReg_ne s j i v⟩⟩
  rw [State.reg_setReg_self, if_neg hi]

/-- Settles O14: each field of the reset state is written out in its definition. -/
theorem resetState : Obligations.ResetState := by
  unfold Obligations.ResetState
  refine ⟨rfl, fun f => ⟨rfl, fun r => ?_, rfl, fun _ => rfl, fun _ => rfl⟩⟩
  cases r <;> rfl

/-- Settles O15: both memories are empty after reset. -/
theorem resetIsCanonical : Obligations.ResetIsCanonical := by
  unfold Obligations.ResetIsCanonical
  exact ⟨rfl, fun _ => rfl⟩

/-- A taken branch with offset 0 goes back to itself. -/
theorem branchRel_zero (cond : Cond) (s : State) (h : Cond.holds cond s.flags = true) : s.branchRel cond 0 = s := by
  have hpc : s.pc + sext8 0 = s.pc := BitVec.add_zero s.pc
  rw [State.branchRel, State.branchTo, if_pos h, State.relTarget, hpc, State.setPc]

/-- Settles O48: HALT and NOP are the branch BRR with the offsets 0 and 1. -/
theorem haltAndNop : Obligations.HaltAndNop := by
  unfold Obligations.HaltAndNop
  refine ⟨by decide, by decide, fun s => ?halt, fun s => rfl, fun cond s h => ?fixed⟩
  case halt => exact (exec_branchRelInstr .always 0 s).trans (by rw [branchRel_zero .always s rfl])
  case fixed => rw [exec_branchRelInstr, branchRel_zero cond s h]

/-- A step from a halted state leads to the state itself (R241). -/
theorem step_of_halted (s : State) (h : s.halted = true) : step s = .next s := by
  have hfetch : s.fetch = 0x0000 := of_decide_eq_true h
  obtain ⟨hdecode, -, hhalt, -⟩ := haltAndNop
  rw [step_instr s _ (by rw [hfetch, hdecode]), hhalt]

/-- Settles O49: by induction on the length of the run. -/
theorem haltedStateNeverChanges : Obligations.HaltedStateNeverChanges := by
  unfold Obligations.HaltedStateNeverChanges
  intro n s h
  induction n with
  | zero => rfl
  | succ n ih => rw [run_succ_of_step n s s (step_of_halted s h), ih]

end Sys2Proof.Machine
end

section
/-! PROOF. SETLO and SET, ADD, SUB, MUL, INC and DEC (spec/40_set.md R120, R122; spec/41_alu.md R130 to R141;
spec/42_incdec.md R150, R151). -/

namespace Sys2Proof.Machine

/-! ### SETLO and SET -/

/-- The meaning of SETLO. -/
theorem exec_setlo (d : Reg) (v : BitVec 8) (s : State) :
    exec (.setlo d v) s = .next (s.retire d (sext8 v) s.flags) := rfl

/-- Sign extension bit by bit (R7). -/
theorem getLsbD_sext8 (v : BitVec 8) (i : Nat) (hi : i < 16) :
    (sext8 v).getLsbD i = if i < 8 then v.getLsbD i else v.getLsbD 7 := by
  rw [sext8, BitVec.getLsbD_signExtend, decide_eq_true hi, Bool.true_and, BitVec.msb_eq_getLsbD_last]

/-- Settles O21: the value retired is the sign extension. -/
theorem setloSignExtends : Obligations.SetloSignExtends := by
  unfold Obligations.SetloSignExtends
  exact fun d v s => ⟨_, _, exec_setlo d v s, s.retire_spec d (sext8 v) s.flags, sext8_toInt v, getLsbD_sext8 v⟩

/-- The high byte set over the sign extension of the low byte makes up the word (R122). -/
theorem withHighByte_sext8 (w : Word) : withHighByte (w.extractLsb' 8 8) (sext8 (w.extractLsb' 0 8)) = w := by
  refine BitVec.eq_of_getLsbD_eq fun i hi => ?_
  rw [getLsbD_withHighByte _ _ i hi, getLsbD_sext8 _ i hi]
  split
  · simp [*]
  · have hlt : i - 8 < 8 := by omega
    have hadd : 8 + (i - 8) = i := by omega
    simp [hlt, hadd]

/-- Two writes of one register are the second. -/
theorem Regs.set_set (x : Regs) (d : Reg) (v w : Word) : (x.set d v).set d w = x.set d w := by
  cases d <;> rfl

/-- The state after SET: Rd is the word, and PC is two further on. -/
def afterSet (s : State) (d : Reg) (w : Word) : State := (s.setReg d w).setPc (s.pc + 2)

/-- SET puts the word in Rd, whatever Rd held (R122). -/
theorem execAll_expandSet (d : Reg) (w : Word) (s : State) :
    execAll (expandSet d w) s = .next (afterSet s d w) := by
  have hpc : s.pc + 1 + 1 = s.pc + 2 := BitVec.add_assoc s.pc 1 1
  have hregs : (s.regs.set d (sext8 (w.extractLsb' 0 8))).set d
      (withHighByte (w.extractLsb' 8 8) ((s.setReg d (sext8 (w.extractLsb' 0 8))).reg d)) = s.regs.set d w := by
    rw [Regs.set_set, State.reg_setReg_self]
    by_cases hd : d = .r0
    · subst hd; rfl
    · rw [if_neg hd, withHighByte_sext8]
  show Host.Outcome.next (State.mk (Regs.set _ d _) (s.pc + 1 + 1) s.flags s.dmem s.imem) = _
  rw [hpc]
  exact congrArg (fun x => Host.Outcome.next (State.mk x (s.pc + 2) s.flags s.dmem s.imem)) hregs

/-- The first instruction of a sequence that has a next state. -/
theorem execAll_cons {i : Instr} {s t : State} (rest : List Instr) (h : exec i s = .next t) :
    execAll (i :: rest) s = execAll rest t := by
  simp only [execAll, h]

/-- The first part of a sequence that has a next state. -/
theorem execAll_append {is : List Instr} {s t : State} (rest : List Instr) (h : execAll is s = .next t) :
    execAll (is ++ rest) s = execAll rest t := by
  induction is generalizing s with
  | nil => cases h; rfl
  | cons i is ih =>
    cases hi : exec i s with
    | next u =>
      rw [execAll_cons _ hi] at h
      rw [List.cons_append, execAll_cons _ hi, ih h]
    | fault r => cases r
    | refused r =>
      simp only [execAll, hi] at h
      cases h

/-- Settles O23: `execAll_expandSet`; in the other order SETLO's sign extension overwrites the high byte. -/
theorem setPairBuildsAnyWord : Obligations.SetPairBuildsAnyWord := by
  unfold Obligations.SetPairBuildsAnyWord
  refine ⟨fun d w s => ?pair, fun d w s hd => ?reverse, fun _ _ => rfl, by decide, by decide, by decide⟩
  case pair =>
    exact ⟨_, execAll_expandSet d w s, s.reg_setReg_self d w, (s.reg_setReg_ne · d w), rfl, rfl, fun _ => rfl,
      fun _ => rfl⟩
  case reverse =>
    refine ⟨_, (execAll_cons _ (exec_sethi ..)).trans (execAll_cons _ (exec_setlo ..)), fun i hlo hhi => ?_⟩
    rw [State.retire_reg, State.reg_setReg_self, if_neg hd, getLsbD_sext8 _ i hhi, if_neg (by omega)]
    simp

/-! ### ADD, SUB, INC, DEC -/

/-- The meaning of ADD. -/
theorem exec_add (d a b : Reg) (s : State) :
    exec (.add d a b) s = .next (s.retireComputed d (addWords s.flags (s.reg a) (s.reg b))) := rfl

/-- The meaning of INC. -/
theorem exec_inc (d : Reg) (delta : Nat) (s : State) :
    exec (.inc d delta) s = .next (s.retireComputed d (incWord s.flags (s.reg d) delta)) := rfl

/-- The meaning of DEC. -/
theorem exec_dec (d : Reg) (delta : Nat) (s : State) :
    exec (.dec d delta) s = .next (s.retireComputed d (decWord s.flags (s.reg d) delta)) := rfl

/-- What every instruction that retires a sum does (R131). -/
theorem writes_of_exec_computeSum {i : Instr} {s : State} {d : Reg} {usum : Nat} {ssum : Int}
    (hexec : exec i s = .next (s.retireComputed d (computeSum s.flags usum ssum))) :
    ∃ t r f, exec i s = .next t ∧ WritesRegister s t d r f ∧ r.toNat = usum % 65536 ∧ SZOf f r ∧
      (f.c = true ↔ 65536 ≤ usum) ∧ (f.v = true ↔ ssum < -32768 ∨ 32767 < ssum) ∧ f.cb = s.flags.cb :=
  ⟨_, _, _, hexec, s.retireComputed_spec d _, computeSum_spec s.flags usum ssum⟩

/-- What every instruction that retires a difference does (R132). -/
theorem writes_of_exec_computeDiff {i : Instr} {s : State} {d : Reg} {udiff sdiff : Int}
    (hexec : exec i s = .next (s.retireComputed d (computeDiff s.flags udiff sdiff))) :
    ∃ t r f, exec i s = .next t ∧ WritesRegister s t d r f ∧ (r.toNat : Int) = udiff % 65536 ∧ SZOf f r ∧
      (f.c = true ↔ 0 ≤ udiff) ∧ (f.v = true ↔ sdiff < -32768 ∨ 32767 < sdiff) ∧ f.cb = s.flags.cb :=
  ⟨_, _, _, hexec, s.retireComputed_spec d _, computeDiff_spec s.flags udiff sdiff⟩

/-- The carry that is taken in, as a number (R28). -/
theorem Flags.carryIn_toNat (f : Flags) : f.carryIn.toNat = if f.c = true ∧ f.cb = false then 1 else 0 := by
  obtain ⟨s, z, v, c, cb⟩ := f
  cases c <;> cases cb <;> rfl

/-- The borrow that is taken in, as a number (R28). -/
theorem Flags.borrowIn_toNat (f : Flags) : f.borrowIn.toNat = if f.c = false ∧ f.cb = false then 1 else 0 := by
  obtain ⟨s, z, v, c, cb⟩ := f
  cases c <;> cases cb <;> rfl

/-- The signed and the unsigned value of a word agree modulo 2^16, and the signed one lies in its range. -/
theorem toInt_bounds (x : Word) : x.toInt % 65536 = x.toNat ∧ -32768 ≤ x.toInt ∧ x.toInt ≤ 32767 := by
  have hx := x.isLt
  rw [BitVec.toInt_eq_toNat_cond]
  split <;> omega

/-- Settles O25: the sum counts the carry taken in, and v says that the signed sum does not fit. -/
theorem addWithCarry : Obligations.AddWithCarry := by
  unfold Obligations.AddWithCarry
  intro d a b s cin usum ssum
  have hexec := exec_add d a b s
  rw [addWords, Flags.carryIn_toNat] at hexec
  obtain ⟨t, r, f, ht, hwrites, hr, hsz, hc, hv, hcb⟩ := writes_of_exec_computeSum hexec
  obtain ⟨hx, -, -⟩ := toInt_bounds (s.reg a)
  obtain ⟨hy, -, -⟩ := toInt_bounds (s.reg b)
  have hmod : (r.toNat : Int) = ssum % 65536 := by
    have husum : r.toNat = usum % 65536 := hr
    simp only [usum, ssum] at husum ⊢
    omega
  exact ⟨t, r, f, ht, hwrites, hr, hsz, hc, hv, hv.trans (toInt_ne_iff r ssum hmod).symm, hcb⟩

/-- Settles O26: the difference counts the borrow taken in, and v says that the signed difference does not fit. -/
theorem subWithBorrow : Obligations.SubWithBorrow := by
  unfold Obligations.SubWithBorrow
  intro d a b s bin udiff sdiff
  have hexec := exec_sub d a b s
  rw [subWords, Flags.borrowIn_toNat] at hexec
  obtain ⟨t, r, f, ht, hwrites, hr, hsz, hc, hv, hcb⟩ := writes_of_exec_computeDiff hexec
  obtain ⟨hx, -, -⟩ := toInt_bounds (s.reg a)
  obtain ⟨hy, -, -⟩ := toInt_bounds (s.reg b)
  have hmod : (r.toNat : Int) = sdiff % 65536 := by
    have hudiff : (r.toNat : Int) = udiff % 65536 := hr
    simp only [udiff, sdiff] at hudiff ⊢
    omega
  exact ⟨t, r, f, ht, hwrites, hr, hsz, hc, hv, hv.trans (toInt_ne_iff r sdiff hmod).symm, hcb⟩

/-- The INC and DEC words by bits 7 and 6 (R84). -/
theorem decode_incDec (w : Word) (hop : fieldOp w = 0b0011) (h7 : w.getLsbD 7 = true) :
    (w.getLsbD 6 = false → decode w = .instr (.inc (Reg.ofBits (fieldD w)) (fieldDelta w))) ∧
      (w.getLsbD 6 = true → decode w = .instr (.dec (Reg.ofBits (fieldD w)) (fieldDelta w))) := by
  rw [decode_0011 w hop]
  exact ⟨fun h6 => decode0011_inc w (by rw [fieldIncDec_eq, h7, h6]; rfl),
    fun h6 => decode0011_dec w (by rw [fieldIncDec_eq, h7, h6]; rfl)⟩

/-- Settles O31: the sum with no carry in; adding 1 to 64 overflows upward only. -/
theorem incAddsDelta : Obligations.IncAddsDelta := by
  unfold Obligations.IncAddsDelta
  refine ⟨fun w hop h7 => (decode_incDec w hop h7).1, fun d delta s hlo hhi => ?_⟩
  intro usum ssum
  obtain ⟨t, r, f, ht, hwrites, hr, hsz, hc, hv, hcb⟩ := writes_of_exec_computeSum (exec_inc d delta s)
  obtain ⟨-, hlow, -⟩ := toInt_bounds (s.reg d)
  have hup : ssum < -32768 ∨ 32767 < ssum ↔ 32767 < ssum := by
    simp only [ssum]
    omega
  exact ⟨t, r, f, ht, hwrites, hr, hsz, hc, hv.trans hup, hcb⟩

/-- Settles O32: the difference with no borrow in; subtracting 1 to 64 overflows downward only. -/
theorem decSubtractsDelta : Obligations.DecSubtractsDelta := by
  unfold Obligations.DecSubtractsDelta
  refine ⟨fun w hop h7 => (decode_incDec w hop h7).2, fun d delta s hlo hhi => ?_⟩
  intro udiff sdiff
  obtain ⟨t, r, f, ht, hwrites, hr, hsz, hc, hv, hcb⟩ := writes_of_exec_computeDiff (exec_dec d delta s)
  obtain ⟨-, -, hhigh⟩ := toInt_bounds (s.reg d)
  have hdown : sdiff < -32768 ∨ 32767 < sdiff ↔ sdiff < -32768 := by
    simp only [sdiff]
    omega
  have hborrow : 0 ≤ udiff ↔ delta ≤ (s.reg d).toNat := by
    simp only [udiff]
    omega
  exact ⟨t, r, f, ht, hwrites, hr, hsz, hc.trans hborrow, hv.trans hdown, hcb⟩

/-! ### MUL -/

/-- The exact signed and unsigned products agree modulo 2^16. -/
theorem toInt_mul_mod (x y : Word) : x.toInt * y.toInt % 65536 = ((x.toNat * y.toNat : Nat) : Int) % 65536 := by
  obtain ⟨hx, -, -⟩ := toInt_bounds x
  obtain ⟨hy, -, -⟩ := toInt_bounds y
  rw [Int.mul_emod, hx, hy, Nat.cast_mul]

/-- A word that is the exact unsigned product modulo 2^16 is the signed one modulo 2^16 (R134). -/
theorem toNat_eq_toInt_mul_mod {x y r : Word} (hr : r.toNat = x.toNat * y.toNat % 65536) :
    (r.toNat : Int) = x.toInt * y.toInt % 65536 := by
  rw [hr, Int.natCast_emod]
  exact (toInt_mul_mod x y).symm

/-- The upper half of the exact signed product fits in a word. -/
theorem toInt_mul_div_bounds (x y : Word) :
    -32768 ≤ x.toInt * y.toInt / 65536 ∧ x.toInt * y.toInt / 65536 ≤ 32767 := by
  obtain ⟨-, hxl, hxh⟩ := toInt_bounds x
  obtain ⟨-, hyl, hyh⟩ := toInt_bounds y
  have habs : |x.toInt * y.toInt| ≤ 32768 * 32768 := by
    rw [abs_mul]
    exact mul_le_mul (abs_le.mpr ⟨hxl, by omega⟩) (abs_le.mpr ⟨hyl, by omega⟩) (abs_nonneg _) (by decide)
  obtain ⟨hlo, hhi⟩ := abs_le.mp habs
  omega

/-- The high word is the upper half of the exact signed product (R134). -/
theorem toInt_mulHigh (x y : Word) :
    (BitVec.ofInt 16 (x.toInt * y.toInt / 65536)).toInt = x.toInt * y.toInt / 65536 := by
  obtain ⟨hlo, hhi⟩ := toInt_mul_div_bounds x y
  rw [BitVec.toInt_ofInt, Int.bmod_def]
  omega

/-- MUL in the low mode. -/
theorem exec_mul_low (d a b : Reg) (s : State)
    (h : s.flags.cb = true ∨ s.flags = ⟨false, false, false, false, false⟩) :
    exec (.mul d a b) s = .next (s.retireComputed d (mulLow s.flags (s.reg a) (s.reg b))) := by
  rw [exec_mul, s.flags.mulMode_spec.1.mpr h]; rfl

/-- MUL in the high mode. -/
theorem exec_mul_high (d a b : Reg) (s : State) (h : s.flags = ⟨true, false, false, false, false⟩) :
    exec (.mul d a b) s = .next (s.retireComputed d (mulHighSigned s.flags (s.reg a) (s.reg b))) := by
  rw [exec_mul, s.flags.mulMode_spec.2.1.mpr h]; rfl

/-- Settles O27: mode by mode, with the flags by `mulFlags_spec`. -/
theorem mulResults : Obligations.MulResults := by
  unfold Obligations.MulResults
  refine ⟨fun d a b s hmode => ?low, fun d a b s hmode => ?high⟩
  case low =>
    intro up sp
    have hr : (BitVec.ofNat 16 up).toNat = up % 65536 := BitVec.toNat_ofNat ..
    have hmod : ((BitVec.ofNat 16 up).toNat : Int) = sp % 65536 := toNat_eq_toInt_mul_mod hr
    obtain ⟨hsz, hc, hv, hcb⟩ := mulFlags_spec s.flags (s.reg a) (s.reg b) (BitVec.ofNat 16 up)
    exact ⟨_, _, _, exec_mul_low d a b s hmode, s.retireComputed_spec d _, hr, hsz, hc, hv,
      hv.trans (toInt_ne_iff _ sp hmod).symm, hcb⟩
  case high =>
    intro up sp
    exact ⟨_, _, _, exec_mul_high d a b s hmode, s.retireComputed_spec d _, toInt_mulHigh _ _,
      mulFlags_spec s.flags (s.reg a) (s.reg b) _⟩

/-- Settles O28: by the table of the modes. -/
theorem mulUndefinedModesRefused : Obligations.MulUndefinedModesRefused := by
  unfold Obligations.MulUndefinedModesRefused
  intro d a b s hcb hflags
  rw [exec_mul, s.flags.mulMode_spec.2.2.mpr ⟨hcb, hflags⟩]
  rfl

/-- Settles O29: the low word is the exact product modulo 2^16, the high word its quotient by 2^16; the low word's
register is none that is read or written after it. -/
theorem mulPairMakesLongProduct : Obligations.MulPairMakesLongProduct := by
  unfold Obligations.MulPairMakesLongProduct
  intro h l a b s hh hl hlh hla hlb
  obtain ⟨hmulLow, hmulHigh⟩ := mulResults
  obtain ⟨-, hset⟩ := setAllFlags
  obtain ⟨t₁, hexec₁, hw₁⟩ := hset 0x00 s
  obtain ⟨t₂, lo, f₂, hexec₂, hw₂, hlo, -⟩ := hmulLow l a b t₁ (.inr hw₁.flags)
  obtain ⟨t₃, hexec₃, hw₃⟩ := hset 0x01 t₂
  obtain ⟨t₄, hi, f₄, hexec₄, hw₄, hhi, -⟩ := hmulHigh h a b t₃ hw₃.flags
  have ha : t₃.reg a = s.reg a := by rw [hw₃.regs, hw₂.others a hla.symm, hw₁.regs]
  have hb : t₃.reg b = s.reg b := by rw [hw₃.regs, hw₂.others b hlb.symm, hw₁.regs]
  have hregh : t₄.reg h = hi := by rw [hw₄.result, if_neg hh]
  have hregl : t₄.reg l = lo := by rw [hw₄.others l hlh, hw₃.regs, hw₂.result, if_neg hl]
  refine ⟨t₄, ?_, ?_⟩
  · rw [execAll_cons _ hexec₁, execAll_cons _ hexec₂, execAll_cons _ hexec₃, execAll_cons _ hexec₄, execAll]
  · rw [hw₁.regs, hw₁.regs] at hlo
    rw [hregh, hregl, hhi, toNat_eq_toInt_mul_mod hlo, ha, hb]
    exact Int.ediv_mul_add_emod _ _

/-! ### Two words -/

section
variable {dh dl ah al bh bl : Reg} {s : State}

/-- COFF and two ADDs: the carry of the low word is taken in by the high word, carry-block being off (R141). -/
theorem execAll_twoWordAdd (hcb : s.flags.cb = false) (hdh : dh ≠ .r0) (hdl : dl ≠ .r0) (hlh : dl ≠ dh)
    (hla : dl ≠ ah) (hlb : dl ≠ bh) :
    ∃ t, execAll [.foff 0x08, .add dl al bl, .add dh ah bh] s = .next t ∧
      (t.reg dh).toNat * 65536 + (t.reg dl).toNat = ((s.reg ah).toNat * 65536 + (s.reg al).toNat +
        ((s.reg bh).toNat * 65536 + (s.reg bl).toNat)) % 4294967296 ∧
      (t.flags.c = true ↔ 4294967296 ≤ (s.reg ah).toNat * 65536 + (s.reg al).toNat +
        ((s.reg bh).toNat * 65536 + (s.reg bl).toNat)) := by
  obtain ⟨-, -, hoff, -⟩ := setAndClearNamedFlags
  obtain ⟨t₁, hexec₁, hw₁⟩ := hoff 0x08 s
  obtain ⟨t₂, lo, f₂, hexec₂, hw₂, hlo, -, hc₂, -, -, hcb₂⟩ := addWithCarry dl al bl t₁
  obtain ⟨t₃, hi, f₃, hexec₃, hw₃, hhi, -, hc₃, -, -, -⟩ := addWithCarry dh ah bh t₂
  have hal := (s.reg al).isLt
  have hbl := (s.reg bl).isLt
  have hin₁ : (if t₁.flags.c = true ∧ t₁.flags.cb = false then 1 else 0) = 0 := by simp [hw₁.flags]
  have hin₂ : (if t₂.flags.c = true ∧ t₂.flags.cb = false then 1 else 0) =
      ((s.reg al).toNat + (s.reg bl).toNat) / 65536 := by
    rw [hin₁, hw₁.regs, hw₁.regs] at hc₂
    have hcb' : f₂.cb = false := by simp [hcb₂, hw₁.flags, hcb]
    simp only [hw₂.flags, hcb', hc₂, and_true]
    split <;> omega
  rw [hin₁, hw₁.regs, hw₁.regs] at hlo
  rw [hin₂, hw₂.others ah hla.symm, hw₂.others bh hlb.symm, hw₁.regs, hw₁.regs] at hhi hc₃
  have hregh : t₃.reg dh = hi := by rw [hw₃.result, if_neg hdh]
  have hregl : t₃.reg dl = lo := by rw [hw₃.others dl hlh, hw₂.result, if_neg hdl]
  refine ⟨t₃, ?_, ?_, ?_⟩
  · rw [execAll_cons _ hexec₁, execAll_cons _ hexec₂, execAll_cons _ hexec₃, execAll]
  · rw [hregh, hregl, hhi, hlo]
    omega
  · rw [hw₃.flags, hc₃]
    omega

/-- CON and two SUBs: the borrow of the low word is taken in by the high word, carry-block being off (R141). -/
theorem execAll_twoWordSub (hcb : s.flags.cb = false) (hdh : dh ≠ .r0) (hdl : dl ≠ .r0) (hlh : dl ≠ dh)
    (hla : dl ≠ ah) (hlb : dl ≠ bh) :
    ∃ t, execAll [.fon 0x08, .sub dl al bl, .sub dh ah bh] s = .next t ∧
      (((t.reg dh).toNat * 65536 + (t.reg dl).toNat : Nat) : Int) =
        ((((s.reg ah).toNat * 65536 + (s.reg al).toNat : Nat) : Int) -
          ((s.reg bh).toNat * 65536 + (s.reg bl).toNat : Nat)) % 4294967296 ∧
      (t.flags.c = true ↔
        (s.reg bh).toNat * 65536 + (s.reg bl).toNat ≤ (s.reg ah).toNat * 65536 + (s.reg al).toNat) := by
  obtain ⟨-, hon, -⟩ := setAndClearNamedFlags
  obtain ⟨t₁, hexec₁, hw₁⟩ := hon 0x08 s
  obtain ⟨t₂, lo, f₂, hexec₂, hw₂, hlo, -, hc₂, -, -, hcb₂⟩ := subWithBorrow dl al bl t₁
  obtain ⟨t₃, hi, f₃, hexec₃, hw₃, hhi, -, hc₃, -, -, -⟩ := subWithBorrow dh ah bh t₂
  have hal := (s.reg al).isLt
  have hbl := (s.reg bl).isLt
  have hin₁ : (if t₁.flags.c = false ∧ t₁.flags.cb = false then 1 else 0) = 0 := by simp [hw₁.flags]
  have hin₂ : (if t₂.flags.c = false ∧ t₂.flags.cb = false then 1 else 0) =
      if (s.reg al).toNat < (s.reg bl).toNat then 1 else 0 := by
    rw [hin₁, hw₁.regs, hw₁.regs] at hc₂
    have hcb' : f₂.cb = false := by simp [hcb₂, hw₁.flags, hcb]
    have hborrow : f₂.c = false ↔ (s.reg al).toNat < (s.reg bl).toNat := by
      rw [← Bool.not_eq_true, hc₂]
      omega
    simp only [hw₂.flags, hcb', hborrow, and_true]
  rw [hin₁, hw₁.regs, hw₁.regs] at hlo
  rw [hin₂, hw₂.others ah hla.symm, hw₂.others bh hlb.symm, hw₁.regs, hw₁.regs] at hhi hc₃
  have hregh : t₃.reg dh = hi := by rw [hw₃.result, if_neg hdh]
  have hregl : t₃.reg dl = lo := by rw [hw₃.others dl hlh, hw₂.result, if_neg hdl]
  refine ⟨t₃, ?_, ?_, ?_⟩
  · rw [execAll_cons _ hexec₁, execAll_cons _ hexec₂, execAll_cons _ hexec₃, execAll]
  · rw [hregh, hregl]
    split at hhi <;> omega
  · rw [hw₃.flags, hc₃]
    split <;> omega

end

/-- Settles O30: the two sequences, one lemma each. -/
theorem twoWordAddAndSubtract : Obligations.TwoWordAddAndSubtract := by
  unfold Obligations.TwoWordAddAndSubtract
  intro dh dl ah al bh bl s hcb hdh hdl hlh hla hlb
  exact ⟨execAll_twoWordAdd hcb hdh hdl hlh hla hlb, execAll_twoWordSub hcb hdh hdl hlh hla hlb⟩

end Sys2Proof.Machine
end

section
/-! PROOF. ASL and ASR, SAVEF, RSTRF and FSET4 (spec/43_shift.md R164, R165; spec/44_flags.md R180, R181, R185). -/

namespace Sys2Proof.Machine

/-! ### ASL -/

/-- The meaning of ASL. -/
theorem exec_asl (d b : Reg) (s : State) : exec (.asl d b) s = .next (s.retireComputed d
    (computeShift { s.flags with v := aslOverflow (s.reg b) } (shiftLeftIn (s.reg b) s.flags.carryIn)
      ((s.reg b).getLsbD 15))) := rfl

/-- Bits 15 and 14 differ exactly when the doubled word, with whatever is shifted in, leaves the signed range. -/
theorem aslOverflow_eq_signedOverflow (x : Word) (cin : Bool) :
    aslOverflow x = signedOverflow (x.toInt + x.toInt + cin.toNat) := by
  have hx := x.isLt
  have hcin := cin.toNat_lt
  have h15 : x.getLsbD 15 = true ↔ 32768 ≤ x.toNat := by rw [getLsbD_15, decide_eq_true_iff]
  have h14 : x.getLsbD 14 = true ↔ x.toNat / 16384 % 2 = 1 := by
    rw [← BitVec.testBit_toNat, Nat.testBit_eq_decide_div_mod_eq, decide_eq_true_iff]
  rw [aslOverflow, Bool.eq_iff_iff, signedOverflow_iff, Bool.xor_iff_ne, ne_eq, Bool.eq_iff_iff, h15, h14,
    BitVec.toInt_eq_toNat_cond]
  split <;> omega

/-- ASL computes what ADD of the word to itself computes (R164; D1). -/
theorem computeShift_asl (f : Flags) (x : Word) :
    computeShift { f with v := aslOverflow x } (shiftLeftIn x f.carryIn) (x.getLsbD 15) = addWords f x x := by
  have hx := x.isLt
  have hcin := f.carryIn.toNat_lt
  have hr : shiftLeftIn x f.carryIn = BitVec.ofNat 16 (x.toNat + x.toNat + f.carryIn.toNat) := by
    rw [← BitVec.toNat_inj, shiftLeftIn_toNat, BitVec.toNat_ofNat]
    omega
  have hc : x.getLsbD 15 = decide (65536 ≤ x.toNat + x.toNat + f.carryIn.toNat) := by
    rw [getLsbD_15, decide_eq_decide]
    omega
  rw [addWords, computeSum, computeShift, Flags.arith, ← hr, ← hc, ← aslOverflow_eq_signedOverflow]
  rfl

/-- Settles O35: the effect by `computeShift_spec`, and `computeShift_asl` for the agreement with ADD. -/
theorem aslIsAddToItself : Obligations.AslIsAddToItself := by
  unfold Obligations.AslIsAddToItself
  intro d b s cin
  obtain ⟨-, hsz, hv, hc, hcb⟩ := computeShift_spec { s.flags with v := aslOverflow (s.reg b) }
    (shiftLeftIn (s.reg b) s.flags.carryIn) ((s.reg b).getLsbD 15)
  exact ⟨⟨_, _, _, exec_asl d b s, s.retireComputed_spec d _, shiftLeftIn_toNat _ _, hc, hv, hsz, hcb⟩,
    by rw [exec_asl, exec_add, computeShift_asl]⟩

/-! ### ASR -/

/-- The meaning of ASR. -/
theorem exec_asr (d b : Reg) (s : State) : exec (.asr d b) s = .next (s.retireComputed d
    (computeShift s.flags (shiftRightIn ((s.reg b).getLsbD 15) (s.reg b)) ((s.reg b).getLsbD 0))) := rfl

/-- Shifting right under the sign bit halves the signed value, with bit 0 as the remainder (R165). -/
theorem toInt_shiftRightIn_sign (x : Word) :
    2 * (shiftRightIn (x.getLsbD 15) x).toInt + (x.getLsbD 0).toNat = x.toInt := by
  have hx := x.isLt
  have hr := shiftRightIn_toNat (x.getLsbD 15) x
  rw [toNat_getLsbD x 15] at hr
  rw [toNat_getLsbD, BitVec.toInt_eq_toNat_cond, BitVec.toInt_eq_toNat_cond, hr]
  split <;> split <;> omega

/-- The right shift under a top bit, bit by bit. -/
theorem getLsbD_shiftRightIn (top : Bool) (x : Word) (i : Nat) (hi : i < 16) :
    (shiftRightIn top x).getLsbD i = if i = 15 then top else x.getLsbD (i + 1) := by
  rw [shiftRightIn, BitVec.getLsbD_or, BitVec.getLsbD_ushiftRight, BitVec.getLsbD_shiftLeft, BitVec.getLsbD_setWidth,
    Nat.add_comm 1 i]
  split
  · next h => subst h; simp
  · have hlt : i < 15 := by omega
    simp [hlt]

/-- Settles O36: half and remainder by `toInt_shiftRightIn_sign`. -/
theorem asrHalvesSigned : Obligations.AsrHalvesSigned := by
  unfold Obligations.AsrHalvesSigned
  intro d b s
  obtain ⟨t, r, f, hexec, hwrites, ⟨hr, hbits⟩, hc, hsz, hv, hcb⟩ := writes_of_exec_computeShift
    (fun r c => 2 * r.toInt + c.toNat = (s.reg b).toInt ∧
      ∀ i, i < 16 → r.getLsbD i = if i = 15 then (s.reg b).getLsbD 15 else (s.reg b).getLsbD (i + 1))
    (exec_asr d b s) ⟨toInt_shiftRightIn_sign (s.reg b), getLsbD_shiftRightIn _ _⟩
  have hbit := f.c.toNat_lt
  exact ⟨t, r, f, hexec, hwrites, by omega, hr, hc, hbits, hsz, hv, hcb⟩

/-! ### SAVEF, RSTRF, FSET4 -/

/-- The meaning of SAVEF. -/
theorem exec_savef (d : Reg) (s : State) :
    exec (.savef d) s = .next (s.retire d (s.flags.toBits.setWidth 16) s.flags) := rfl

/-- The meaning of RSTRF. -/
theorem exec_rstrf (d : Reg) (s : State) :
    exec (.rstrf d) s = .next (s.retireFlags (Flags.ofBits ((s.reg d).extractLsb' 0 5))) := rfl

/-- The meaning of FSET4. -/
theorem exec_fset4 (m : BitVec 5) (s : State) :
    exec (.fset4 m) s = .next (s.retireFlags { Flags.ofBits m with cb := s.flags.cb }) := rfl

/-- The flags are the low five bits of the word that SAVEF writes (R180, R181). -/
theorem ofBits_extract_setWidth (f : Flags) : Flags.ofBits ((f.toBits.setWidth 16).extractLsb' 0 5) = f := by
  have hlow : (f.toBits.setWidth 16).extractLsb' 0 5 = f.toBits := by
    refine BitVec.eq_of_getLsbD_eq fun i hi => ?_
    have hi' : i < 16 := by omega
    simp [hi, hi']
  rw [hlow, Flags.ofBits_toBits]

/-- Settles O37: SAVEF's word bit by bit, RSTRF's flags flag by flag, and `ofBits_extract_setWidth` for the two
together. -/
theorem saveAndRestoreFlags : Obligations.SaveAndRestoreFlags := by
  unfold Obligations.SaveAndRestoreFlags
  refine ⟨fun d s => ?save, fun d s => ?restore, fun d s t u hd hsave hu => ?both⟩
  case save =>
    obtain ⟨hs, hz, hv, hc, hcb⟩ := s.flags.getLsbD_toBits
    have hbit (i : Nat) (hi : i < 16) : (s.flags.toBits.setWidth 16).getLsbD i = s.flags.toBits.getLsbD i := by
      rw [BitVec.getLsbD_setWidth, decide_eq_true hi, Bool.true_and]
    refine ⟨_, _, exec_savef d s, s.retire_spec d _ s.flags, (hbit 0 (by decide)).trans hs,
      (hbit 1 (by decide)).trans hz, (hbit 2 (by decide)).trans hv, (hbit 3 (by decide)).trans hc,
      (hbit 4 (by decide)).trans hcb, fun i hi => ?_⟩
    rw [BitVec.getLsbD_setWidth, BitVec.getLsbD_of_ge _ _ hi, Bool.and_false]
  case restore =>
    exact writesNoRegister_of_exec (exec_rstrf d s) (by simp [Flags.ofBits])
  case both =>
    rw [exec_savef] at hsave
    cases hsave
    refine ⟨_, exec_rstrf d u, ?_⟩
    rw [State.retireFlags_flags, hu, State.retire_reg, State.reg_setReg_self, if_neg hd, ofBits_extract_setWidth]

/-- Settles O40: bit 4 of the mask stands for carry-block, which FSET4 overwrites with its old value. -/
theorem setFourFlags : Obligations.SetFourFlags := by
  unfold Obligations.SetFourFlags
  intro m s
  refine ⟨writesNoRegister_of_exec (exec_fset4 m s) rfl, ?_⟩
  have hmask : { Flags.ofBits (m ^^^ 0x10) with cb := s.flags.cb } = { Flags.ofBits m with cb := s.flags.cb } := by
    simp [Flags.ofBits]
  rw [exec_fset4, exec_fset4, hmask]

end Sys2Proof.Machine
end

section
/-! PROOF. The branches on the unsigned order, the relative branches, and the flags after a comparison
(spec/46_branch.md R210 to R244). -/

namespace Sys2Proof.Machine

/-! ### The unsigned order -/

/-- c and z together include equality in the opposite order (R221). -/
theorem ComparisonFlags.unsigned_le {f : Flags} {x y : Word} (hf : ComparisonFlags f x y) :
    (!f.c || f.z) = true ↔ x.toNat ≤ y.toNat := by
  rw [Bool.or_eq_true, Bool.not_eq_true', ← Bool.not_eq_true, hf.carry, hf.zero, ← BitVec.toNat_inj]
  omega

/-- Settles O44: words and effect of each by `registerBranch`; what they test by the reading of c and z in
`ComparisonFlags`. -/
theorem unsignedOrderBranches : Obligations.UnsignedOrderBranches := by
  unfold Obligations.UnsignedOrderBranches
  refine ⟨registerBranch .ule, registerBranch .ug, registerBranch .c, registerBranch .nc, ?ule, ?ug, ?c, ?nc⟩
  case ule => exact takenAfterCompare_of_comparisonFlags fun _ _ _ hf => hf.unsigned_le
  case ug =>
    exact takenAfterCompare_of_comparisonFlags fun _ _ _ hf =>
      Bool.not_iff_not.trans (hf.unsigned_le.not.trans Nat.not_le)
  case c => exact takenAfterCompare_of_comparisonFlags fun _ _ _ hf => hf.carry
  case nc =>
    exact takenAfterCompare_of_comparisonFlags fun _ _ _ hf => Bool.not_iff_not.trans (hf.carry.not.trans Nat.not_le)

/-! ### The relative branches -/

/-- A relative branch has major opcode 0000: its word has (R90). -/
theorem encode_branchRelInstr_fields (cond : Cond) (o : BitVec 8) :
    fieldOp (encode (branchRelInstr cond o)) = 0b0000 ∧ fieldD (encode (branchRelInstr cond o)) = condCode cond ∧
      fieldV (encode (branchRelInstr cond o)) = o := by
  rw [encode_branchRelInstr]
  exact ⟨fieldOp_encodeSet .., fieldD_encodeSet .., fieldV_encodeSet ..⟩

/-- A word decodes to a relative branch exactly when it is laid out as R90 says. -/
theorem decode_eq_branchRelInstr_iff (w : Word) (cond : Cond) (o : BitVec 8) :
    decode w = .instr (branchRelInstr cond o) ↔ fieldOp w = 0b0000 ∧ fieldD w = condCode cond ∧ fieldV w = o := by
  constructor
  case mp =>
    intro hdecode
    obtain ⟨-, hw⟩ := decodeThenEncode w _ hdecode
    rw [← hw]
    exact encode_branchRelInstr_fields cond o
  case mpr =>
    rintro ⟨hop, hd, rfl⟩
    rw [decode_0000 w hop, hd, decodeRelative_condCode]

/-- R210 for every condition: the words and the effect of its relative branch. -/
theorem relativeBranch (cond : Cond) : RelativeBranch (condCode cond) (branchRelInstr cond) (Cond.holds cond) where
  words := fun w o => decode_eq_branchRelInstr_iff w cond o
  runs := fun o s => ⟨_, s.relTarget o, exec_branchRelInstr cond o s, s.relTarget_toNat o,
    s.branchTo_spec cond (s.relTarget o)⟩

/-- Settles O46: `relativeBranch`, condition by condition. -/
theorem relativeBranches : Obligations.RelativeBranches := by
  unfold Obligations.RelativeBranches
  exact ⟨relativeBranch .always, relativeBranch .l, relativeBranch .ge, relativeBranch .le, relativeBranch .g,
    relativeBranch .ule, relativeBranch .ug, relativeBranch .z, relativeBranch .nz, relativeBranch .c,
    relativeBranch .nc, relativeBranch .s, relativeBranch .ns, relativeBranch .v, relativeBranch .nv⟩

/-! ### After a comparison -/

/-- Settles O47: the flags by `ComparisonFlags`; CMP retires its result into R0, so that no register changes. -/
theorem flagsAfterComparison : Obligations.FlagsAfterComparison := by
  unfold Obligations.FlagsAfterComparison
  refine ⟨fun a b s => ?cmp, fun d a b s h => ?sub⟩
  case cmp =>
    have hcompare := subWords_comparisonFlags { s.flags with c := true } (s.reg a) (s.reg b) rfl
    have hpc : s.pc + 1 + 1 = s.pc + 2 := BitVec.add_assoc s.pc 1 1
    exact ⟨_, (execAll_cmp a b s).trans (exec_sub ..), hcompare.zero, hcompare.carry, hcompare.signed, rfl,
      fun _ => rfl, hpc, fun _ => rfl⟩
  case sub =>
    obtain ⟨t, hexec, hcompare⟩ := exec_sub_comparisonFlags d a b s h
    exact ⟨t, hexec, hcompare.zero, hcompare.carry, hcompare.signed⟩

end Sys2Proof.Machine
end

section
/-! PROOF. CALL and RETURN (spec/47_call_return.md R260 to R263). -/

namespace Sys2Proof.Machine

/-- Where the operands do not clash CALL exchanges, and RETURN does the same (R260 to R262). -/
theorem exec_call {a b : Reg} (s : State) (h : callClash a b = false) :
    exec (.call a b) s = .next (s.swapTransfer a b) ∧ exec (.ret a b) s = .next (s.swapTransfer a b) :=
  ⟨(callOrReturn_spec a b s).2 h, (callOrReturn_spec a b s).2 h⟩

/-- The operand pairs that do not clash (R263). -/
theorem callClash_eq_false {a b : Reg} (hab : a = .r0 ∨ a ≠ b) (hb : b ≠ .r14) : callClash a b = false := by
  rw [← Bool.not_eq_true, callClash_iff]
  rintro (⟨h, h0⟩ | h)
  · exact hab.elim h0 (fun hne => hne h)
  · exact hb h

/-- Settles O50: the words by the decoder's rules for major opcode 0010, the exchange by `State.swapTransfer_spec`. -/
theorem callAndReturnExchange : Obligations.CallAndReturnExchange := by
  unfold Obligations.CallAndReturnExchange
  refine ⟨fun w hop => ?words, fun _ _ _ => rfl, fun a b s hab hb => ?exchange⟩
  case words =>
    rw [decode_0010 w hop]
    exact ⟨fun hd => by rw [hd]; rfl, fun hd => by rw [hd]; rfl⟩
  case exchange =>
    have hclash := callClash_eq_false hab hb
    obtain ⟨hcall, hret⟩ := exec_call s hclash
    obtain ⟨hregb, hfp, hrega, hothers⟩ := s.swapTransfer_spec a b hclash
    exact ⟨_, hcall, hret, rfl, hregb, hfp, hrega, hothers, rfl, rfl, fun _ => rfl, fun _ => rfl⟩

/-- Settles O51: by the reading of the clash. -/
theorem callRegisterClashRefused : Obligations.CallRegisterClashRefused := by
  unfold Obligations.CallRegisterClashRefused
  intro a b s h
  have hrefused := (callOrReturn_spec a b s).1 ((callClash_iff a b).mpr h)
  exact ⟨hrefused, hrefused⟩

/-- Settles O52: the exchange twice, the second time on the values that the first one left. -/
theorem returnUndoesCall : Obligations.ReturnUndoesCall := by
  unfold Obligations.ReturnUndoesCall
  intro a b s t u ha hb hcall hua hub hufp
  have hclash : callClash a b = false := by
    by_contra h
    have hrefused := (callOrReturn_spec a b s).1 (Bool.not_eq_false _ |>.mp h)
    cases hrefused.symm.trans hcall
  obtain ⟨hexec, -⟩ := exec_call s hclash
  obtain rfl : s.swapTransfer a b = t := Host.Outcome.next.inj (hexec.symm.trans hcall)
  obtain ⟨hregb, hfp, hrega, -⟩ := s.swapTransfer_spec a b hclash
  obtain ⟨hregb', hfp', hrega', -⟩ := u.swapTransfer_spec a b hclash
  obtain ⟨-, hret⟩ := exec_call u hclash
  refine ⟨_, hret, ?_, ?_, ?_, hregb' hb⟩
  · exact hub.trans (hregb hb)
  · rw [hfp', hua, hrega ha]
  · rw [hrega' ha, hufp, hfp]

end Sys2Proof.Machine
end

section
/-! PROOF. The assembler's statements and the loader (spec/49_assembler.md R290 to R312; spec/46_branch.md R244;
spec/70_reset_and_hazards.md R372). -/

namespace Sys2Proof.Machine

/-! ### Sizes -/

/-- Every value of an operand that is accepted makes the same number of words. -/
theorem length_of_map_eq_ok {α : Type} {r : Except AsmError α} {f : α → List Word} {ws : List Word} {n : Nat}
    (h : r.map f = .ok ws) (hf : ∀ x, (f x).length = n) : ws.length = n := by
  cases r with
  | error e => cases h
  | ok x =>
    cases h
    exact hf x

/-- Settles O54: the words of a statement are the encoding of an expansion whose length no operand changes. -/
theorem statementSizes : Obligations.StatementSizes := by
  unfold Obligations.StatementSizes
  intro ns at_ st ws h
  cases st
  case instr i =>
    simp only [AsmStmt.code] at h
    split at h
    · cases h; rfl
    · cases h
  case imm | set | setrf | opcode | branchTo | branchRelTo | callTo => exact length_of_map_eq_ok h fun _ => rfl
  all_goals
    cases h
    rfl

/-! ### Sequences that set a register and go on -/

/-- A sequence of one instruction. -/
theorem execAll_singleton {i : Instr} {s t : State} (h : exec i s = .next t) : execAll [i] s = .next t := by
  rw [execAll_cons [] h, execAll]

/-- SET and one more instruction (R290). -/
theorem execAll_expandSet_then {i : Instr} {s t : State} {d : Reg} {w : Word} (h : exec i (afterSet s d w) = .next t) :
    execAll (expandSet d w ++ [i]) s = .next t := by
  rw [execAll_append _ (execAll_expandSet d w s), execAll_singleton h]

/-- PC after SET and one more instruction that moves on. -/
theorem afterSet_pc_succ (s : State) (d : Reg) (w : Word) : (afterSet s d w).pc + 1 = s.pc + 3 :=
  BitVec.add_assoc s.pc 2 1

/-- The register that SET wrote. -/
theorem afterSet_reg_self {s : State} {d : Reg} {w : Word} (h : d ≠ .r0) : (afterSet s d w).reg d = w :=
  (s.reg_setReg_self d w).trans (if_neg h)

/-- The registers that SET did not write. -/
theorem afterSet_reg_ne {s : State} {d i : Reg} {w : Word} (h : i ≠ d) : (afterSet s d w).reg i = s.reg i :=
  s.reg_setReg_ne i d w h

/-! ### Pseudo-operations -/

/-- MOVE copies Rb (R292). -/
theorem execAll_expandMove (a b : Reg) (s : State) : ∃ t, execAll (expandMove a b) s = .next t ∧
    t.reg a = (if a = .r0 then 0 else s.reg b) ∧ (∀ i, i ≠ a → t.reg i = s.reg i) ∧ SZOf t.flags (s.reg b) ∧
    KeepsVCCb s.flags t.flags := by
  have hor : s.reg b ||| s.reg .r0 = s.reg b := BitVec.or_zero
  have hexec := exec_or a b .r0 s
  rw [hor] at hexec
  obtain ⟨t, r, f, ht, hwrites, rfl, hsz, hkept⟩ := writes_of_exec_computeSZ (p := (· = s.reg b)) hexec rfl
  exact ⟨t, execAll_singleton ht, hwrites.result, hwrites.others, hwrites.flags ▸ hsz, hwrites.flags ▸ hkept⟩

/-- NEG subtracts Rb from 0 with no borrow in (R294). -/
theorem execAll_expandNeg (d b : Reg) (s : State) : ∃ t r, execAll (expandNeg d b) s = .next t ∧
    ((BitVec.toNat r : Nat) : Int) = -((s.reg b).toNat : Int) % 65536 ∧ t.reg d = (if d = .r0 then 0 else r) ∧
    (∀ i, i ≠ d → t.reg i = s.reg i) ∧ SZOf t.flags r ∧ (t.flags.c = true ↔ s.reg b = 0) ∧
    (t.flags.v = true ↔ s.reg b = 0x8000) ∧ t.flags.cb = s.flags.cb := by
  obtain ⟨-, hon, -⟩ := setAndClearNamedFlags
  obtain ⟨t₁, hexec₁, hw₁⟩ := hon 0x08 s
  obtain ⟨t, r, f, hexec, hw, hr, hsz, hc, hv, -, hcb⟩ := subWithBorrow d .r0 b t₁
  have hin : (if t₁.flags.c = false ∧ t₁.flags.cb = false then 1 else 0) = 0 := by simp [hw₁.flags]
  rw [hin, hw₁.regs b] at hr hc hv
  have hx := (s.reg b).isLt
  have hzero : s.reg b = 0 ↔ (s.reg b).toNat = 0 := BitVec.toNat_inj.symm
  have hmin : s.reg b = 0x8000 ↔ (s.reg b).toNat = 32768 := BitVec.toNat_inj.symm
  have h0Nat : (t₁.reg .r0).toNat = 0 := rfl
  have h0Int : (t₁.reg .r0).toInt = 0 := rfl
  rw [h0Nat] at hr hc
  rw [h0Int, BitVec.toInt_eq_toNat_cond] at hv
  refine ⟨t, r, ?_, ?_, hw.result, fun i hi => (hw.others i hi).trans (hw₁.regs i), hw.flags ▸ hsz, ?_, ?_, ?_⟩
  · exact (execAll_cons _ hexec₁).trans (execAll_singleton hexec)
  · rw [hr]; omega
  · rw [hw.flags, hc, hzero]; omega
  · rw [hw.flags, hv, hmin]
    split <;> omega
  · rw [hw.flags, hcb, hw₁.flags]; simp

/-- NOT complements Rb through R11 (R295). -/
theorem execAll_expandNot (d b : Reg) (s : State) : ∃ t r, execAll (expandNot d b) s = .next t ∧
    r = (if b = .r11 then 0 else ~~~(s.reg b)) ∧ t.reg d = (if d = .r0 then 0 else r) ∧
    (d ≠ .r11 → t.reg .r11 = 0xFFFF) ∧ (∀ i, i ≠ d → i ≠ .r11 → t.reg i = s.reg i) ∧ SZOf t.flags r ∧
    KeepsVCCb s.flags t.flags := by
  have hr11 : (afterSet s .rt 0xFFFF).reg .rt = 0xFFFF := afterSet_reg_self (by decide)
  have hvalue : 0xFFFF ^^^ (afterSet s .rt 0xFFFF).reg b = if b = .r11 then 0 else ~~~(s.reg b) := by
    by_cases hb : b = .r11
    · subst hb
      rw [hr11]; rfl
    · rw [afterSet_reg_ne hb, if_neg hb, ← BitVec.allOnes_xor]; rfl
  have hexec := exec_xor d .rt b (afterSet s .rt 0xFFFF)
  rw [hr11, hvalue] at hexec
  obtain ⟨t, r, f, ht, hwrites, hr, hsz, hkept⟩ :=
    writes_of_exec_computeSZ (p := (· = if b = .r11 then 0 else ~~~(s.reg b))) hexec rfl
  exact ⟨t, r, execAll_expandSet_then ht, hr, hwrites.result, fun hd => (hwrites.others _ hd.symm).trans hr11,
    fun i hi hi11 => (hwrites.others i hi).trans (afterSet_reg_ne hi11), hwrites.flags ▸ hsz, hwrites.flags ▸ hkept⟩

/-- FLAGS adds 0 to Ra with no carry in and keeps every register (R300). -/
theorem execAll_expandFlags (a : Reg) (s : State) : ∃ t, execAll (expandFlags a) s = .next t ∧
    (∀ i, t.reg i = s.reg i) ∧ SZOf t.flags (s.reg a) ∧ t.flags.v = false ∧ t.flags.c = false ∧
    t.flags.cb = s.flags.cb := by
  obtain ⟨-, -, hoff, -⟩ := setAndClearNamedFlags
  obtain ⟨t₁, hexec₁, hw₁⟩ := hoff 0x08 s
  obtain ⟨t, r, f, hexec, hw, hr, hsz, hc, hv, -, hcb⟩ := addWithCarry .r0 a .r0 t₁
  have hin : (if t₁.flags.c = true ∧ t₁.flags.cb = false then 1 else 0) = 0 := by simp [hw₁.flags]
  have h0Nat : (t₁.reg .r0).toNat = 0 := rfl
  have h0Int : (t₁.reg .r0).toInt = 0 := rfl
  rw [hin, hw₁.regs a, h0Nat] at hr hc
  rw [hin, hw₁.regs a, h0Int] at hv
  have hx := (s.reg a).isLt
  obtain ⟨-, hlo, hhi⟩ := toInt_bounds (s.reg a)
  have hvalue : r = s.reg a := BitVec.toNat_inj.mp (by omega)
  refine ⟨t, ?_, fun i => ?_, ?_, ?_, ?_, ?_⟩
  · exact (execAll_cons _ hexec₁).trans (execAll_singleton hexec)
  · by_cases hi : i = .r0
    · subst hi; rfl
    · exact (hw.others i hi).trans (hw₁.regs i)
  · rw [hw.flags, ← hvalue]; exact hsz
  · rw [hw.flags, ← Bool.not_eq_true, hv]; omega
  · rw [hw.flags, ← Bool.not_eq_true, hc]; omega
  · rw [hw.flags, hcb, hw₁.flags]; simp

/-- Settles O55: one lemma for each expansion; SETRF is SET and then FLAGS. -/
theorem pseudoOperationEffects : Obligations.PseudoOperationEffects := by
  unfold Obligations.PseudoOperationEffects
  refine ⟨execAll_expandMove, execAll_expandNeg, execAll_expandNot, execAll_expandFlags, fun d w s => ?_⟩
  obtain ⟨t, hexec, hregs, hsz, hv, hc, hcb⟩ := execAll_expandFlags d (afterSet s d w)
  refine ⟨t, (execAll_append _ (execAll_expandSet d w s)).trans hexec, ?_, fun i hi => ?_, ?_, hv, hc, hcb⟩
  · rw [hregs]; exact s.reg_setReg_self d w
  · rw [hregs]; exact afterSet_reg_ne hi
  · rw [hregs]; exact hsz

/-! ### The loader -/

/-- The address after the `n`th. -/
theorem ofNat_succ_word (n : Nat) : BitVec.ofNat 16 n + 1 = BitVec.ofNat 16 (n + 1) :=
  (BitVec.ofNat_add n 1).symm

/-- Loading instruction words writes the instruction memory alone (R372). -/
theorem State.loadCode_frame (s : State) (a : Word) (ws : List Word) : (s.loadCode a ws).regs = s.regs ∧
    (s.loadCode a ws).pc = s.pc ∧ (s.loadCode a ws).flags = s.flags ∧ (s.loadCode a ws).dmem = s.dmem := by
  induction ws generalizing s a with
  | nil => exact ⟨rfl, rfl, rfl, rfl⟩
  | cons w ws ih => exact ih (s.writeInstr a w) (a + 1)

/-- Loading data cells writes the data memory alone (R372). -/
theorem State.loadData_frame (s : State) (a : Word) (ds : List (Option Word)) : (s.loadData a ds).regs = s.regs ∧
    (s.loadData a ds).pc = s.pc ∧ (s.loadData a ds).flags = s.flags ∧ (s.loadData a ds).imem = s.imem := by
  induction ds generalizing s a with
  | nil => exact ⟨rfl, rfl, rfl, rfl⟩
  | cons d ds ih =>
    cases d with
    | none => exact ih s (a + 1)
    | some v => exact ih (s.writeData a v) (a + 1)

/-- A word is the address `n` exactly when its number is. -/
theorem eq_ofNat_iff (c : Word) (n : Nat) (h : n < 65536) : c = BitVec.ofNat 16 n ↔ c.toNat = n := by
  rw [← BitVec.toNat_inj, BitVec.toNat_ofNat, Nat.mod_eq_of_lt h]

/-- What an instruction cell holds after a load from address `n` upward. -/
theorem State.loadCode_instrCell (s : State) (n : Nat) (ws : List Word) (h : n + ws.length ≤ 65536) (c : Word) :
    (s.loadCode (BitVec.ofNat 16 n) ws).instrCell c =
      if n ≤ c.toNat then (ws[c.toNat - n]?).getD (s.instrCell c) else s.instrCell c := by
  induction ws generalizing s n with
  | nil => simp [State.loadCode]
  | cons w ws ih =>
    rw [List.length_cons] at h
    have hwrite := State.instrCell_writeInstr s (BitVec.ofNat 16 n) c w
    rw [if_congr (eq_ofNat_iff c n (by omega)) rfl rfl] at hwrite
    rw [State.loadCode, ofNat_succ_word, ih _ (n + 1) (by omega), hwrite]
    rcases Nat.lt_trichotomy c.toNat n with hlt | heq | hgt
    · rw [if_neg (by omega), if_neg (by omega), if_neg (by omega)]
    · rw [if_neg (by omega), if_pos heq, if_pos (by omega), heq, Nat.sub_self]; rfl
    · have hsub : c.toNat - n = c.toNat - (n + 1) + 1 := by omega
      rw [if_pos (by omega), if_neg (by omega), if_pos (by omega), hsub, List.getElem?_cons_succ]

/-- What a data cell holds after a load from address `n` upward; a reserved cell keeps what it held. -/
theorem State.loadData_dataCell (s : State) (n : Nat) (ds : List (Option Word)) (h : n + ds.length ≤ 65536) (c : Word) :
    (s.loadData (BitVec.ofNat 16 n) ds).dataCell c =
      if n ≤ c.toNat then ((ds[c.toNat - n]?).join).getD (s.dataCell c) else s.dataCell c := by
  induction ds generalizing s n with
  | nil => simp [State.loadData]
  | cons d ds ih =>
    rw [List.length_cons] at h
    have hfirst (u : State) (hu : u.dataCell c = if c.toNat = n then d.getD (s.dataCell c) else s.dataCell c) :
        (u.loadData (BitVec.ofNat 16 (n + 1)) ds).dataCell c =
          if n ≤ c.toNat then (((d :: ds)[c.toNat - n]?).join).getD (s.dataCell c) else s.dataCell c := by
      rw [ih u (n + 1) (by omega), hu]
      rcases Nat.lt_trichotomy c.toNat n with hlt | heq | hgt
      · rw [if_neg (by omega), if_neg (by omega), if_neg (by omega)]
      · rw [if_neg (by omega), if_pos heq, if_pos (by omega), heq, Nat.sub_self]; rfl
      · have hsub : c.toNat - n = c.toNat - (n + 1) + 1 := by omega
        rw [if_pos (by omega), if_neg (by omega), if_pos (by omega), hsub, List.getElem?_cons_succ]
    cases d with
    | none =>
      rw [State.loadData, ofNat_succ_word]
      exact hfirst s (ite_self _).symm
    | some v =>
      rw [State.loadData, ofNat_succ_word]
      refine hfirst _ ?_
      rw [State.dataCell_writeData, if_congr (eq_ofNat_iff c n (by omega)) rfl rfl]
      rfl

/-- Settles O56: the two loads cell by cell, each leaving the other memory alone. -/
theorem loaderPlacesProgram : Obligations.LoaderPlacesProgram := by
  unfold Obligations.LoaderPlacesProgram
  intro s img hcode hdata
  obtain ⟨hregs, hpc, hflags, hdmem⟩ := s.loadCode_frame Config.codeBase img.code
  obtain ⟨hregs', hpc', hflags', himem⟩ := (s.loadCode Config.codeBase img.code).loadData_frame Config.dataBase img.data
  have hinstr (a : Word) : (s.load img).instrCell a = (img.code[a.toNat]?).getD (s.instrCell a) := by
    rw [State.instrCell_congr (s.loadCode Config.codeBase img.code) (s.load img) himem a]
    exact s.loadCode_instrCell 0 img.code (by omega) a
  have hcell (a : Word) : (s.load img).dataCell a = if 0xC001 ≤ a.toNat then
      ((img.data[a.toNat - 0xC001]?).join).getD (s.dataCell a) else s.dataCell a := by
    rw [← State.dataCell_congr s _ hdmem a]
    exact (s.loadCode Config.codeBase img.code).loadData_dataCell 0xC001 img.data hdata a
  refine ⟨fun k w hk => ?code, fun a ha => ?codeKept, fun k v hk => ?data, fun a ha => ?dataKept, hregs'.trans hregs,
    hpc'.trans hpc, hflags'.trans hflags⟩
  case code =>
    have hlt := (List.getElem?_eq_some_iff.mp hk).1
    rw [hinstr, BitVec.toNat_ofNat, Nat.mod_eq_of_lt (by omega), hk]; rfl
  case codeKept => rw [hinstr, List.getElem?_eq_none ha]; rfl
  case data =>
    have hlt := (List.getElem?_eq_some_iff.mp hk).1
    rw [hcell, BitVec.toNat_ofNat, Nat.mod_eq_of_lt (by omega), if_pos (by omega), Nat.add_sub_cancel_left, hk]; rfl
  case dataKept =>
    rw [hcell]
    split
    · next hbase =>
      have hnone : (img.data[a.toNat - 0xC001]?).join = none := by
        cases hk : img.data[a.toNat - 0xC001]? with
        | none => rfl
        | some d =>
          cases d with
          | none => rfl
          | some v =>
            have haddr : a = BitVec.ofNat 16 (0xC001 + (a.toNat - 0xC001)) := by
              rw [Nat.add_sub_cancel' hbase, BitVec.ofNat_toNat, BitVec.setWidth_eq]
            exact absurd haddr (ha _ v hk)
      rw [hnone]; rfl
    · rfl

/-! ### Label operands -/

section
variable {ns : Names} {x : AsmName} {n : Int}

/-- The offset of a label is its distance from the branch, within the range of the field (R244, R306). -/
theorem offset_of_label (at_ : Nat) (h : lookupName x ns.labels = some n) : (AsmValue.name x).offset ns at_ =
    if -128 ≤ n - at_ ∧ n - at_ ≤ 127 then .ok (n - at_) else .error (.tooFar x) := by
  simp only [AsmValue.offset, h]

/-- The address of a label (R304). -/
theorem labelAddr_of_label (h : lookupName x ns.labels = some n) : labelAddr ns x = .ok n := by
  simp only [labelAddr, h]

/-- A branch of either form on a label builds the branch by its distance (R306, R308). -/
theorem code_branchRelTo (cond : Cond) (at_ : Nat) :
    (AsmStmt.branchRelTo cond x).code ns at_ = (AsmStmt.imm (.relative cond) (.name x)).code ns at_ := rfl

/-- An offset in range is its 8-bit field (R94). -/
theorem toInt_ofInt_offset (o : Int) (hlo : -128 ≤ o) (hhi : o ≤ 127) : (BitVec.ofInt 8 o).toInt = o := by
  rw [BitVec.toInt_ofInt, Int.bmod_def]
  omega

/-- The distance from a branch to a label, counted from the branch, reaches the label (R242, R244). -/
theorem relTarget_distance (s : State) (at_ : Nat) (n : Int) (hlo : -128 ≤ n - at_) (hhi : n - at_ ≤ 127)
    (hpc : s.pc = BitVec.ofNat 16 at_) : s.relTarget (BitVec.ofInt 8 (n - at_)) = BitVec.ofInt 16 n := by
  have htarget := s.relTarget_toNat (BitVec.ofInt 8 (n - at_))
  rw [toInt_ofInt_offset _ hlo hhi, hpc, BitVec.toNat_ofNat] at htarget
  rw [← BitVec.toNat_inj, BitVec.toNat_ofInt]
  omega

/-- Settles O57: form by form, the words by the label's address and the effect by SET and the branch or CALL. -/
theorem labelOperandsReachLabel : Obligations.LabelOperandsReachLabel := by
  unfold Obligations.LabelOperandsReachLabel
  intro ns at_ x n hlabel target
  refine ⟨fun cond s => ?register, fun cond s hlo hhi hpc => ?relative, fun cond hfar => ?tooFar, fun a s ha => ?call⟩
  case register =>
    have hexec := exec_branchInstr cond .r11 (afterSet s .r11 target)
    have hr11 : (afterSet s .r11 target).reg .r11 = target := afterSet_reg_self (by decide)
    refine ⟨_, ?_, execAll_expandSet_then hexec, ?_, hr11, fun i hi => afterSet_reg_ne hi, rfl, fun _ => rfl,
      fun _ => rfl⟩
    · simp only [AsmStmt.code, labelAddr_of_label hlabel]; rfl
    · rw [State.branchReg, State.branchTo_pc, State.regTarget, hr11, afterSet_pc_succ]; rfl
  case relative =>
    have hcode : (AsmStmt.imm (.relative cond) (.name x)).code ns at_ =
        .ok [encode (branchRelInstr cond (BitVec.ofInt 8 (n - at_)))] := by
      simp only [AsmStmt.code, ImmOp.build, offset_of_label at_ hlabel, if_pos (And.intro hlo hhi)]; rfl
    have heffect := s.branchTo_spec cond (s.relTarget (BitVec.ofInt 8 (n - at_)))
    rw [relTarget_distance s at_ n hlo hhi hpc] at heffect
    exact ⟨_, _, (code_branchRelTo cond at_).trans hcode, hcode, toInt_ofInt_offset _ hlo hhi,
      (exec_branchRelInstr cond _ s).trans (by rw [State.branchRel, relTarget_distance s at_ n hlo hhi hpc]), heffect⟩
  case tooFar =>
    have hcode : (AsmStmt.imm (.relative cond) (.name x)).code ns at_ = .error (.tooFar x) := by
      simp only [AsmStmt.code, ImmOp.build, offset_of_label at_ hlabel]
      rw [if_neg (by omega)]; rfl
    exact ⟨(code_branchRelTo cond at_).trans hcode, hcode⟩
  case call =>
    have hclash : callClash a .r13 = false := callClash_eq_false (.inr ha) (by decide)
    have hr13 : (afterSet s .r13 target).reg .r13 = target := afterSet_reg_self (by decide)
    obtain ⟨hcall, -⟩ := exec_call (afterSet s .r13 target) hclash
    obtain ⟨hregb, hfp, hrega, hothers⟩ := (afterSet s .r13 target).swapTransfer_spec a .r13 hclash
    have hreturn := (hregb (by decide)).trans (afterSet_pc_succ s .r13 target)
    refine ⟨_, ?_, execAll_expandSet_then hcall, hr13, hreturn, ?_,
      fun h0 => (hrega h0).trans (afterSet_reg_ne (by decide)), fun i hia hib hif => ?_, rfl, fun _ => rfl,
      fun _ => rfl⟩
    · simp only [AsmStmt.code, labelAddr_of_label hlabel]; rfl
    · exact hfp.trans (afterSet_reg_ne ha)
    · exact (hothers i hia hib hif).trans (afterSet_reg_ne hib)

end

end Sys2Proof.Machine
end
